-- ==== Sys2Proof/Word.lean ====
section
/-! DEFINITION. The unsigned values of the spec: u4, u8, u12 and u16 (00_scope.md R10, R15). All
`+` and `-` on them wrap modulo 2^N. -/

namespace Sys2Proof

/-- A u4: a register index, a key, a row count (R15). -/
abbrev Nibble := BitVec 4

/-- A u8: the contents of a general register, a timer or a memory byte (R20, R30, R46). -/
abbrev Byte := BitVec 8

/-- A u12: the address field nnn of an instruction (R64). -/
abbrev Addr := BitVec 12

/-- A u16: an instruction word, pc, I or a saved pc (R24, R26, R28, R63). -/
abbrev Word := BitVec 16

end Sys2Proof
end

