-- ==== Sys2Proof/Config.lean ====
section
/-! DEFINITION. The parameters of 00_scope.md R8 that have admissible alternatives, as plain data, and
the values the spec leaves free. The values THIS HARDWARE takes are in Machine/Hardware.lean. -/

namespace Sys2Proof

/-- SYS_MODE: the meaning of 0nnn (R8, R93, D3). -/
inductive SysMode where
  | nop
  | decodeError
  deriving DecidableEq, Repr

/-- BLOCK_COPY_BOUND: the upper bound of LoadIntoRegs and LoadFromRegs (R8, R144, D4). -/
inductive BlockCopyBound where
  | inclusive
  | exclusive
  deriving DecidableEq, Repr

/-- SHIFT_SOURCE: which register the shifts read (R8, R113, D6). -/
inductive ShiftSource where
  | x
  | y
  deriving DecidableEq, Repr

/-- FLAG_ORDER: whether VF is written after the result or before it (R8, R103, D7). -/
inductive FlagOrder where
  | flagLast
  | resultLast
  deriving DecidableEq, Repr

/-- KEY_INDEX_MODE: the key test when the register holds more than 0xF (R8, R131, D14). -/
inductive KeyIndexMode where
  | notPressed
  | lowNibble
  | refuse
  deriving DecidableEq, Repr

/-- The parameters a model of this core takes as arguments (R8), fixed for the life of an engine (R85,
D22). The rows of R8 with one admissible value (NREG, the widths, MEM_SIZE, ADDR_MASK, PROG_BASE,
PROG_CAP, FONT_BASE) are constants of the model. -/
structure Params where
  /-- SPEED: sub-steps per tick (R85). -/
  speed : Nat
  /-- STACK_DEPTH: the most entries the call stack holds; `none` is unbounded (R29, D2). -/
  stackDepth : Option Nat
  /-- DISPLAY_W: columns of the display (R34). -/
  displayW : Nat
  /-- DISPLAY_H: rows of the display (R34). -/
  displayH : Nat
  /-- FONT_ROM: the 80 glyph bytes (R51, D13). -/
  fontRom : Vector Byte 80
  /-- FONT_WRITE_PROTECT: whether stores below 0x200 are ignored (R52, D12). -/
  fontWriteProtect : Bool
  /-- DECAY_WHEN_FULLY_STALLED: whether the timers decay in a tick whose every sub-step stalled (R87, D1). -/
  decayWhenFullyStalled : Bool
  /-- SYS_MODE (R93, D3). -/
  sysMode : SysMode
  /-- BLOCK_COPY_BOUND (R144, D4). -/
  blockCopyBound : BlockCopyBound
  /-- SHIFT_SOURCE (R113, D6). -/
  shiftSource : ShiftSource
  /-- FLAG_ORDER (R103, D7). -/
  flagOrder : FlagOrder
  /-- KEY_INDEX_MODE (R131, D14). -/
  keyIndexMode : KeyIndexMode
  deriving DecidableEq, Repr

/-- Rand8(), a FREE VALUE: the k-th byte the environment hands to Random (R14, R117, D20). Nothing
constrains it. DESIGN CHOICE of form, safe: assumption log 4. -/
opaque Config.rand8 : Nat → Byte

/-- TICK_RATE, ticks per second: OPEN, and no rule depends on it (R182, D30). UNVERIFIED, safe:
assumption log 17. -/
opaque Config.tickRate : Nat

end Sys2Proof
end

