-- ==== Sys2Proof/Machine/Hardware.lean ====
section
/-! DEFINITION. The constants of R8 and the values this hardware gives the parameters of R8. -/

namespace Sys2Proof

/-- PROG_BASE: the load address and the reset pc (R53, R42). -/
def progBase : Nat := 0x200

/-- MEM_SIZE: bytes of memory (R46). -/
def memSize : Nat := 4096

/-- PROG_CAP: the most bytes a program may have, 0x200..0x1000 (R172). -/
def progCap : Nat := 3584

/-- FONT_ROM's default: the standard glyphs of the digits 0 to F, five bytes each, as R51 lists them.
UNVERIFIED (the spec marks them as general knowledge, D13): assumption log 6. -/
def fontBytes : List Byte :=
  [0xF0, 0x90, 0x90, 0x90, 0xF0] ++ [0x20, 0x60, 0x20, 0x20, 0x70] ++
  [0xF0, 0x10, 0xF0, 0x80, 0xF0] ++ [0xF0, 0x10, 0xF0, 0x10, 0xF0] ++
  [0x90, 0x90, 0xF0, 0x10, 0x10] ++ [0xF0, 0x80, 0xF0, 0x10, 0xF0] ++
  [0xF0, 0x80, 0xF0, 0x90, 0xF0] ++ [0xF0, 0x10, 0x20, 0x40, 0x40] ++
  [0xF0, 0x90, 0xF0, 0x90, 0xF0] ++ [0xF0, 0x90, 0xF0, 0x10, 0xF0] ++
  [0xF0, 0x90, 0xF0, 0x90, 0x90] ++ [0xE0, 0x90, 0xE0, 0x90, 0xE0] ++
  [0xF0, 0x80, 0x80, 0x80, 0xF0] ++ [0xE0, 0x90, 0x90, 0x90, 0xE0] ++
  [0xF0, 0x80, 0xF0, 0x80, 0xF0] ++ [0xF0, 0x80, 0xF0, 0x80, 0x80]

/-- The "this hardware" column of R8. -/
def Params.hardware : Params where
  speed := 10
  stackDepth := some 16
  displayW := 64
  displayH := 32
  fontRom := Vector.ofFn fun k => fontBytes.getD k.val 0
  fontWriteProtect := false
  decayWhenFullyStalled := true
  sysMode := .nop
  blockCopyBound := .inclusive
  shiftSource := .x
  flagOrder := .flagLast
  keyIndexMode := .notPressed

end Sys2Proof
end

