-- ==== Sys2Proof/Syntax.lean ====
section
/-! DEFINITION. The 35 operations, one constructor per row of spec/opcode_table.json, each carrying exactly
the operand fields of 30_encoding.md R75. -/

namespace Sys2Proof

/-- The decoded operations (R68, R75). `ret` is the row Return. -/
inductive Instr where
  /-- 0nnn SYS nnn (R93). -/
  | sys (nnn : Addr)
  /-- 00E0 CLS (R123). -/
  | clear
  /-- 00EE RET (R94). -/
  | ret
  /-- 1nnn JP nnn (R95). -/
  | jump (nnn : Addr)
  /-- 2nnn CALL nnn (R97). -/
  | call (nnn : Addr)
  /-- 3xkk SE Vx, kk (R98). -/
  | skipEqByte (x : Nibble) (kk : Byte)
  /-- 4xkk SNE Vx, kk (R99). -/
  | skipNotEqByte (x : Nibble) (kk : Byte)
  /-- 5xy0 SE Vx, Vy (R100). -/
  | skipEqReg (x y : Nibble)
  /-- 6xkk LD Vx, kk (R104). -/
  | loadByte (x : Nibble) (kk : Byte)
  /-- 7xkk ADD Vx, kk (R115). -/
  | addByte (x : Nibble) (kk : Byte)
  /-- 8xy0 LD Vx, Vy (R105). -/
  | loadReg (x y : Nibble)
  /-- 8xy1 OR Vx, Vy (R110). -/
  | or (x y : Nibble)
  /-- 8xy2 AND Vx, Vy (R111). -/
  | and (x y : Nibble)
  /-- 8xy3 XOR Vx, Vy (R112). -/
  | xor (x y : Nibble)
  /-- 8xy4 ADD Vx, Vy (R107). -/
  | add (x y : Nibble)
  /-- 8xy5 SUB Vx, Vy (R108). -/
  | sub (x y : Nibble)
  /-- 8xy6 SHR Vx, Vy (R113). -/
  | shiftRight (x y : Nibble)
  /-- 8xy7 SUBN Vx, Vy (R109). -/
  | subNeg (x y : Nibble)
  /-- 8xyE SHL Vx, Vy (R114). -/
  | shiftLeft (x y : Nibble)
  /-- 9xy0 SNE Vx, Vy (R101). -/
  | skipNotEqReg (x y : Nibble)
  /-- Annn LD I, nnn (R106). -/
  | loadPointer (nnn : Addr)
  /-- Bnnn JP V0, nnn (R96). -/
  | jumpOffset (nnn : Addr)
  /-- Cxkk RND Vx, kk (R117). -/
  | random (x : Nibble) (kk : Byte)
  /-- Dxyn DRW Vx, Vy, n (R124). -/
  | draw (x y n : Nibble)
  /-- Ex9E SKP Vx (R132). -/
  | skipPressed (x : Nibble)
  /-- ExA1 SKNP Vx (R133). -/
  | skipNotPressed (x : Nibble)
  /-- Fx07 LD Vx, DT (R135). -/
  | loadFromDT (x : Nibble)
  /-- Fx0A LD Vx, K (R138). -/
  | loadKeyboard (x : Nibble)
  /-- Fx15 LD DT, Vx (R136). -/
  | loadIntoDT (x : Nibble)
  /-- Fx18 LD ST, Vx (R137). -/
  | loadIntoST (x : Nibble)
  /-- Fx1E ADD I, Vx (R116). -/
  | addToPointer (x : Nibble)
  /-- Fx29 LD F, Vx (R140). -/
  | loadFont (x : Nibble)
  /-- Fx33 LD B, Vx (R141). -/
  | loadDigits (x : Nibble)
  /-- Fx55 LD [I], Vx (R142). -/
  | loadFromRegs (x : Nibble)
  /-- Fx65 LD Vx, [I] (R143). -/
  | loadIntoRegs (x : Nibble)
  deriving DecidableEq, Repr

end Sys2Proof
end

