-- ==== Sys2Proof/WellFormed.lean ====
section
/-! DEFINITION. Which operations are the decoding of a word. The operand fields are exact by their types
(R75), so the checks are those of R70, R71 and R74 on Sys. -/

namespace Sys2Proof

/-- An operation that some word decodes to under the SYS_MODE `m`: Sys is none of the operations under
DecodeError (R71, R93), and the words of Sys{0x0E0} and Sys{0x0EE} are Clear's and Return's (R70, R74). -/
def Instr.wf (m : SysMode) : Instr → Bool
  | .sys nnn => m == .nop && nnn != 0x0E0 && nnn != 0x0EE
  | .clear | .ret | .jump _ | .call _ | .skipEqByte _ _ | .skipNotEqByte _ _ | .skipEqReg _ _
  | .loadByte _ _ | .addByte _ _ | .loadReg _ _ | .or _ _ | .and _ _ | .xor _ _ | .add _ _
  | .sub _ _ | .shiftRight _ _ | .subNeg _ _ | .shiftLeft _ _ | .skipNotEqReg _ _
  | .loadPointer _ | .jumpOffset _ | .random _ _ | .draw _ _ _ | .skipPressed _
  | .skipNotPressed _ | .loadFromDT _ | .loadKeyboard _ | .loadIntoDT _ | .loadIntoST _
  | .addToPointer _ | .loadFont _ | .loadDigits _ | .loadFromRegs _ | .loadIntoRegs _ => true

end Sys2Proof
end

