-- ==== Sys2Proof/Decode.lean ====
section
/-! DEFINITION. The decoder, total on every word and every byte string, and the encoder, both from the
opcode map of 30_encoding.md R68. The bit patterns are marked general knowledge by the spec (D24):
assumption log 6. -/

namespace Sys2Proof

/-- `DecodeError::UnknownInstruction(word)` (R71), and a byte string that ends inside an instruction, which
a fetch never meets (R49). -/
inductive DecodeError where
  | unknownInstruction (w : Word)
  | truncated
  deriving DecidableEq, Repr

/-! ### The fields of a word (R64) -/

/-- group = w[15:12]. -/
def fieldGroup (w : Word) : Nibble := w.extractLsb' 12 4

/-- x = w[11:8]. -/
def fieldX (w : Word) : Nibble := w.extractLsb' 8 4

/-- y = w[7:4]. -/
def fieldY (w : Word) : Nibble := w.extractLsb' 4 4

/-- n = w[3:0]. -/
def fieldN (w : Word) : Nibble := w.extractLsb' 0 4

/-- kk = w[7:0]. -/
def fieldKK (w : Word) : Byte := w.extractLsb' 0 8

/-- nnn = w[11:0]. -/
def fieldNNN (w : Word) : Addr := w.extractLsb' 0 12

/-! ### Decode -/

/-- Group 0: 00E0 and 00EE before Sys (R70); the other words are Sys, or illegal under
SYS_MODE = DecodeError (R71). -/
def decodeGroup0 (m : SysMode) (w : Word) : Except DecodeError Instr :=
  if w = 0x00E0 then .ok .clear
  else if w = 0x00EE then .ok .ret
  else match m with
    | .nop => .ok (.sys (fieldNNN w))
    | .decodeError => .error (.unknownInstruction w)

/-- Group 8, by the function code n; 8..D and F are illegal (R71). -/
def decodeGroup8 (w : Word) : Except DecodeError Instr :=
  match (fieldN w).toNat with
  | 0x0 => .ok (.loadReg (fieldX w) (fieldY w))
  | 0x1 => .ok (.or (fieldX w) (fieldY w))
  | 0x2 => .ok (.and (fieldX w) (fieldY w))
  | 0x3 => .ok (.xor (fieldX w) (fieldY w))
  | 0x4 => .ok (.add (fieldX w) (fieldY w))
  | 0x5 => .ok (.sub (fieldX w) (fieldY w))
  | 0x6 => .ok (.shiftRight (fieldX w) (fieldY w))
  | 0x7 => .ok (.subNeg (fieldX w) (fieldY w))
  | 0xE => .ok (.shiftLeft (fieldX w) (fieldY w))
  | _ => .error (.unknownInstruction w)

/-- Group E, by kk (R68 rows 25 and 26). -/
def decodeGroupE (w : Word) : Except DecodeError Instr :=
  if fieldKK w = 0x9E then .ok (.skipPressed (fieldX w))
  else if fieldKK w = 0xA1 then .ok (.skipNotPressed (fieldX w))
  else .error (.unknownInstruction w)

/-- Group F, by kk (R68 rows 27 to 35). -/
def decodeGroupF (w : Word) : Except DecodeError Instr :=
  if fieldKK w = 0x07 then .ok (.loadFromDT (fieldX w))
  else if fieldKK w = 0x0A then .ok (.loadKeyboard (fieldX w))
  else if fieldKK w = 0x15 then .ok (.loadIntoDT (fieldX w))
  else if fieldKK w = 0x18 then .ok (.loadIntoST (fieldX w))
  else if fieldKK w = 0x1E then .ok (.addToPointer (fieldX w))
  else if fieldKK w = 0x29 then .ok (.loadFont (fieldX w))
  else if fieldKK w = 0x33 then .ok (.loadDigits (fieldX w))
  else if fieldKK w = 0x55 then .ok (.loadFromRegs (fieldX w))
  else if fieldKK w = 0x65 then .ok (.loadIntoRegs (fieldX w))
  else .error (.unknownInstruction w)

/-- Decoding is strict (R69): a word decodes to an operation only if every fixed nibble of that
operation's pattern is the word's, and every other word is an unknown instruction (R71). -/
def decodeWord (m : SysMode) (w : Word) : Except DecodeError Instr :=
  match (fieldGroup w).toNat with
  | 0x0 => decodeGroup0 m w
  | 0x1 => .ok (.jump (fieldNNN w))
  | 0x2 => .ok (.call (fieldNNN w))
  | 0x3 => .ok (.skipEqByte (fieldX w) (fieldKK w))
  | 0x4 => .ok (.skipNotEqByte (fieldX w) (fieldKK w))
  | 0x5 => if fieldN w = 0 then .ok (.skipEqReg (fieldX w) (fieldY w)) else .error (.unknownInstruction w)
  | 0x6 => .ok (.loadByte (fieldX w) (fieldKK w))
  | 0x7 => .ok (.addByte (fieldX w) (fieldKK w))
  | 0x8 => decodeGroup8 w
  | 0x9 => if fieldN w = 0 then .ok (.skipNotEqReg (fieldX w) (fieldY w)) else .error (.unknownInstruction w)
  | 0xA => .ok (.loadPointer (fieldNNN w))
  | 0xB => .ok (.jumpOffset (fieldNNN w))
  | 0xC => .ok (.random (fieldX w) (fieldKK w))
  | 0xD => .ok (.draw (fieldX w) (fieldY w) (fieldN w))
  | 0xE => decodeGroupE w
  | _ => decodeGroupF w

/-- The big-endian word of two bytes: `hi : lo` (R54). -/
def wordOfBytes (hi lo : Byte) : Word := hi ++ lo

/-- The two bytes of a word in the order memory holds them (R54). -/
def bytesOfWord (w : Word) : List Byte := [w.extractLsb' 8 8, w.extractLsb' 0 8]

/-- Decoding a byte string: an instruction takes exactly two bytes (R63); what follows is left over. -/
def decodeBytes (m : SysMode) : List Byte → Except DecodeError (Instr × List Byte)
  | hi :: lo :: rest =>
    match decodeWord m (wordOfBytes hi lo) with
    | .ok i => .ok (i, rest)
    | .error e => .error e
  | [_] => .error .truncated
  | [] => .error .truncated

/-! ### Encode (R73) -/

/-- `match_bits | zext_16(nnn)`. -/
def encodeAddr (bits : Word) (nnn : Addr) : Word := bits ||| nnn.setWidth 16

/-- `match_bits | (x << 8) | kk`. -/
def encodeXKK (bits : Word) (x : Nibble) (kk : Byte) : Word :=
  bits ||| (x.setWidth 16 <<< 8) ||| kk.setWidth 16

/-- `match_bits | (x << 8) | (y << 4)`. -/
def encodeXY (bits : Word) (x y : Nibble) : Word :=
  bits ||| (x.setWidth 16 <<< 8) ||| (y.setWidth 16 <<< 4)

/-- `match_bits | (x << 8) | (y << 4) | n`. -/
def encodeXYN (bits : Word) (x y n : Nibble) : Word :=
  bits ||| (x.setWidth 16 <<< 8) ||| (y.setWidth 16 <<< 4) ||| n.setWidth 16

/-- `match_bits | (x << 8)`. -/
def encodeX (bits : Word) (x : Nibble) : Word := bits ||| (x.setWidth 16 <<< 8)

/-- encode, total over every operation and every operand value (R73). Sys{0x0E0} and Sys{0x0EE} get the
words 0x00E0 and 0x00EE (R74, D26). -/
def encode : Instr → Word
  | .sys nnn => encodeAddr 0x0000 nnn
  | .clear => 0x00E0
  | .ret => 0x00EE
  | .jump nnn => encodeAddr 0x1000 nnn
  | .call nnn => encodeAddr 0x2000 nnn
  | .skipEqByte x kk => encodeXKK 0x3000 x kk
  | .skipNotEqByte x kk => encodeXKK 0x4000 x kk
  | .skipEqReg x y => encodeXY 0x5000 x y
  | .loadByte x kk => encodeXKK 0x6000 x kk
  | .addByte x kk => encodeXKK 0x7000 x kk
  | .loadReg x y => encodeXY 0x8000 x y
  | .or x y => encodeXY 0x8001 x y
  | .and x y => encodeXY 0x8002 x y
  | .xor x y => encodeXY 0x8003 x y
  | .add x y => encodeXY 0x8004 x y
  | .sub x y => encodeXY 0x8005 x y
  | .shiftRight x y => encodeXY 0x8006 x y
  | .subNeg x y => encodeXY 0x8007 x y
  | .shiftLeft x y => encodeXY 0x800E x y
  | .skipNotEqReg x y => encodeXY 0x9000 x y
  | .loadPointer nnn => encodeAddr 0xA000 nnn
  | .jumpOffset nnn => encodeAddr 0xB000 nnn
  | .random x kk => encodeXKK 0xC000 x kk
  | .draw x y n => encodeXYN 0xD000 x y n
  | .skipPressed x => encodeX 0xE09E x
  | .skipNotPressed x => encodeX 0xE0A1 x
  | .loadFromDT x => encodeX 0xF007 x
  | .loadKeyboard x => encodeX 0xF00A x
  | .loadIntoDT x => encodeX 0xF015 x
  | .loadIntoST x => encodeX 0xF018 x
  | .addToPointer x => encodeX 0xF01E x
  | .loadFont x => encodeX 0xF029 x
  | .loadDigits x => encodeX 0xF033 x
  | .loadFromRegs x => encodeX 0xF055 x
  | .loadIntoRegs x => encodeX 0xF065 x

/-! ### The opcode map as R68 prints it -/

/-- A row of R68: the operation's name, its match and its mask. -/
structure OpcodeRow where
  name : String
  matchBits : Word
  mask : Word
  deriving DecidableEq, Repr

/-- A word selects a row when `w & mask = match` (R68). -/
def OpcodeRow.selects (r : OpcodeRow) (w : Word) : Bool := w &&& r.mask == r.matchBits

/-- The 35 rows of R68, in its order. -/
def opcodeRows : List OpcodeRow :=
  [⟨"Sys", 0x0000, 0xF000⟩, ⟨"Clear", 0x00E0, 0xFFFF⟩, ⟨"Return", 0x00EE, 0xFFFF⟩,
   ⟨"Jump", 0x1000, 0xF000⟩, ⟨"Call", 0x2000, 0xF000⟩, ⟨"SkipEqByte", 0x3000, 0xF000⟩,
   ⟨"SkipNotEqByte", 0x4000, 0xF000⟩, ⟨"SkipEqReg", 0x5000, 0xF00F⟩, ⟨"LoadByte", 0x6000, 0xF000⟩,
   ⟨"AddByte", 0x7000, 0xF000⟩] ++
  [⟨"LoadReg", 0x8000, 0xF00F⟩, ⟨"Or", 0x8001, 0xF00F⟩, ⟨"And", 0x8002, 0xF00F⟩,
   ⟨"Xor", 0x8003, 0xF00F⟩, ⟨"Add", 0x8004, 0xF00F⟩, ⟨"Sub", 0x8005, 0xF00F⟩,
   ⟨"ShiftRight", 0x8006, 0xF00F⟩, ⟨"SubNeg", 0x8007, 0xF00F⟩, ⟨"ShiftLeft", 0x800E, 0xF00F⟩,
   ⟨"SkipNotEqReg", 0x9000, 0xF00F⟩] ++
  [⟨"LoadPointer", 0xA000, 0xF000⟩, ⟨"JumpOffset", 0xB000, 0xF000⟩, ⟨"Random", 0xC000, 0xF000⟩,
   ⟨"Draw", 0xD000, 0xF000⟩, ⟨"SkipPressed", 0xE09E, 0xF0FF⟩, ⟨"SkipNotPressed", 0xE0A1, 0xF0FF⟩] ++
  [⟨"LoadFromDT", 0xF007, 0xF0FF⟩, ⟨"LoadKeyboard", 0xF00A, 0xF0FF⟩, ⟨"LoadIntoDT", 0xF015, 0xF0FF⟩,
   ⟨"LoadIntoST", 0xF018, 0xF0FF⟩, ⟨"AddToPointer", 0xF01E, 0xF0FF⟩, ⟨"LoadFont", 0xF029, 0xF0FF⟩,
   ⟨"LoadDigits", 0xF033, 0xF0FF⟩, ⟨"LoadFromRegs", 0xF055, 0xF0FF⟩, ⟨"LoadIntoRegs", 0xF065, 0xF0FF⟩]

/-- The row of R68 an operation stands in, by its name there. -/
def Instr.rowName : Instr → String
  | .sys _ => "Sys" | .clear => "Clear" | .ret => "Return" | .jump _ => "Jump" | .call _ => "Call"
  | .skipEqByte _ _ => "SkipEqByte" | .skipNotEqByte _ _ => "SkipNotEqByte"
  | .skipEqReg _ _ => "SkipEqReg" | .loadByte _ _ => "LoadByte" | .addByte _ _ => "AddByte"
  | .loadReg _ _ => "LoadReg" | .or _ _ => "Or" | .and _ _ => "And" | .xor _ _ => "Xor"
  | .add _ _ => "Add" | .sub _ _ => "Sub" | .shiftRight _ _ => "ShiftRight"
  | .subNeg _ _ => "SubNeg" | .shiftLeft _ _ => "ShiftLeft" | .skipNotEqReg _ _ => "SkipNotEqReg"
  | .loadPointer _ => "LoadPointer" | .jumpOffset _ => "JumpOffset" | .random _ _ => "Random"
  | .draw _ _ _ => "Draw" | .skipPressed _ => "SkipPressed" | .skipNotPressed _ => "SkipNotPressed"
  | .loadFromDT _ => "LoadFromDT" | .loadKeyboard _ => "LoadKeyboard" | .loadIntoDT _ => "LoadIntoDT"
  | .loadIntoST _ => "LoadIntoST" | .addToPointer _ => "AddToPointer" | .loadFont _ => "LoadFont"
  | .loadDigits _ => "LoadDigits" | .loadFromRegs _ => "LoadFromRegs" | .loadIntoRegs _ => "LoadIntoRegs"

/-! ### The host's reading of one table word -/

/-- The instruction the decoder reads from a word given as the table numbers its bits: one 16-bit word,
laid out big-endian (R54). -/
def decodeTableWord (nbits w : Nat) : Option Instr :=
  match decodeBytes Params.hardware.sysMode (bytesOfWord (BitVec.ofNat 16 (w % 2 ^ nbits))) with
  | .ok (i, _) => some i
  | .error _ => none

end Sys2Proof
end

