-- ==== Sys2Proof/Machine/Memory.lean ====
section
/-! DEFINITION. The 4096-byte memory (20_memory.md R45, R46) as a canonical list of the bytes that differ
from construction, and the address mask of R49. -/

namespace Sys2Proof.Machine

/-- The bytes that differ from what construction left, addresses strictly rising. -/
abbrev Memory := List Host.Cell

/-- What construction leaves at an address: FONT_ROM at 0x000-0x04F, zero elsewhere (R42, R50, R51). This
is what an unlisted address reads as. -/
def initialByte (p : Params) (a : Nat) : Byte := if h : a < 80 then p.fontRom[a] else 0

/-- Every memory byte address is reduced to 12 bits before the access (R49). -/
def maskAddr (a : Word) : Nat := (a &&& 0xFFF).toNat

/-- The byte at an address; `d` gives an unlisted address its byte. -/
def Memory.read (d : Nat → Byte) : Memory → Nat → Byte
  | [], a => d a
  | (k, c) :: m, a => if a = k then c else Memory.read d m a

/-- List a byte at an address below every address listed, unless it is what an unlisted address reads
as. -/
def Memory.put (d : Nat → Byte) (a : Nat) (b : Byte) (m : Memory) : Memory :=
  if b = d a then m else (a, b) :: m

/-- Set the byte at an address and no other (R57), keeping the canonical form. -/
def Memory.write (d : Nat → Byte) : Memory → Nat → Byte → Memory
  | [], a, b => Memory.put d a b []
  | (k, c) :: m, a, b =>
    if a < k then Memory.put d a b ((k, c) :: m)
    else if a = k then Memory.put d a b m
    else (k, c) :: Memory.write d m a b

/-- Set consecutive bytes from an address on. -/
def Memory.writeAll (d : Nat → Byte) : Memory → Nat → List Byte → Memory
  | m, _, [] => m
  | m, a, b :: bs => Memory.writeAll d (Memory.write d m a b) (a + 1) bs

/-- The canonical form from a lowest address on: addresses rise strictly, lie in the address space, and no
listed byte is what an unlisted address reads as. -/
def Memory.wfFrom (d : Nat → Byte) : Nat → Memory → Bool
  | _, [] => true
  | lo, (k, c) :: m => decide (lo ≤ k) && decide (k < memSize) && c != d k && Memory.wfFrom d (k + 1) m

/-- The canonical form. -/
def Memory.wf (d : Nat → Byte) (m : Memory) : Bool := Memory.wfFrom d 0 m

end Sys2Proof.Machine
end

