-- ==== Sys2Proof/Machine/State.lean ====
section
/-! DEFINITION. The state of the core (10_state.md), the reasons a step can stop, and the state after
construction (R42). -/

namespace Sys2Proof.Machine

/-- What a halt records: its kind and its info (R37, R147). CapacityExceeded is a failure of the load and
no run state (R151). -/
inductive Halt where
  /-- The fetched word matches no operation (R148). -/
  | decodeError (w : Word)
  /-- Return with an empty call stack (R149). -/
  | stackUnderflow
  /-- Call with STACK_DEPTH entries on the stack (R150). -/
  | stackOverflow
  deriving DecidableEq, Repr

/-- The run state (R37). -/
inductive RunState where
  | running
  /-- Blocked on a key for the target register x. -/
  | awaitingKey (x : Nibble)
  /-- Terminal (R90). -/
  | halted (h : Halt)
  deriving DecidableEq, Repr

/-- The wait registration kw (R36). -/
inductive KeyWait where
  | none
  | pending
  | delivered (k : Nibble)
  deriving DecidableEq, Repr

/-- What a tick returns to the tick driver: Ok with the tone, or Err with the halt (R84, R88, R89). -/
inductive TickResult where
  | ok (tone : Bool)
  | err (h : Halt)
  deriving DecidableEq, Repr

/-- A key event of the host: set_down(k) or set_up(k) (R127, R128, R161). -/
inductive KeyEvent where
  | setDown (k : Nibble)
  | setUp (k : Nibble)
  deriving DecidableEq, Repr

/-- Where the engine is in its life: the host loads once, after construction and before the first tick
(R171). -/
inductive Phase where
  | constructed
  | loaded
  | started
  deriving DecidableEq, Repr

/-- The display: its rows from top to bottom, each row its cells from left to right (R34). -/
abbrev Display := List (List Bool)

/-- The state of the engine. -/
structure State where
  /-- The engine's parameters (R8), fixed for its life; no operation writes them. DESIGN CHOICE of place,
  safe: assumption log 1. -/
  cfg : Params
  /-- V0..VF (R20). -/
  v : Vector Byte 16
  /-- The index register I (R24). -/
  i : Word
  /-- The program counter (R26). -/
  pc : Word
  /-- The call stack, the most recently pushed value first (R28). -/
  stack : List Word
  /-- The delay timer DT (R30). -/
  dt : Byte
  /-- The sound timer ST (R31). -/
  st : Byte
  /-- The memory (R33, R46). -/
  mem : Memory
  /-- The display (R34). -/
  disp : Display
  /-- KeyDown(k) for each key (R35). -/
  keys : Vector Bool 16
  /-- The wait registration (R36). -/
  kw : KeyWait
  /-- The run state (R37). -/
  run : RunState
  /-- Sub-steps of the current tick that have run (R84); 0 between ticks. -/
  subStepsDone : Nat
  /-- stalled_all of the current tick (R84); true between ticks. -/
  stalledAll : Bool
  /-- What the last tick returned, with the tone it reported (R32, R84). -/
  report : Option TickResult
  /-- The life-cycle position (R171). -/
  phase : Phase
  /-- The host's key events to come, one list for each sub-step boundary, the next first (R91). A free
  schedule. DESIGN CHOICE: assumption log 3. -/
  inbox : List (List KeyEvent)
  /-- How many bytes Random has drawn: the argument of the free value `Config.rand8` (R117). DESIGN
  CHOICE, safe: assumption log 4. -/
  draws : Nat
  deriving DecidableEq, Repr

/-- The machine stops with a fault. No instruction raises one: the spec's halts are run states. -/
inductive Fault where
  /-- Raised by the host's load of more than 3584 bytes: CapacityExceeded with the program length (R151,
  R173). Safe: no state follows, as the engine may not be run. -/
  | capacityExceeded (len : Nat)
  deriving DecidableEq, Repr

/-- No meaning. -/
inductive Refusal where
  /-- Raised by an arm of exec whose instruction has no meaning yet; none is left. Safe. -/
  | notModelled (mnemonic : String)
  /-- Raised by SkipPressed and SkipNotPressed when V[x] > 0xF under KEY_INDEX_MODE = Refuse, for which
  "the model gives the instruction no meaning" (R131); not this hardware's value. Safe. -/
  | keyIndexRefused
  /-- Raised by a load after ticks have run and by a second load: outside the modelled host interface
  (R171, K21). Safe. -/
  | loadOutsideWindow
  deriving DecidableEq, Repr

/-- Construction of an engine with the parameters `p`: every piece of state as in R42. -/
def State.construct (p : Params) : State where
  cfg := p
  v := Vector.replicate 16 0
  i := 0
  pc := BitVec.ofNat 16 progBase
  stack := []
  dt := 0
  st := 0
  mem := []
  disp := List.replicate p.displayH (List.replicate p.displayW false)
  keys := Vector.replicate 16 false
  kw := .none
  run := .running
  subStepsDone := 0
  stalledAll := true
  report := none
  phase := .constructed
  inbox := []
  draws := 0

/-- This hardware right after reset, which is construction (R169, R170). -/
def State.reset : State := State.construct Params.hardware

end Sys2Proof.Machine
end

