-- ==== Sys2Proof/Machine/Ops.lean ====
section
/-! DEFINITION. The named operations over registers, memory, the call stack, the display and the keys,
and the one exception mechanism: the halt. -/

namespace Sys2Proof.Machine

/-- A step that goes on, after a change of the state it went on to. -/
def onNext (f : State → State) : Host.Outcome State Fault Refusal → Host.Outcome State Fault Refusal
  | .next s => .next (f s)
  | .fault r => .fault r
  | .refused r => .refused r

/-! ### Registers (R12) -/

/-- `V[x]`. -/
def State.reg (s : State) (x : Nibble) : Byte := s.v[x.toNat]'x.isLt

/-- `V[x] <- b`. No register is hardwired (R20). -/
def State.setReg (s : State) (x : Nibble) (b : Byte) : State := { s with v := s.v.set x.toNat b x.isLt }

/-- `I <- w`. -/
def State.setI (s : State) (w : Word) : State := { s with i := w }

/-- `pc <- w`. -/
def State.setPc (s : State) (w : Word) : State := { s with pc := w }

/-- `DT <- b`. -/
def State.setDT (s : State) (b : Byte) : State := { s with dt := b }

/-- `ST <- b`. -/
def State.setST (s : State) (b : Byte) : State := { s with st := b }

/-- pc + 2 mod 2^16: the fetch advance and the skip advance (R27, R80). -/
def State.advance (s : State) : State := s.setPc (s.pc + 2)

/-! ### The call stack (R28) -/

/-- Replace the call stack. -/
def State.setStack (s : State) (l : List Word) : State := { s with stack := l }

/-! ### Memory (R13, R49) -/

/-- The byte at a memory address below 0x1000. -/
def State.byteAt (s : State) (a : Nat) : Byte := Memory.read (initialByte s.cfg) s.mem a

/-- `MemRead(a, 1)`: the byte at `a & 0xFFF`. -/
def State.memRead (s : State) (a : Word) : Byte := s.byteAt (maskAddr a)

/-- Set the byte at a memory address, whatever FONT_WRITE_PROTECT says: what the host's load does. -/
def State.poke (s : State) (a : Nat) (b : Byte) : State :=
  { s with mem := Memory.write (initialByte s.cfg) s.mem a b }

/-- Whether a store to this address changes nothing: below 0x200 under FONT_WRITE_PROTECT (R52). -/
def writeIgnored (p : Params) (a : Nat) : Bool := p.fontWriteProtect && decide (a < progBase)

/-- `MemWrite(a, 1, b)`: the byte at `a & 0xFFF` (R13, R52). -/
def State.memWrite (s : State) (a : Word) (b : Byte) : State :=
  if writeIgnored s.cfg (maskAddr a) then s else s.poke (maskAddr a) b

/-- The word at pc, big-endian, each byte's address masked on its own (R49, R54, R80). -/
def State.fetchWord (s : State) : Word := s.memRead s.pc ++ s.memRead (s.pc + 1)

/-! ### The display surface (R34, R119-R122) -/

/-- `Disp(cx, cy)`. -/
def Display.cell (g : Display) (cx cy : Nat) : Bool := (g.getD cy []).getD cx false

/-- `Disp(cx, cy) <- Disp(cx, cy) XOR 1`. -/
def Display.toggle (g : Display) (cx cy : Nat) : Display := g.modify cy fun row => row.modify cx not

/-- `clear()` (R119). -/
def Display.cleared (w h : Nat) : Display := List.replicate h (List.replicate w false)

/-- One bit of plot_sprite's inner loop: the collision so far and the grid, after column offset `b` of the
row byte at (ox, oy) (R120). -/
def plotBit (w h ox oy : Nat) (row : Byte) (acc : Bool × Display) (b : Nat) : Bool × Display :=
  if row.getLsbD (7 - b) then
    (acc.1 || acc.2.cell ((ox + b) % w) (oy % h), acc.2.toggle ((ox + b) % w) (oy % h))
  else acc

/-- plot_sprite's inner loop: one row byte, left to right (R120). -/
def plotRow (w h ox oy : Nat) (row : Byte) (acc : Bool × Display) : Bool × Display :=
  (List.range 8).foldl (plotBit w h ox oy row) acc

/-- plot_sprite's outer loop, from the row at `oy` on (R120). -/
def plotRows (w h ox : Nat) : Nat → List Byte → Bool × Display → Bool × Display
  | _, [], acc => acc
  | oy, row :: rows, acc => plotRows w h ox (oy + 1) rows (plotRow w h ox oy row acc)

/-- `plot_sprite(ox, oy, rows)`: the collision and the new grid (R120). -/
def plotSprite (w h ox oy : Nat) (rows : List Byte) (g : Display) : Bool × Display :=
  plotRows w h ox oy rows (false, g)

/-- Replace the display. -/
def State.setDisp (s : State) (g : Display) : State := { s with disp := g }

/-! ### The key input state (R126-R129) -/

/-- `is_down(k)` (R126). -/
def State.keyDown (s : State) (k : Nibble) : Bool := s.keys[k.toNat]'k.isLt

/-- `KeyDown(k) <- b`. -/
def State.setKey (s : State) (k : Nibble) (b : Bool) : State := { s with keys := s.keys.set k.toNat b k.isLt }

/-- Replace the wait registration. -/
def State.setKw (s : State) (w : KeyWait) : State := { s with kw := w }

/-- Replace the run state. -/
def State.setRun (s : State) (r : RunState) : State := { s with run := r }

/-- A pending registration takes the key; any other is left (R127, R130). -/
def KeyWait.deliver (w : KeyWait) (k : Nibble) : KeyWait :=
  match w with
  | .pending => .delivered k
  | .none => .none
  | .delivered j => .delivered j

/-- `set_down(k)` (R127). -/
def setDown (k : Nibble) (s : State) : State := (s.setKey k true).setKw (s.kw.deliver k)

/-- `set_up(k)` (R128). -/
def setUp (k : Nibble) (s : State) : State := s.setKey k false

/-- `register_wait()` (R129): a new registration supersedes any prior one. -/
def State.registerWait (s : State) : State := s.setKw .pending

/-! ### The free draw (R117) -/

/-- One more byte drawn. -/
def State.countDraw (s : State) : State := { s with draws := s.draws + 1 }

/-! ### The halt: the only exception mechanism (R146) -/

/-- `raise Halt(kind, info)`: the kind and info are recorded in the run state and nothing else changes
(R14, R152, R154). The tick ends in `afterSubStep`. There is no return from a halt (R155). -/
def takeHalt (h : Halt) (s : State) : Host.Outcome State Fault Refusal := .next (s.setRun (.halted h))

/-- The error kinds (R147). -/
inductive ErrorKind where
  | decodeError
  | stackUnderflow
  | stackOverflow
  | capacityExceeded
  deriving DecidableEq, Repr

/-- The numeric codes of the error kinds (R147, D19). -/
def ErrorKind.code : ErrorKind → Nat
  | .decodeError => 1
  | .stackUnderflow => 2
  | .stackOverflow => 3
  | .capacityExceeded => 4

/-- The kind of a halt (R147). -/
def Halt.kind : Halt → ErrorKind
  | .decodeError _ => .decodeError
  | .stackUnderflow => .stackUnderflow
  | .stackOverflow => .stackOverflow

/-- The info a halt records: the word of a DecodeError (R147). -/
def Halt.info : Halt → Option Word
  | .decodeError w => some w
  | .stackUnderflow => none
  | .stackOverflow => none

/-- The kind of a load failure (R147, R151). -/
def Fault.kind : Fault → ErrorKind
  | .capacityExceeded _ => .capacityExceeded

end Sys2Proof.Machine
end

