-- ==== Sys2Proof/Machine/Operands.lean ====
section
/-! DEFINITION. The operand forms of 30_encoding.md R65 and of the instructions that read an operand in a
way of their own: the shifts' source, the key tests, the block copies' bound. -/

namespace Sys2Proof.Machine

/-- nnn, zero-extended to 16 bits where it is written to pc or I (R65). -/
def zextAddr (nnn : Addr) : Word := nnn.setWidth 16

/-- A general register's value, zero-extended to 16 bits (R96, R116, R140). -/
def zextByte (b : Byte) : Word := b.setWidth 16

/-- The register a shift reads: V[x], or V[y] under SHIFT_SOURCE = Y (R113, R114). -/
def State.shiftOperand (s : State) (x y : Nibble) : Byte :=
  match s.cfg.shiftSource with
  | .x => s.reg x
  | .y => s.reg y

/-- How many registers LoadFromRegs and LoadIntoRegs copy: V0 to V[last(x)] (R144). -/
def blockCount (b : BlockCopyBound) (x : Nibble) : Nat :=
  match b with
  | .inclusive => x.toNat + 1
  | .exclusive => x.toNat

/-- `KeyTest(v)` (R131): the key state for v ≤ 0xF, and above it what KEY_INDEX_MODE says. `none` is the
value Refuse, under which the test has no meaning. -/
def State.keyTest (s : State) (v : Byte) : Option Bool :=
  if v.toNat ≤ 0xF then some (s.keyDown (v.setWidth 4))
  else match s.cfg.keyIndexMode with
    | .notPressed => some false
    | .lowNibble => some (s.keyDown (v.setWidth 4))
    | .refuse => none

/-- The n bytes from I on, each address `I + r` mod 2^16 and then masked (R124). -/
def State.spriteRows (s : State) (n : Nibble) : List Byte :=
  (List.range n.toNat).map fun r => s.memRead (s.i + BitVec.ofNat 16 r)

end Sys2Proof.Machine
end

