-- ==== Sys2Proof/Machine/ControlFlow.lean ====
section
/-! DEFINITION. 41_control_flow.md: Sys, Return, Jump, JumpOffset, Call and the four register skips. On
entry pc already holds the instruction's address plus 2 (R16). -/

namespace Sys2Proof.Machine

/-- A skip passes over the next 2 bytes when its condition holds (R98-R102). -/
def State.skipIf (s : State) (c : Bool) : State := if c then s.advance else s

/-- Sys (R93): no operation under SYS_MODE = Nop. Under DecodeError no word decodes to it, and the word it
would stand for halts. -/
def execSys (nnn : Addr) (s : State) : Host.Outcome State Fault Refusal :=
  match s.cfg.sysMode with
  | .nop => .next s
  | .decodeError => takeHalt (.decodeError (zextAddr nnn)) s

/-- Return (R94). -/
def execRet (s : State) : Host.Outcome State Fault Refusal :=
  match s.stack with
  | [] => takeHalt .stackUnderflow s
  | a :: rest => .next ((s.setPc a).setStack rest)

/-- Jump (R95). -/
def execJump (nnn : Addr) (s : State) : Host.Outcome State Fault Refusal :=
  .next (s.setPc (zextAddr nnn))

/-- JumpOffset (R96): always V0. -/
def execJumpOffset (nnn : Addr) (s : State) : Host.Outcome State Fault Refusal :=
  .next (s.setPc (zextAddr nnn + zextByte (s.reg 0)))

/-- Call (R97). -/
def execCall (nnn : Addr) (s : State) : Host.Outcome State Fault Refusal :=
  if s.cfg.stackDepth = some s.stack.length then takeHalt .stackOverflow s
  else .next ((s.setStack (s.pc :: s.stack)).setPc (zextAddr nnn))

/-- SkipEqByte (R98). -/
def execSkipEqByte (x : Nibble) (kk : Byte) (s : State) : Host.Outcome State Fault Refusal :=
  .next (s.skipIf (s.reg x == kk))

/-- SkipNotEqByte (R99). -/
def execSkipNotEqByte (x : Nibble) (kk : Byte) (s : State) : Host.Outcome State Fault Refusal :=
  .next (s.skipIf (s.reg x != kk))

/-- SkipEqReg (R100). -/
def execSkipEqReg (x y : Nibble) (s : State) : Host.Outcome State Fault Refusal :=
  .next (s.skipIf (s.reg x == s.reg y))

/-- SkipNotEqReg (R101). -/
def execSkipNotEqReg (x y : Nibble) (s : State) : Host.Outcome State Fault Refusal :=
  .next (s.skipIf (s.reg x != s.reg y))

end Sys2Proof.Machine
end

