-- ==== Sys2Proof/Machine/Flags.lean ====
section
/-! DEFINITION. The results and flags of the instructions that write VF as a flag, and the order of
their two writes (42_register_alu.md R103, R107-R109, R113, R114). -/

namespace Sys2Proof.Machine

/-- A flag as VF holds it: 1 or 0. -/
def flagByte (c : Bool) : Byte := if c then 1 else 0

/-- The result and the flag of an operation. -/
structure Flagged where
  result : Byte
  flag : Bool
  deriving DecidableEq, Repr

/-- Add: the 9-bit sum mod 2^8, and the carry (R107). -/
def addCarry (a b : Byte) : Flagged :=
  let s : BitVec 9 := a.setWidth 9 + b.setWidth 9
  ⟨s.setWidth 8, decide (s.toNat > 255)⟩

/-- a - b mod 2^8, and 1 when a >= b: "did not borrow" (R108; R109 with the operands exchanged). -/
def subNoBorrow (a b : Byte) : Flagged := ⟨a - b, decide (b.toNat ≤ a.toNat)⟩

/-- The right shift by 1 and the low bit shifted out (R113). -/
def shiftRightOut (s : Byte) : Flagged := ⟨s >>> 1, s.getLsbD 0⟩

/-- The left shift by 1 mod 2^8 and the high bit shifted out (R114). -/
def shiftLeftOut (s : Byte) : Flagged := ⟨s <<< 1, s.getLsbD 7⟩

/-- Write the result to V[x] and the flag to V[0xF] in the order of FLAG_ORDER (R103). -/
def State.writeFlagged (s : State) (x : Nibble) (r : Flagged) : State :=
  match s.cfg.flagOrder with
  | .flagLast => (s.setReg x r.result).setReg 0xF (flagByte r.flag)
  | .resultLast => (s.setReg 0xF (flagByte r.flag)).setReg x r.result

end Sys2Proof.Machine
end

