-- ==== Sys2Proof/Machine/DisplayOps.lean ====
section
/-! DEFINITION. 43_display.md: Clear and Draw. -/

namespace Sys2Proof.Machine

/-- Clear (R123). -/
def execClear (s : State) : Host.Outcome State Fault Refusal :=
  .next (s.setDisp (Display.cleared s.cfg.displayW s.cfg.displayH))

/-- What Draw plots: the collision and the new grid, from the state before any write (R124). -/
def State.drawn (s : State) (x y n : Nibble) : Bool × Display :=
  plotSprite s.cfg.displayW s.cfg.displayH (s.reg x).toNat (s.reg y).toNat (s.spriteRows n) s.disp

/-- Draw (R124): VF is the collision, on every Draw. -/
def execDraw (x y n : Nibble) (s : State) : Host.Outcome State Fault Refusal :=
  .next ((s.setDisp (s.drawn x y n).2).setReg 0xF (flagByte (s.drawn x y n).1))

end Sys2Proof.Machine
end

