-- ==== Sys2Proof/Machine/KeypadTimers.lean ====
section
/-! DEFINITION. 44_keypad_timers.md: the key tests, the timer instructions and LoadKeyboard. -/

namespace Sys2Proof.Machine

/-- SkipPressed (R132). Without a meaning only for V[x] > 0xF under KEY_INDEX_MODE = Refuse (R131). -/
def execSkipPressed (x : Nibble) (s : State) : Host.Outcome State Fault Refusal :=
  match s.keyTest (s.reg x) with
  | some down => .next (s.skipIf down)
  | none => .refused .keyIndexRefused

/-- SkipNotPressed (R133). Without a meaning only for V[x] > 0xF under KEY_INDEX_MODE = Refuse (R131). -/
def execSkipNotPressed (x : Nibble) (s : State) : Host.Outcome State Fault Refusal :=
  match s.keyTest (s.reg x) with
  | some down => .next (s.skipIf !down)
  | none => .refused .keyIndexRefused

/-- LoadFromDT (R135). -/
def execLoadFromDT (x : Nibble) (s : State) : Host.Outcome State Fault Refusal :=
  .next (s.setReg x s.dt)

/-- LoadIntoDT (R136). -/
def execLoadIntoDT (x : Nibble) (s : State) : Host.Outcome State Fault Refusal :=
  .next (s.setDT (s.reg x))

/-- LoadIntoST (R137). -/
def execLoadIntoST (x : Nibble) (s : State) : Host.Outcome State Fault Refusal :=
  .next (s.setST (s.reg x))

/-- LoadKeyboard (R138): V[x] is written later, when the key is taken (R139). -/
def execLoadKeyboard (x : Nibble) (s : State) : Host.Outcome State Fault Refusal :=
  .next (s.registerWait.setRun (.awaitingKey x))

end Sys2Proof.Machine
end

