-- ==== Sys2Proof/Machine/MemoryBlock.lean ====
section
/-! DEFINITION. 45_memory_block.md: LoadFont, LoadDigits and the block copies. I is unchanged by the last
three (R145). -/

namespace Sys2Proof.Machine

/-- LoadFont (R140): I <- V[x] * 5. -/
def execLoadFont (x : Nibble) (s : State) : Host.Outcome State Fault Refusal :=
  .next (s.setI (zextByte (s.reg x) * 5))

/-- `MemWrite(I + k, 1, b)`, with `I + k` mod 2^16 and then masked. -/
def State.storeAtI (s : State) (k : Nat) (b : Byte) : State := s.memWrite (s.i + BitVec.ofNat 16 k) b

/-- The hundreds, tens or ones of a byte (R141). -/
def decimalDigit (v : Byte) (k : Nat) : Byte :=
  match k with
  | 0 => BitVec.ofNat 8 (v.toNat / 100)
  | 1 => BitVec.ofNat 8 (v.toNat / 10 % 10)
  | _ => BitVec.ofNat 8 (v.toNat % 10)

/-- LoadDigits (R141): hundreds, tens, ones at I, I+1, I+2. -/
def execLoadDigits (x : Nibble) (s : State) : Host.Outcome State Fault Refusal :=
  .next (((s.storeAtI 0 (decimalDigit (s.reg x) 0)).storeAtI 1 (decimalDigit (s.reg x) 1)).storeAtI 2
    (decimalDigit (s.reg x) 2))

/-- `MemWrite(I + k, 1, V[k])`. -/
def State.storeReg (s : State) (k : Nat) : State := s.storeAtI k (s.reg (BitVec.ofNat 4 k))

/-- `V[k] <- MemRead(I + k, 1)`. -/
def State.loadReg (s : State) (k : Nat) : State :=
  s.setReg (BitVec.ofNat 4 k) (s.memRead (s.i + BitVec.ofNat 16 k))

/-- LoadFromRegs (R142): registers to memory, ascending. -/
def execLoadFromRegs (x : Nibble) (s : State) : Host.Outcome State Fault Refusal :=
  .next ((List.range (blockCount s.cfg.blockCopyBound x)).foldl State.storeReg s)

/-- LoadIntoRegs (R143): memory to registers, ascending. -/
def execLoadIntoRegs (x : Nibble) (s : State) : Host.Outcome State Fault Refusal :=
  .next ((List.range (blockCount s.cfg.blockCopyBound x)).foldl State.loadReg s)

end Sys2Proof.Machine
end

