-- ==== Sys2Proof/Machine/RegisterAlu.lean ====
section
/-! DEFINITION. 42_register_alu.md: register loads, arithmetic, logic, shifts and Random. Operands are read
before any result is written (R103). -/

namespace Sys2Proof.Machine

/-- LoadByte (R104). -/
def execLoadByte (x : Nibble) (kk : Byte) (s : State) : Host.Outcome State Fault Refusal :=
  .next (s.setReg x kk)

/-- LoadReg (R105). -/
def execLoadReg (x y : Nibble) (s : State) : Host.Outcome State Fault Refusal :=
  .next (s.setReg x (s.reg y))

/-- LoadPointer (R106). -/
def execLoadPointer (nnn : Addr) (s : State) : Host.Outcome State Fault Refusal :=
  .next (s.setI (zextAddr nnn))

/-- Add (R107). -/
def execAdd (x y : Nibble) (s : State) : Host.Outcome State Fault Refusal :=
  .next (s.writeFlagged x (addCarry (s.reg x) (s.reg y)))

/-- Sub (R108): V[x] - V[y]. -/
def execSub (x y : Nibble) (s : State) : Host.Outcome State Fault Refusal :=
  .next (s.writeFlagged x (subNoBorrow (s.reg x) (s.reg y)))

/-- SubNeg (R109): V[y] - V[x]. -/
def execSubNeg (x y : Nibble) (s : State) : Host.Outcome State Fault Refusal :=
  .next (s.writeFlagged x (subNoBorrow (s.reg y) (s.reg x)))

/-- Or (R110): no flag (D8). -/
def execOr (x y : Nibble) (s : State) : Host.Outcome State Fault Refusal :=
  .next (s.setReg x (s.reg x ||| s.reg y))

/-- And (R111): no flag (D8). -/
def execAnd (x y : Nibble) (s : State) : Host.Outcome State Fault Refusal :=
  .next (s.setReg x (s.reg x &&& s.reg y))

/-- Xor (R112): no flag (D8). -/
def execXor (x y : Nibble) (s : State) : Host.Outcome State Fault Refusal :=
  .next (s.setReg x (s.reg x ^^^ s.reg y))

/-- ShiftRight (R113). -/
def execShiftRight (x y : Nibble) (s : State) : Host.Outcome State Fault Refusal :=
  .next (s.writeFlagged x (shiftRightOut (s.shiftOperand x y)))

/-- ShiftLeft (R114). -/
def execShiftLeft (x y : Nibble) (s : State) : Host.Outcome State Fault Refusal :=
  .next (s.writeFlagged x (shiftLeftOut (s.shiftOperand x y)))

/-- AddByte (R115): no carry flag (D9). -/
def execAddByte (x : Nibble) (kk : Byte) (s : State) : Host.Outcome State Fault Refusal :=
  .next (s.setReg x (s.reg x + kk))

/-- AddToPointer (R116): no flag. -/
def execAddToPointer (x : Nibble) (s : State) : Host.Outcome State Fault Refusal :=
  .next (s.setI (s.i + zextByte (s.reg x)))

/-- Random (R117): a fresh free byte, masked by kk. -/
def execRandom (x : Nibble) (kk : Byte) (s : State) : Host.Outcome State Fault Refusal :=
  .next ((s.setReg x (Config.rand8 s.draws &&& kk)).countDraw)

end Sys2Proof.Machine
end

