-- ==== Sys2Proof/Machine/Dispatch.lean ====
section
/-! DEFINITION. The meaning of each operation, on a state whose pc is already past the instruction
(00_scope.md R16). -/

namespace Sys2Proof.Machine

def exec (i : Instr) (s : State) : Host.Outcome State Fault Refusal :=
  match i with
  | .sys nnn => Sys2Proof.Machine.execSys nnn s
  | .clear => Sys2Proof.Machine.execClear s
  | .ret => Sys2Proof.Machine.execRet s
  | .jump nnn => Sys2Proof.Machine.execJump nnn s
  | .call nnn => Sys2Proof.Machine.execCall nnn s
  | .skipEqByte x kk => Sys2Proof.Machine.execSkipEqByte x kk s
  | .skipNotEqByte x kk => Sys2Proof.Machine.execSkipNotEqByte x kk s
  | .skipEqReg x y => Sys2Proof.Machine.execSkipEqReg x y s
  | .loadByte x kk => Sys2Proof.Machine.execLoadByte x kk s
  | .addByte x kk => Sys2Proof.Machine.execAddByte x kk s
  | .loadReg x y => Sys2Proof.Machine.execLoadReg x y s
  | .or x y => Sys2Proof.Machine.execOr x y s
  | .and x y => Sys2Proof.Machine.execAnd x y s
  | .xor x y => Sys2Proof.Machine.execXor x y s
  | .add x y => Sys2Proof.Machine.execAdd x y s
  | .sub x y => Sys2Proof.Machine.execSub x y s
  | .shiftRight x y => Sys2Proof.Machine.execShiftRight x y s
  | .subNeg x y => Sys2Proof.Machine.execSubNeg x y s
  | .shiftLeft x y => Sys2Proof.Machine.execShiftLeft x y s
  | .skipNotEqReg x y => Sys2Proof.Machine.execSkipNotEqReg x y s
  | .loadPointer nnn => Sys2Proof.Machine.execLoadPointer nnn s
  | .jumpOffset nnn => Sys2Proof.Machine.execJumpOffset nnn s
  | .random x kk => Sys2Proof.Machine.execRandom x kk s
  | .draw x y n => Sys2Proof.Machine.execDraw x y n s
  | .skipPressed x => Sys2Proof.Machine.execSkipPressed x s
  | .skipNotPressed x => Sys2Proof.Machine.execSkipNotPressed x s
  | .loadFromDT x => Sys2Proof.Machine.execLoadFromDT x s
  | .loadKeyboard x => Sys2Proof.Machine.execLoadKeyboard x s
  | .loadIntoDT x => Sys2Proof.Machine.execLoadIntoDT x s
  | .loadIntoST x => Sys2Proof.Machine.execLoadIntoST x s
  | .addToPointer x => Sys2Proof.Machine.execAddToPointer x s
  | .loadFont x => Sys2Proof.Machine.execLoadFont x s
  | .loadDigits x => Sys2Proof.Machine.execLoadDigits x s
  | .loadFromRegs x => Sys2Proof.Machine.execLoadFromRegs x s
  | .loadIntoRegs x => Sys2Proof.Machine.execLoadIntoRegs x s

end Sys2Proof.Machine
end

