-- ==== Sys2Proof/Machine/Tick.lean ====
section
/-! DEFINITION. 40_execution_cycle.md: fetch and execute, the sub-step, the host's key events between
sub-steps, the end of a tick, one step of the machine, and the whole tick as R84 writes it. -/

namespace Sys2Proof.Machine

/-- FetchExecute (R80): fetch, then advance, then decode, then execute. -/
def fetchExecute (s : State) : Host.Outcome State Fault Refusal :=
  match decodeWord s.cfg.sysMode s.fetchWord with
  | .ok i => exec i s.advance
  | .error _ => takeHalt (.decodeError s.fetchWord) s.advance

/-- Taking a delivered key (R82, R139). -/
def takeKey (x k : Nibble) (s : State) : State :=
  ((s.setReg x (k.setWidth 8)).setKw .none).setRun .running

/-- SubStep() (R81, R82, R83). A wait whose registration is gone, which no reachable state has, stalls
(assumption log 8). -/
def subStep (s : State) : Host.Outcome State Fault Refusal :=
  match s.run, s.kw with
  | .running, _ => fetchExecute s
  | .awaitingKey x, .delivered k => fetchExecute (takeKey x k s)
  | .awaitingKey _, .pending => .next s
  | .awaitingKey _, .none => .next s
  | .halted _, _ => .next s

/-- Whether a sub-step of this state has the result Stalled (R82). -/
def State.stalls (s : State) : Bool :=
  match s.run, s.kw with
  | .awaitingKey _, .delivered _ => false
  | .awaitingKey _, .pending => true
  | .awaitingKey _, .none => true
  | .running, _ => false
  | .halted _, _ => false

/-! ### The host's key events (R91) -/

/-- One key event of the host (R127, R128). -/
def keyEvent (s : State) : KeyEvent → State
  | .setDown k => setDown k s
  | .setUp k => setUp k s

/-- Remove the key events due at this boundary from the schedule. -/
def State.setInbox (s : State) (l : List (List KeyEvent)) : State := { s with inbox := l }

/-- The key events due at this sub-step boundary, in order (R91; assumption log 3). -/
def deliverInbox (s : State) : State :=
  match s.inbox with
  | [] => s
  | evs :: rest => evs.foldl keyEvent (s.setInbox rest)

/-! ### The tick (R84-R90) -/

/-- `t > 0 ? t - 1 : 0` (R86). -/
def decayed (t : Byte) : Byte := if t = 0 then 0 else t - 1

/-- Set both timers. -/
def State.setTimers (s : State) (d t : Byte) : State := { s with dt := d, st := t }

/-- Leave the tick with a result: the loop's variables are as before a tick. -/
def State.leaveTick (s : State) (r : TickResult) : State :=
  { s with subStepsDone := 0, stalledAll := true, report := some r }

/-- The decay of both timers, once per tick (R86, R87). -/
def decayTimers (s : State) : State :=
  if s.cfg.decayWhenFullyStalled || !s.stalledAll then s.setTimers (decayed s.dt) (decayed s.st) else s

/-- The end of a tick that completes: the decay, then the tone report (R86, R88). -/
def endTick (s : State) : State :=
  (decayTimers s).leaveTick (.ok (decide (0 < (decayTimers s).st.toNat)))

/-- The end of a tick by a halt: no decay, no tone, Err (R89, R90). -/
def failTick (h : Halt) (s : State) : State := s.leaveTick (.err h)

/-- Count one sub-step of the tick, and whether it stalled (R84). -/
def State.countSubStep (s : State) (stalled : Bool) : State :=
  { s with subStepsDone := s.subStepsDone + 1, stalledAll := s.stalledAll && stalled }

/-- What follows a sub-step: a halt ends the tick at once (R89), and the SPEED-th sub-step completes it
(R84). -/
def afterSubStep (stalled : Bool) (t : State) : State :=
  match t.run with
  | .halted h => failTick h t
  | .running | .awaitingKey _ =>
    if t.subStepsDone + 1 < t.cfg.speed then t.countSubStep stalled else endTick (t.countSubStep stalled)

/-- The engine has started: no load from here on (R171). -/
def State.markStarted (s : State) : State := { s with phase := .started }

/-- The core's part of a step, after the key events: the next sub-step of the current tick, or of a new
one; with no sub-step left to run (SPEED = 0, R85) the tick ends. A tick called while Halted returns the
recorded error and changes nothing (R90). -/
def coreStep (s : State) : Host.Outcome State Fault Refusal :=
  match s.run with
  | .halted h => .next (failTick h s)
  | .running | .awaitingKey _ =>
    if s.subStepsDone < s.cfg.speed then
      onNext (afterSubStep s.stalls) (subStep s.markStarted)
    else .next (endTick s.markStarted)

/-- One step of the machine: the key events due, then the core (assumption log 2). -/
def machineStep (s : State) : Host.Outcome State Fault Refusal := coreStep (deliverInbox s)

/-- Tick()'s loop (R84) with `n` sub-steps still to run; the host's key events fall between two sub-steps
(R91). -/
def tickLoop : Nat → State → Host.Outcome State Fault Refusal
  | 0, s => .next (endTick s)
  | n + 1, s =>
    match subStep s with
    | .next t =>
      match t.run with
      | .halted h => .next (failTick h t)
      | .running | .awaitingKey _ =>
        if n = 0 then .next (endTick (t.countSubStep s.stalls))
        else tickLoop n (deliverInbox (t.countSubStep s.stalls))
    | .fault r => .fault r
    | .refused r => .refused r

/-- Tick() (R84), called between two ticks; the key events due before it come first. -/
def tick (s : State) : Host.Outcome State Fault Refusal :=
  match (deliverInbox s).run with
  | .halted h => .next (failTick h (deliverInbox s))
  | .running | .awaitingKey _ => tickLoop s.cfg.speed (deliverInbox s).markStarted

end Sys2Proof.Machine
end

