-- ==== Sys2Proof/Machine/HostMoves.lean ====
section
/-! DEFINITION. The host interface of 60_exceptions.md R161: what the host can do to the core besides letting
it step, and the placing of a program. -/

namespace Sys2Proof.Machine

/-- Set consecutive bytes of memory: what a load writes (R172). -/
def State.pokeAll (s : State) (a : Nat) (bs : List Byte) : State :=
  { s with mem := Memory.writeAll (initialByte s.cfg) s.mem a bs }

/-- The engine holds its program. -/
def State.markLoaded (s : State) : State := { s with phase := .loaded }

/-- load(bytes) (R171-R173): once, after construction and before the first tick; CapacityExceeded above
3584 bytes, with no byte written. -/
def load (bs : List Byte) (s : State) : Host.Outcome State Fault Refusal :=
  match s.phase with
  | .constructed =>
    if bs.length ≤ progCap then .next ((s.pokeAll progBase bs).markLoaded)
    else .fault (.capacityExceeded bs.length)
  | .loaded | .started => .refused .loadOutsideWindow

/-- read display (R161, R163): the whole grid of cells, and no change. -/
def readDisplay (s : State) : Display := s.disp

/-- The tone the last tick reported; none before the first tick completes, and none after a tick that ended
in a halt (R32, R42, R89). -/
def State.tone (s : State) : Option Bool :=
  match s.report with
  | some (.ok t) => some t
  | some (.err _) => none
  | none => none

/-- The host's moves (R161). "An action not in the table has no move in the model." -/
inductive HostMove where
  | construct
  | load (bs : List Byte)
  | tick
  | setDown (k : Nibble)
  | setUp (k : Nibble)
  | readDisplay
  deriving DecidableEq, Repr

/-- What a host move does to the engine (R161). A new engine takes every value of R42; the environment's schedule
of keys and its draws go on. -/
def hostMove (m : HostMove) (s : State) : Host.Outcome State Fault Refusal :=
  match m with
  | .construct => .next { State.construct s.cfg with inbox := s.inbox, draws := s.draws }
  | .load bs => load bs s
  | .tick => tick s
  | .setDown k => .next (setDown k s)
  | .setUp k => .next (setUp k s)
  | .readDisplay => .next s

/-- A core that fetches at its very next step: it is running, and the tick has a sub-step left. -/
def State.readyToFetch (s : State) : State :=
  { s with run := .running, kw := .none,
           subStepsDone := if s.subStepsDone < s.cfg.speed then s.subStepsDone else 0 }

/-- One instruction placed where the next fetch reads it, its high byte first (R54, R80). -/
def State.placeWord (s : State) (w : Word) : State :=
  (s.poke (maskAddr s.pc) (w.extractLsb' 8 8)).poke (maskAddr (s.pc + 1)) (w.extractLsb' 0 8)

end Sys2Proof.Machine
end

