-- ==== Sys2Proof/Machine/Step.lean ====
section
/-! DEFINITION. One step of the machine, and the placing of one instruction where a step fetches it. -/

namespace Sys2Proof.Machine

/-- One step: the host's key events due at this sub-step boundary, one sub-step, and the end of the tick when
it was the tick's last (40_execution_cycle.md R80-R91; assumption log 2). -/
def step (s : State) : Host.Outcome State Fault Refusal := machineStep s

/-- The word `w`, numbered as the opcode table numbers it, stored where the next step fetches; the core is
running and the tick has a sub-step left (assumption log 12). -/
def State.withFetchWord (s : State) (nbits w : Nat) : State :=
  s.readyToFetch.placeWord (BitVec.ofNat 16 (w % 2 ^ nbits))

end Sys2Proof.Machine
end

