-- ==== Sys2Proof/Safety.lean ====
section
/-! DEFINITION. The terms the claims use: the invariant of the engine, a safe engine, when a fetch halts, what
an instruction reads and writes, and which states a program cannot tell apart. -/

namespace Sys2Proof.Machine

/-- The display has the grid's dimensions (R34). -/
def State.DisplayShaped (s : State) : Prop :=
  s.disp.length = s.cfg.displayH ∧ ∀ row ∈ s.disp, row.length = s.cfg.displayW

/-- The memory is in its canonical form. -/
def State.MemoryCanonical (s : State) : Prop := Memory.wf (initialByte s.cfg) s.mem = true

/-- What holds of every engine, between any two steps. -/
structure State.Inv (s : State) : Prop where
  /-- The memory is in its canonical form. -/
  memory : s.MemoryCanonical
  /-- The display keeps its dimensions (R34). -/
  display : s.DisplayShaped
  /-- A registration exists exactly while the engine is AwaitingKey (R38, R82). -/
  wait : s.kw ≠ .none ↔ ∃ x, s.run = .awaitingKey x
  /-- The stack holds at most STACK_DEPTH entries (R29). -/
  depth : ∀ d, s.cfg.stackDepth = some d → s.stack.length ≤ d
  /-- A tick in progress has run fewer than SPEED sub-steps (R84). -/
  progress : s.subStepsDone = 0 ∨ s.subStepsDone < s.cfg.speed
  /-- Between ticks the loop's flag is as Tick() starts it (R84). -/
  between : s.subStepsDone = 0 → s.stalledAll = true
  /-- A halt ends its tick, and the tick returned exactly that error (R89, R90). -/
  halt : ∀ h, s.run = .halted h ↔ s.report = some (.err h)
  /-- A halted engine is between ticks (R89). -/
  haltBetween : ∀ h, s.run = .halted h → s.subStepsDone = 0
  /-- Before the first tick nothing has run and nothing was reported (R42, R171). -/
  fresh : s.phase ≠ .started → s.run = .running ∧ s.subStepsDone = 0 ∧ s.report = none

/-- A safe engine has not halted (R175). -/
def State.Safe (s : State) : Prop := ∀ h, s.run ≠ .halted h

/-- The illegal words, group by group, as R71 lists them. -/
def IllegalWord (m : SysMode) (w : Word) : Prop :=
  (fieldGroup w = 0x5 ∧ fieldN w ≠ 0) ∨
  (fieldGroup w = 0x8 ∧ fieldN w ∈ ([0x8, 0x9, 0xA, 0xB, 0xC, 0xD, 0xF] : List Nibble)) ∨
  (fieldGroup w = 0x9 ∧ fieldN w ≠ 0) ∨
  (fieldGroup w = 0xE ∧ fieldKK w ∉ ([0x9E, 0xA1] : List Byte)) ∨
  (fieldGroup w = 0xF ∧
    fieldKK w ∉ ([0x07, 0x0A, 0x15, 0x18, 0x1E, 0x29, 0x33, 0x55, 0x65] : List Byte)) ∨
  (m = .decodeError ∧ fieldGroup w = 0x0 ∧ w ≠ 0x00E0 ∧ w ≠ 0x00EE)

/-- Whether the decoder refuses a word. -/
def undecodable (m : SysMode) (w : Word) : Bool :=
  match decodeWord m w with
  | .ok _ => false
  | .error _ => true

/-- How many words of an opcode group the decoder refuses (R71's column "count"). -/
def illegalCount (m : SysMode) (g : Nat) : Nat :=
  (List.range 4096).countP fun k => undecodable m (BitVec.ofNat 16 (g * 4096 + k))

/-- The halt that FetchExecute raises in a state, if any: an illegal word, a Return with an empty stack, a
Call with STACK_DEPTH entries (R147-R150, R175). -/
def State.haltCause (s : State) : Option Halt :=
  match decodeWord s.cfg.sysMode s.fetchWord with
  | .error _ => some (.decodeError s.fetchWord)
  | .ok .ret => if s.stack = [] then some .stackUnderflow else none
  | .ok (.call _) => if s.cfg.stackDepth = some s.stack.length then some .stackOverflow else none
  | .ok _ => none

/-- R22's column "writes V": whether an operation writes V[r] when it executes. LoadKeyboard's V[x] is
written when the key is delivered. -/
def writesReg (p : Params) (i : Instr) (r : Nibble) : Prop :=
  match i with
  | .loadByte x _ | .random x _ | .loadReg x _ | .or x _ | .and x _ | .xor x _ | .addByte x _
  | .loadFromDT x => r = x
  | .add x _ | .sub x _ | .subNeg x _ | .shiftRight x _ | .shiftLeft x _ => r = x ∨ r = 0xF
  | .draw _ _ _ => r = 0xF
  | .loadIntoRegs x => r.toNat < blockCount p.blockCopyBound x
  | .sys _ | .clear | .ret | .jump _ | .call _ | .jumpOffset _ | .skipEqByte _ _ | .skipNotEqByte _ _
  | .skipEqReg _ _ | .skipNotEqReg _ _ | .loadPointer _ | .skipPressed _ | .skipNotPressed _
  | .loadKeyboard _ | .loadIntoDT _ | .loadIntoST _ | .addToPointer _ | .loadFont _ | .loadDigits _
  | .loadFromRegs _ => False

/-- R22's column "reads V": whether an operation reads V[r]. -/
def readsReg (p : Params) (i : Instr) (r : Nibble) : Prop :=
  match i with
  | .skipEqByte x _ | .skipNotEqByte x _ | .addByte x _ | .addToPointer x | .loadFont x | .loadIntoDT x
  | .loadIntoST x | .loadDigits x | .skipPressed x | .skipNotPressed x => r = x
  | .skipEqReg x y | .skipNotEqReg x y | .add x y | .sub x y | .subNeg x y | .or x y | .and x y
  | .xor x y | .draw x y _ => r = x ∨ r = y
  | .shiftRight x y | .shiftLeft x y => match p.shiftSource with | .x => r = x | .y => r = y
  | .jumpOffset _ => r = 0
  | .loadReg _ y => r = y
  | .loadFromRegs x => r.toNat < blockCount p.blockCopyBound x
  | .loadByte _ _ | .random _ _ | .loadFromDT _ | .loadKeyboard _ | .loadIntoRegs _ | .sys _ | .clear
  | .ret | .jump _ | .call _ | .loadPointer _ => False

/-- The result and the flag of an operation stand in `t` as FLAG_ORDER says (R103), and every other
register is as in `s`. -/
def WroteFlagged (s t : State) (x : Nibble) (result : Nat) (flag : Bool) : Prop :=
  (s.cfg.flagOrder = .flagLast →
    (t.reg 0xF = if flag then 1 else 0) ∧ (x ≠ 0xF → (t.reg x).toNat = result)) ∧
  (s.cfg.flagOrder = .resultLast →
    (t.reg x).toNat = result ∧ (x ≠ 0xF → t.reg 0xF = if flag then 1 else 0)) ∧
  ∀ r, r ≠ x → r ≠ 0xF → t.reg r = s.reg r

/-- A cell of the grid that a sprite of rows `rows` at (ox, oy) toggles: some set bit of some row falls on it
after wrapping (R120, R121). -/
def SpriteHits (w h ox oy : Nat) (rows : List Byte) (cx cy : Nat) : Prop :=
  ∃ r b, ∃ hr : r < rows.length, b < 8 ∧ rows[r].getLsbD (7 - b) = true ∧
    cx = (ox + b) % w ∧ cy = (oy + r) % h

/-- The cells that a sprite of rows `rows` at (ox, oy) toggles, one entry for each set bit, in the order of R120:
rows from the first, each from left to right, columns and rows taken modulo the grid. -/
def toggledCells (w h ox oy : Nat) (rows : List Byte) : List (Nat × Nat) :=
  (List.range rows.length).flatMap fun r =>
    ((List.range 8).filter fun b => (rows.getD r 0).getLsbD (7 - b)).map fun b => ((ox + b) % w, (oy + r) % h)

/-- Some toggle, taken one by one in the order of the list, turns a set cell clear: its cell, after the toggles
before it, is set (R120, R122). -/
def TurnsACellClear (g : Display) (cs : List (Nat × Nat)) : Prop :=
  ∃ k, ∃ hk : k < cs.length,
    (g.cell cs[k].1 cs[k].2 ^^ decide ((cs.take k).count cs[k] % 2 = 1)) = true

/-- `t` is what the end of a tick leaves of `w`, the state after the tick's last sub-step: both timers decremented
once, floored at 0, if the tick decays, and the tone reported after that (R86, R88); the tick is over and nothing
else has changed. -/
def TickEnded (decays : Bool) (w t : State) : Prop :=
  (decays = true → t.dt.toNat = w.dt.toNat - 1 ∧ t.st.toNat = w.st.toNat - 1) ∧
  (decays = false → t.dt = w.dt ∧ t.st = w.st) ∧
  t.tone = some (decide (0 < t.st.toNat)) ∧
  t = { w with dt := t.dt, st := t.st, subStepsDone := 0, stalledAll := true, report := t.report }

/-- `w` is what a sub-step leaves of `u` when it does not raise a refusal: the fetched instruction's effect in
Running, and in AwaitingKey with the key taken first (result Executed), or nothing while no key is delivered
(result Stalled) (R81, R82). -/
def SubStepRan (u w : State) (stalled : Bool) : Prop :=
  (stalled = false ∧ u.run = .running ∧ fetchExecute u = .next w) ∨
  (stalled = false ∧ ∃ x k, u.run = .awaitingKey x ∧ u.kw = .delivered k ∧
    fetchExecute { u.setReg x (k.setWidth 8) with kw := .none, run := .running } = .next w) ∨
  (stalled = true ∧ ∃ x, u.run = .awaitingKey x ∧ u.kw = .pending ∧ w = u)

/-- Two 16-bit values with the same low 12 bits (R25, R27). -/
def SameLow12 (a b : Word) : Prop := a &&& 0xFFF = b &&& 0xFFF

/-- Two states that differ at most in bits 15:12 of I, of pc and of the saved pcs: by R25 and R27 no
program can tell them apart. -/
structure SameButHighBits (s t : State) : Prop where
  i : SameLow12 s.i t.i
  pc : SameLow12 s.pc t.pc
  stack : List.Forall₂ SameLow12 s.stack t.stack
  rest : t = { s with i := t.i, pc := t.pc, stack := t.stack }

/-- Two outcomes of one kind, with the same reason or with next states related by `R`. -/
def OutcomesAgree (R : State → State → Prop) : (a b : Host.Outcome State Fault Refusal) → Prop
  | .next s, .next t => R s t
  | .fault p, .fault q => p = q
  | .refused p, .refused q => p = q
  | .next _, .fault _ | .next _, .refused _ | .fault _, .next _ | .fault _, .refused _
  | .refused _, .next _ | .refused _, .fault _ => False

end Sys2Proof.Machine
end

