-- ==== Sys2Proof/Certificates/Slice0/Obligations.lean ====
section
/-! DEFINITION. The statements about the model, from the numbered rules of spec/. They are proved elsewhere.
A result is stated as the next state exec answers, so each is its instruction's completion statement too; the
frame is the equation that names the fields which may differ. -/

open Sys2Proof Sys2Proof.Machine

/-! ### Encoding (30_encoding.md) -/

/-- 30_encoding.md section 4: every word that decodes is re-encoded; an operation's word decodes to it exactly
when it is not one of the exceptions; and the exceptions' words are Clear's and Return's. The spec marks these
laws as derived, and the exceptions' words as its decision D26. -/
def Obligations.EncodeDecodeRoundTrip : Prop :=
  (∀ m w, ∀ i : Instr, decodeWord m w = .ok i → encode i = w) ∧
  (∀ m, ∀ i : Instr, decodeWord m (encode i) = .ok i ↔ i.wf m = true) ∧
  (∀ nnn, (Instr.sys nnn).wf .nop = true ↔ nnn ≠ 0x0E0 ∧ nnn ≠ 0x0EE) ∧
  (∀ i : Instr, (∀ nnn, i ≠ .sys nnn) → i.wf .nop = true) ∧
  encode (.sys 0x0E0) = 0x00E0 ∧ decodeWord .nop 0x00E0 = .ok .clear ∧
  encode (.sys 0x0EE) = 0x00EE ∧ decodeWord .nop 0x00EE = .ok .ret

/-- 30_encoding.md sections 2 and 3: the decoder follows the opcode map; no two rows but group 0's overlap, and
there 00E0 and 00EE come first. The map and Sys are the spec's decisions D24 and D3 (assumption log 6). -/
def Obligations.DecodeFollowsOpcodeMap : Prop :=
  (∀ m w i, decodeWord m w = .ok i → ∃ r ∈ opcodeRows, r.name = i.rowName ∧ r.selects w = true) ∧
  (∀ w, ∀ r ∈ opcodeRows, r.selects w = true → ∃ i, decodeWord .nop w = .ok i) ∧
  (∀ w, ∀ r ∈ opcodeRows, ∀ r' ∈ opcodeRows, fieldGroup w ≠ 0 → r.selects w = true →
    r'.selects w = true → r = r') ∧
  decodeWord .nop 0x00E0 = .ok .clear ∧ decodeWord .nop 0x00EE = .ok .ret ∧
  ∀ w, fieldGroup w = 0 → w ≠ 0x00E0 → w ≠ 0x00EE → decodeWord .nop w = .ok (.sys (fieldNNN w))

/-- 30_encoding.md section 3: the illegal words are exactly those of its table, decoding one names it, executing
one halts with it, and their numbers are those of the table, which the spec marks as derived. -/
def Obligations.IllegalWordsAreThoseListed : Prop :=
  (∀ m w, decodeWord m w = .error (.unknownInstruction w) ↔ IllegalWord m w) ∧
  (∀ m w, ¬ IllegalWord m w → ∃ i, decodeWord m w = .ok i) ∧
  (∀ s : State, IllegalWord s.cfg.sysMode s.fetchWord →
    fetchExecute s = .next { s with pc := s.pc + 2, run := .halted (.decodeError s.fetchWord) }) ∧
  illegalCount .nop 0x5 = 3840 ∧ illegalCount .nop 0x8 = 1792 ∧ illegalCount .nop 0x9 = 3840 ∧
  illegalCount .nop 0xE = 4064 ∧ illegalCount .nop 0xF = 3952 ∧ illegalCount .decodeError 0x0 = 4094 ∧
  ((List.range 16).map (illegalCount .nop)).sum = 17488 ∧
  ((List.range 16).map (illegalCount .decodeError)).sum = 21582

/-- The patterns of the opcode map, field by field from the left, decode to their operations with every operand
where the pattern has its letter. The bit patterns are marked general knowledge by the spec (D24; assumption
log 6). -/
def Obligations.PatternsDecodeToTheirOperations : Prop :=
  ∀ (m : SysMode) (x y n : Nibble) (kk : Byte) (nnn : Addr),
    (decodeWord m ((0x1 : Nibble) ++ nnn) = .ok (.jump nnn) ∧
     decodeWord m ((0x2 : Nibble) ++ nnn) = .ok (.call nnn) ∧
     decodeWord m ((0xA : Nibble) ++ nnn) = .ok (.loadPointer nnn) ∧
     decodeWord m ((0xB : Nibble) ++ nnn) = .ok (.jumpOffset nnn)) ∧
    (decodeWord m ((0x3 : Nibble) ++ x ++ kk) = .ok (.skipEqByte x kk) ∧
     decodeWord m ((0x4 : Nibble) ++ x ++ kk) = .ok (.skipNotEqByte x kk) ∧
     decodeWord m ((0x6 : Nibble) ++ x ++ kk) = .ok (.loadByte x kk) ∧
     decodeWord m ((0x7 : Nibble) ++ x ++ kk) = .ok (.addByte x kk) ∧
     decodeWord m ((0xC : Nibble) ++ x ++ kk) = .ok (.random x kk)) ∧
    (decodeWord m ((0x5 : Nibble) ++ x ++ y ++ (0x0 : Nibble)) = .ok (.skipEqReg x y) ∧
     decodeWord m ((0x9 : Nibble) ++ x ++ y ++ (0x0 : Nibble)) = .ok (.skipNotEqReg x y) ∧
     decodeWord m ((0xD : Nibble) ++ x ++ y ++ n) = .ok (.draw x y n)) ∧
    (decodeWord m ((0x8 : Nibble) ++ x ++ y ++ (0x0 : Nibble)) = .ok (.loadReg x y) ∧
     decodeWord m ((0x8 : Nibble) ++ x ++ y ++ (0x1 : Nibble)) = .ok (.or x y) ∧
     decodeWord m ((0x8 : Nibble) ++ x ++ y ++ (0x2 : Nibble)) = .ok (.and x y) ∧
     decodeWord m ((0x8 : Nibble) ++ x ++ y ++ (0x3 : Nibble)) = .ok (.xor x y) ∧
     decodeWord m ((0x8 : Nibble) ++ x ++ y ++ (0x4 : Nibble)) = .ok (.add x y) ∧
     decodeWord m ((0x8 : Nibble) ++ x ++ y ++ (0x5 : Nibble)) = .ok (.sub x y) ∧
     decodeWord m ((0x8 : Nibble) ++ x ++ y ++ (0x6 : Nibble)) = .ok (.shiftRight x y) ∧
     decodeWord m ((0x8 : Nibble) ++ x ++ y ++ (0x7 : Nibble)) = .ok (.subNeg x y) ∧
     decodeWord m ((0x8 : Nibble) ++ x ++ y ++ (0xE : Nibble)) = .ok (.shiftLeft x y)) ∧
    (decodeWord m ((0xE : Nibble) ++ x ++ (0x9E : Byte)) = .ok (.skipPressed x) ∧
     decodeWord m ((0xE : Nibble) ++ x ++ (0xA1 : Byte)) = .ok (.skipNotPressed x)) ∧
    (decodeWord m ((0xF : Nibble) ++ x ++ (0x07 : Byte)) = .ok (.loadFromDT x) ∧
     decodeWord m ((0xF : Nibble) ++ x ++ (0x0A : Byte)) = .ok (.loadKeyboard x) ∧
     decodeWord m ((0xF : Nibble) ++ x ++ (0x15 : Byte)) = .ok (.loadIntoDT x) ∧
     decodeWord m ((0xF : Nibble) ++ x ++ (0x18 : Byte)) = .ok (.loadIntoST x) ∧
     decodeWord m ((0xF : Nibble) ++ x ++ (0x1E : Byte)) = .ok (.addToPointer x) ∧
     decodeWord m ((0xF : Nibble) ++ x ++ (0x29 : Byte)) = .ok (.loadFont x) ∧
     decodeWord m ((0xF : Nibble) ++ x ++ (0x33 : Byte)) = .ok (.loadDigits x) ∧
     decodeWord m ((0xF : Nibble) ++ x ++ (0x55 : Byte)) = .ok (.loadFromRegs x) ∧
     decodeWord m ((0xF : Nibble) ++ x ++ (0x65 : Byte)) = .ok (.loadIntoRegs x))

/-- Words written out from 30_encoding.md section 2 (D24, assumption log 6) decode to the operations they stand
for. -/
def Obligations.WrittenWordsDecode : Prop :=
  decodeWord .nop 0x2ABC = .ok (.call 0xABC) ∧
  decodeWord .nop 0x8126 = .ok (.shiftRight 0x1 0x2) ∧
  decodeWord .nop 0xD125 = .ok (.draw 0x1 0x2 0x5) ∧
  decodeWord .nop 0xE49E = .ok (.skipPressed 0x4) ∧
  decodeWord .nop 0xFF65 = .ok (.loadIntoRegs 0xF)

/-! ### Fetch and the sub-step (40_execution_cycle.md) -/

/-- 20_memory.md: the fetched word is big-endian, each byte's address reduced to 12 bits on its own; that the
mask covers pc + 1 is the spec's decision D10. -/
def Obligations.FetchIsBigEndianAndMasked : Prop :=
  ∀ s : State, s.fetchWord.toNat =
    256 * (s.byteAt (s.pc.toNat % 4096)).toNat + (s.byteAt ((s.pc.toNat + 1) % 4096)).toNat

/-- 40_execution_cycle.md sections 2 and 3; that a step is one sub-step with the key events before it is the
model's choice (assumption log 2, 3): a step of a running engine, with a sub-step of the tick left, is exec of
the decoded instruction on the state with pc advanced by 2, followed by the count of the sub-step; an illegal
word halts with pc advanced. FetchExecute by itself is that exec. -/
def Obligations.StepRunsTheDecodedInstruction : Prop :=
  (∀ (s : State) (i : Instr), decodeWord s.cfg.sysMode s.fetchWord = .ok i →
    fetchExecute s = exec i { s with pc := s.pc + 2 }) ∧
  ∀ s u : State, deliverInbox s = u → u.run = .running → u.subStepsDone < u.cfg.speed →
    (∀ i, decodeWord u.cfg.sysMode u.fetchWord = .ok i →
      step s = onNext (afterSubStep false) (exec i { u with phase := .started, pc := u.pc + 2 })) ∧
    (∀ e, decodeWord u.cfg.sysMode u.fetchWord = .error e →
      step s = .next { u with phase := .started, pc := u.pc + 2,
                              run := .halted (.decodeError u.fetchWord),
                              subStepsDone := 0, stalledAll := true,
                              report := some (.err (.decodeError u.fetchWord)) })

/-- 40_execution_cycle.md section 3, 44_keypad_timers.md section 4; that a step is one sub-step with the key
events before it is the model's choice (assumption log 2, 3): the sub-step that finds the key delivered writes it
to V[x], clears the registration, runs, and fetches and executes the next instruction in the same sub-step. -/
def Obligations.DeliveredKeyIsTakenAndFetchGoesOn : Prop :=
  ∀ (s u : State) (x k : Nibble), deliverInbox s = u → u.run = .awaitingKey x →
    u.kw = .delivered k → u.subStepsDone < u.cfg.speed →
    ∃ w : State, step s = onNext (afterSubStep false) (fetchExecute w) ∧
      (w.reg x).toNat = k.toNat ∧ (∀ r, r ≠ x → w.reg r = u.reg r) ∧
      w = { u with phase := .started, kw := .none, run := .running, v := w.v }

/-- 40_execution_cycle.md section 3; that a step is one sub-step with the key events before it is the model's
choice (assumption log 2, 3): while no key is delivered a step fetches nothing and leaves every register, pc, I,
memory, display, the stack, the keys and the wait as they are; only the tick goes on, and the timers can change
only at its end. -/
def Obligations.WaitingStepChangesOnlyTheTick : Prop :=
  ∀ (s u : State) (x : Nibble), deliverInbox s = u → u.run = .awaitingKey x → u.kw = .pending →
    ∃ t, step s = .next t ∧
      t = { u with phase := .started, dt := t.dt, st := t.st, subStepsDone := t.subStepsDone,
                   stalledAll := t.stalledAll, report := t.report } ∧
      (u.subStepsDone + 1 < u.cfg.speed → t.dt = u.dt ∧ t.st = u.st ∧ t.report = u.report ∧
        t.subStepsDone = u.subStepsDone + 1 ∧ t.stalledAll = u.stalledAll)

/-! ### Control flow (41_control_flow.md) -/

/-- 41_control_flow.md on Sys: it does nothing under SYS_MODE = Nop, and under DecodeError its words are illegal
(the spec's decision D3). -/
def Obligations.SysDoesNothing : Prop :=
  (∀ (nnn : Addr) (s : State), s.cfg.sysMode = .nop → exec (.sys nnn) s = .next s) ∧
  (∀ s : State, s.cfg.sysMode = .decodeError → fieldGroup s.fetchWord = 0 → s.fetchWord ≠ 0x00E0 →
    s.fetchWord ≠ 0x00EE →
    fetchExecute s = .next { s with pc := s.pc + 2, run := .halted (.decodeError s.fetchWord) })

/-- R94: Return pops the most recently pushed value into pc, and halts on an empty stack. -/
def Obligations.ReturnPopsOrHalts : Prop :=
  (∀ (s : State) (a : Word) (rest : List Word), s.stack = a :: rest →
    exec .ret s = .next { s with pc := a, stack := rest }) ∧
  (∀ s : State, s.stack = [] → exec .ret s = .next { s with run := .halted .stackUnderflow })

/-- R95: Jump goes to nnn, zero-extended, and nothing else changes. -/
def Obligations.JumpSetsOnlyPc : Prop :=
  ∀ (nnn : Addr) (s : State), ∃ t, exec (.jump nnn) s = .next t ∧ t.pc.toNat = nnn.toNat ∧
    t = { s with pc := t.pc }

/-- 41_control_flow.md on JumpOffset: pc becomes nnn + V0 and nothing else changes; that pc keeps the 16-bit
sum, beyond 0xFFF too, is the spec's decision D10. -/
def Obligations.JumpOffsetAddsV0 : Prop :=
  ∀ (nnn : Addr) (s : State), ∃ t, exec (.jumpOffset nnn) s = .next t ∧
    t.pc.toNat = nnn.toNat + (s.reg 0).toNat ∧ t = { s with pc := t.pc }

/-- 41_control_flow.md on Call: it pushes pc and goes to nnn, and halts with nothing pushed when the stack holds
STACK_DEPTH entries; unbounded, it never halts. The bound is the spec's decision D2. -/
def Obligations.CallPushesOrHalts : Prop :=
  ∀ (nnn : Addr) (s : State),
    (s.cfg.stackDepth ≠ some s.stack.length →
      exec (.call nnn) s = .next { s with stack := s.pc :: s.stack, pc := nnn.setWidth 16 }) ∧
    (s.cfg.stackDepth = some s.stack.length →
      exec (.call nnn) s = .next { s with run := .halted .stackOverflow })

/-- R98, R99: the byte skips add 2 to pc (mod 2^16) exactly when V[x] equals, or differs from, kk. -/
def Obligations.ByteSkipsMoveOnlyPc : Prop :=
  ∀ (x : Nibble) (kk : Byte) (s : State),
    (∃ t, exec (.skipEqByte x kk) s = .next t ∧ t = { s with pc := t.pc } ∧
      t.pc.toNat = (s.pc.toNat + if (s.reg x).toNat = kk.toNat then 2 else 0) % 65536) ∧
    (∃ t, exec (.skipNotEqByte x kk) s = .next t ∧ t = { s with pc := t.pc } ∧
      t.pc.toNat = (s.pc.toNat + if (s.reg x).toNat = kk.toNat then 0 else 2) % 65536)

/-- R100, R101: the register skips; with x = y the first always skips and the second never. -/
def Obligations.RegisterSkipsMoveOnlyPc : Prop :=
  ∀ (x y : Nibble) (s : State),
    (∃ t, exec (.skipEqReg x y) s = .next t ∧ t = { s with pc := t.pc } ∧
      t.pc.toNat = (s.pc.toNat + if (s.reg x).toNat = (s.reg y).toNat then 2 else 0) % 65536) ∧
    (∃ t, exec (.skipNotEqReg x y) s = .next t ∧ t = { s with pc := t.pc } ∧
      t.pc.toNat = (s.pc.toNat + if (s.reg x).toNat = (s.reg y).toNat then 0 else 2) % 65536) ∧
    exec (.skipEqReg x x) s = .next { s with pc := s.pc + 2 } ∧
    exec (.skipNotEqReg x x) s = .next s

/-! ### Register loads, arithmetic and logic (42_register_alu.md) -/

/-- R104, R105, R106: the loads write V[x] or I and nothing else. -/
def Obligations.LoadsWriteTheirDestination : Prop :=
  ∀ (x y : Nibble) (kk : Byte) (nnn : Addr) (s : State),
    (∃ t, exec (.loadByte x kk) s = .next t ∧ t = { s with v := t.v } ∧ t.reg x = kk ∧
      ∀ r, r ≠ x → t.reg r = s.reg r) ∧
    (∃ t, exec (.loadReg x y) s = .next t ∧ t = { s with v := t.v } ∧ t.reg x = s.reg y ∧
      ∀ r, r ≠ x → t.reg r = s.reg r) ∧
    (∃ t, exec (.loadPointer nnn) s = .next t ∧ t = { s with i := t.i } ∧ t.i.toNat = nnn.toNat)

/-- R107: Add leaves the sum mod 256 and the carry, in the order of FLAG_ORDER, and nothing else. -/
def Obligations.AddSetsSumAndCarry : Prop :=
  ∀ (x y : Nibble) (s : State), ∃ t, exec (.add x y) s = .next t ∧ t = { s with v := t.v } ∧
    WroteFlagged s t x (((s.reg x).toNat + (s.reg y).toNat) % 256)
      (decide ((s.reg x).toNat + (s.reg y).toNat > 255))

/-- R108: Sub leaves V[x] - V[y] mod 256, with the flag 1 when nothing was borrowed, in the order of
FLAG_ORDER. -/
def Obligations.SubSetsNoBorrow : Prop :=
  ∀ (x y : Nibble) (s : State), ∃ t, exec (.sub x y) s = .next t ∧ t = { s with v := t.v } ∧
    WroteFlagged s t x (((s.reg x).toNat + 256 - (s.reg y).toNat) % 256)
      (decide ((s.reg x).toNat ≥ (s.reg y).toNat))

/-- 42_register_alu.md on SubNeg: V[y] - V[x] mod 256, with the flag 1 when nothing was borrowed. That the
operands stand in this order is marked general knowledge by the spec. -/
def Obligations.SubNegSetsNoBorrow : Prop :=
  ∀ (x y : Nibble) (s : State), ∃ t, exec (.subNeg x y) s = .next t ∧ t = { s with v := t.v } ∧
    WroteFlagged s t x (((s.reg y).toNat + 256 - (s.reg x).toNat) % 256)
      (decide ((s.reg y).toNat ≥ (s.reg x).toNat))

/-- R113, R114: the shifts by one of V[x], or of V[y] under SHIFT_SOURCE = Y, with the bit shifted out as the
flag. -/
def Obligations.ShiftsSetTheBitShiftedOut : Prop :=
  ∀ (x y : Nibble) (s : State) (a : Nat),
    a = (if s.cfg.shiftSource = .x then s.reg x else s.reg y).toNat →
    (∃ t, exec (.shiftRight x y) s = .next t ∧ t = { s with v := t.v } ∧
      WroteFlagged s t x (a / 2) (decide (a % 2 = 1))) ∧
    (∃ t, exec (.shiftLeft x y) s = .next t ∧ t = { s with v := t.v } ∧
      WroteFlagged s t x (a * 2 % 256) (decide (a / 128 = 1)))

/-- 42_register_alu.md section 1, whose order is the spec's decision D7: at x = 0xF, where the result and the
flag meet in VF, VF ends holding the flag under FlagLast and the result under ResultLast; every other register is
as it was. -/
def Obligations.FlagOrderDecidesVF : Prop :=
  ∀ (y : Nibble) (s : State) (a b c : Nat), a = (s.reg 0xF).toNat → b = (s.reg y).toNat →
    c = (if s.cfg.shiftSource = .x then s.reg 0xF else s.reg y).toNat →
    ∃ t₁ t₂ t₃ t₄ t₅,
      exec (.add 0xF y) s = .next t₁ ∧ exec (.sub 0xF y) s = .next t₂ ∧
      exec (.subNeg 0xF y) s = .next t₃ ∧ exec (.shiftRight 0xF y) s = .next t₄ ∧
      exec (.shiftLeft 0xF y) s = .next t₅ ∧
      (s.cfg.flagOrder = .flagLast →
        (t₁.reg 0xF).toNat = (if a + b > 255 then 1 else 0) ∧
        (t₂.reg 0xF).toNat = (if a ≥ b then 1 else 0) ∧
        (t₃.reg 0xF).toNat = (if b ≥ a then 1 else 0) ∧
        (t₄.reg 0xF).toNat = c % 2 ∧ (t₅.reg 0xF).toNat = c / 128) ∧
      (s.cfg.flagOrder = .resultLast →
        (t₁.reg 0xF).toNat = (a + b) % 256 ∧ (t₂.reg 0xF).toNat = (a + 256 - b) % 256 ∧
        (t₃.reg 0xF).toNat = (b + 256 - a) % 256 ∧
        (t₄.reg 0xF).toNat = c / 2 ∧ (t₅.reg 0xF).toNat = c * 2 % 256) ∧
      ∀ t ∈ [t₁, t₂, t₃, t₄, t₅], ∀ r, r ≠ 0xF → t.reg r = s.reg r

/-- 42_register_alu.md section 4: the bitwise operations write V[x] bit by bit, and no flag (the spec's decision
D8). -/
def Obligations.LogicWritesOnlyVx : Prop :=
  ∀ (x y : Nibble) (s : State),
    (∃ t, exec (.or x y) s = .next t ∧ t = { s with v := t.v } ∧ (∀ r, r ≠ x → t.reg r = s.reg r) ∧
      ∀ b, (t.reg x).getLsbD b = ((s.reg x).getLsbD b || (s.reg y).getLsbD b)) ∧
    (∃ t, exec (.and x y) s = .next t ∧ t = { s with v := t.v } ∧ (∀ r, r ≠ x → t.reg r = s.reg r) ∧
      ∀ b, (t.reg x).getLsbD b = ((s.reg x).getLsbD b && (s.reg y).getLsbD b)) ∧
    (∃ t, exec (.xor x y) s = .next t ∧ t = { s with v := t.v } ∧ (∀ r, r ≠ x → t.reg r = s.reg r) ∧
      ∀ b, (t.reg x).getLsbD b = ((s.reg x).getLsbD b ^^ (s.reg y).getLsbD b))

/-- 42_register_alu.md on AddByte: V[x] becomes V[x] + kk mod 256 and nothing else changes; that there is no
carry flag is the spec's decision D9. -/
def Obligations.AddByteWrapsWithoutFlag : Prop :=
  ∀ (x : Nibble) (kk : Byte) (s : State), ∃ t, exec (.addByte x kk) s = .next t ∧ t = { s with v := t.v } ∧
    (t.reg x).toNat = ((s.reg x).toNat + kk.toNat) % 256 ∧ ∀ r, r ≠ x → t.reg r = s.reg r

/-- R116: AddToPointer adds V[x] to I mod 2^16 and writes no flag. -/
def Obligations.AddToPointerWraps : Prop :=
  ∀ (x : Nibble) (s : State), ∃ t, exec (.addToPointer x) s = .next t ∧ t = { s with i := t.i } ∧
    t.i.toNat = (s.i.toNat + (s.reg x).toNat) % 65536

/-- 42_register_alu.md section 7: Random writes a draw masked by kk, and each execution takes a new draw; kk = 0
always gives 0. That the draw is free is the spec's decision D20, and its form, `Config.rand8` at a counter, the
model's (assumption log 4). -/
def Obligations.RandomMasksAFreshDraw : Prop :=
  ∀ (x : Nibble) (kk : Byte) (s : State), ∃ t, exec (.random x kk) s = .next t ∧
    t.reg x = Config.rand8 s.draws &&& kk ∧ (∀ b, kk.getLsbD b = false → (t.reg x).getLsbD b = false) ∧
    (∀ r, r ≠ x → t.reg r = s.reg r) ∧ t = { s with v := t.v, draws := s.draws + 1 }

/-! ### The display (43_display.md) -/

/-- R119, R123: Clear makes every cell 0 and changes nothing else. -/
def Obligations.ClearEmptiesTheDisplay : Prop :=
  ∀ s : State, ∃ t, exec .clear s = .next t ∧ t = { s with disp := t.disp } ∧ t.DisplayShaped ∧
    ∀ cx cy, t.disp.cell cx cy = false

/-- 43_display.md: Draw toggles exactly the cells the sprite's set bits fall on after wrapping, and VF is 1
exactly when one of them was set. For a grid of at least 8 columns and 15 rows, on which no plot toggles a cell
twice. That n = 0 clears VF is marked derived by the spec. -/
def Obligations.DrawTogglesTheSpritesCells : Prop :=
  ∀ (x y n : Nibble) (s : State), s.DisplayShaped → 8 ≤ s.cfg.displayW → 15 ≤ s.cfg.displayH →
    ∀ rows : List Byte, rows.length = n.toNat →
      (∀ r, (h : r < rows.length) → rows[r] = s.byteAt ((s.i.toNat + r) % 4096)) →
      ∃ t, exec (.draw x y n) s = .next t ∧ t = { s with v := t.v, disp := t.disp } ∧
        (∀ r, r ≠ 0xF → t.reg r = s.reg r) ∧ t.DisplayShaped ∧
        (∀ cx cy, t.disp.cell cx cy = true ↔ (s.disp.cell cx cy = true ↔
          ¬ SpriteHits s.cfg.displayW s.cfg.displayH (s.reg x).toNat (s.reg y).toNat rows cx cy)) ∧
        (t.reg 0xF = 0 ∨ t.reg 0xF = 1) ∧
        (t.reg 0xF = 1 ↔ ∃ cx cy, s.disp.cell cx cy = true ∧
          SpriteHits s.cfg.displayW s.cfg.displayH (s.reg x).toNat (s.reg y).toNat rows cx cy)

/-- 43_display.md: Draw on a grid of any size, where a plot may toggle a cell twice. The display is the plot, each
cell what it was, exclusive or the parity of its toggles, and VF is 1 exactly when some toggle, taken one by one in
order, turned a set cell clear. On a grid without cells nothing is toggled and VF is 0, which is the model's choice
(assumption log 10). -/
def Obligations.DrawTogglesOneByOneOnAnyGrid : Prop :=
  ∀ (x y n : Nibble) (s : State) (w h : Nat) (rows : List Byte) (cs : List (Nat × Nat)), s.DisplayShaped →
    w = s.cfg.displayW → h = s.cfg.displayH → rows.length = n.toNat →
    (∀ r, (hr : r < rows.length) → rows[r] = s.byteAt ((s.i.toNat + r) % 4096)) →
    cs = toggledCells w h (s.reg x).toNat (s.reg y).toNat rows →
    ∃ t, exec (.draw x y n) s = .next t ∧ t = { s with v := t.v, disp := t.disp } ∧
      (∀ r, r ≠ 0xF → t.reg r = s.reg r) ∧ t.DisplayShaped ∧
      t.disp = (plotSprite w h (s.reg x).toNat (s.reg y).toNat rows s.disp).2 ∧
      (t.reg 0xF = 0 ∨ t.reg 0xF = 1) ∧
      (0 < w → 0 < h →
        (∀ cx cy, t.disp.cell cx cy = (s.disp.cell cx cy ^^ decide (cs.count (cx, cy) % 2 = 1))) ∧
        (t.reg 0xF = 1 ↔ TurnsACellClear s.disp cs)) ∧
      (w = 0 ∨ h = 0 → t.disp = s.disp ∧ t.reg 0xF = 0)

/-- 43_display.md section 1: on a grid of any size the toggles of a plot happen one by one: a cell ends as it
was, XOR the parity of the set bits that fall on it. -/
def Obligations.PlotTogglesByParity : Prop :=
  ∀ (w h ox oy : Nat) (rows : List Byte) (g : Display), 0 < w → 0 < h → g.length = h →
    (∀ row ∈ g, row.length = w) → ∀ cx cy,
    (plotSprite w h ox oy rows g).2.cell cx cy =
      (g.cell cx cy ^^ decide (((List.range rows.length).flatMap fun r =>
        (List.range 8).filter fun b => (rows.getD r 0).getLsbD (7 - b) &&
          cx == (ox + b) % w && cy == (oy + r) % h).length % 2 = 1))

/-- 43_display.md section 2, which the spec marks as derived: the same sprite drawn twice at one origin restores
the display; on an area empty before, the first draw reports no collision and the second one whenever the sprite
has a set bit. -/
def Obligations.DoubleDrawRestoresTheDisplay : Prop :=
  ∀ (x y n : Nibble) (s t u : State), s.DisplayShaped → 8 ≤ s.cfg.displayW → 15 ≤ s.cfg.displayH →
    x ≠ 0xF → y ≠ 0xF → exec (.draw x y n) s = .next t → exec (.draw x y n) t = .next u →
    u.disp = s.disp ∧
    ((∀ cx cy, s.disp.cell cx cy = false) →
      t.reg 0xF = 0 ∧
      (u.reg 0xF = 1 ↔ ∃ r b, r < n.toNat ∧ b < 8 ∧
        (s.byteAt ((s.i.toNat + r) % 4096)).getLsbD b = true))

/-! ### Keys and timers (44_keypad_timers.md) -/

/-- 44_keypad_timers.md sections 1 and 2: the key skips test the key V[x] names; above 0xF no key is down under
NotPressed, the low nibble counts under LowNibble, and under Refuse, and only there, the instruction has no
meaning. What happens above 0xF is the spec's decision D14. -/
def Obligations.KeySkipsTestTheNamedKey : Prop :=
  ∀ (x : Nibble) (s : State),
    (∀ down : Bool,
      ((s.reg x).toNat ≤ 15 ∧ down = s.keyDown ((s.reg x).setWidth 4)) ∨
      (15 < (s.reg x).toNat ∧ s.cfg.keyIndexMode = .notPressed ∧ down = false) ∨
      (15 < (s.reg x).toNat ∧ s.cfg.keyIndexMode = .lowNibble ∧
        down = s.keyDown ((s.reg x).setWidth 4)) →
      exec (.skipPressed x) s = .next { s with pc := if down then s.pc + 2 else s.pc } ∧
      exec (.skipNotPressed x) s = .next { s with pc := if down then s.pc else s.pc + 2 }) ∧
    (15 < (s.reg x).toNat → s.cfg.keyIndexMode = .refuse →
      exec (.skipPressed x) s = .refused .keyIndexRefused ∧
      exec (.skipNotPressed x) s = .refused .keyIndexRefused)

/-- R135, R136, R137: the timer instructions copy between a register and a timer, and change nothing else. -/
def Obligations.TimerInstructionsCopy : Prop :=
  ∀ (x : Nibble) (s : State),
    (∃ t, exec (.loadFromDT x) s = .next t ∧ t = { s with v := t.v } ∧ t.reg x = s.dt ∧
      ∀ r, r ≠ x → t.reg r = s.reg r) ∧
    exec (.loadIntoDT x) s = .next { s with dt := s.reg x } ∧
    exec (.loadIntoST x) s = .next { s with st := s.reg x }

/-- R138: LoadKeyboard registers a wait and blocks on x; V[x] and pc are as they were, and a key already down
is not delivered. -/
def Obligations.LoadKeyboardBlocks : Prop :=
  ∀ (x : Nibble) (s : State),
    exec (.loadKeyboard x) s = .next { s with kw := .pending, run := .awaitingKey x }

/-- 44_keypad_timers.md section 1: of any sequence of key events after a registration the first set_down delivers
its key, set_up never delivers or cancels, and each key is as its last event left it. That a key already down
delivers again is the spec's decision D15. The events due at a sub-step boundary are the first list of the
schedule, applied in its order, and that list is then gone; with none left nothing falls. That form of the spec's
free placement (D16) is the model's choice (assumption log 3, 18). -/
def Obligations.FirstKeyPressedIsDelivered : Prop :=
  (∀ s : State, s.inbox = [] → deliverInbox s = s) ∧
  (∀ (s : State) (evs : List KeyEvent) (rest : List (List KeyEvent)), s.inbox = evs :: rest →
    deliverInbox s = evs.foldl keyEvent { s with inbox := rest }) ∧
  ∀ (s : State) (evs : List KeyEvent),
    (s.kw = .pending → (evs.foldl keyEvent s).kw =
      match evs.findSome? (fun e => match e with | .setDown k => some k | .setUp _ => none) with
      | some k => .delivered k
      | none => .pending) ∧
    (s.kw ≠ .pending → (evs.foldl keyEvent s).kw = s.kw) ∧
    (∀ k, (evs.foldl keyEvent s).keyDown k =
      match evs.reverse.findSome? (fun e => match e with
        | .setDown j => if j = k then some true else none
        | .setUp j => if j = k then some false else none) with
      | some b => b
      | none => s.keyDown k) ∧
    evs.foldl keyEvent s =
      { s with keys := (evs.foldl keyEvent s).keys, kw := (evs.foldl keyEvent s).kw }

/-! ### Memory (20_memory.md, 45_memory_block.md) -/

/-- 20_memory.md sections 1 to 3: a read returns the byte last written there, and a write changes only that byte
(marked derived); under FONT_WRITE_PROTECT (the spec's decision D12) a write below 0x200 changes nothing. -/
def Obligations.MemoryReadsBackItsLastWrite : Prop :=
  ∀ (s : State) (a c : Word) (b : Byte), s.MemoryCanonical →
    ((s.cfg.fontWriteProtect = false ∨ 0x200 ≤ a.toNat % 4096) →
      (s.memWrite a b).memRead c = if c.toNat % 4096 = a.toNat % 4096 then b else s.memRead c) ∧
    (s.cfg.fontWriteProtect = true → a.toNat % 4096 < 0x200 → s.memWrite a b = s) ∧
    (s.memWrite a b).MemoryCanonical ∧ s.memWrite a b = { s with mem := (s.memWrite a b).mem }

/-- R140: LoadFont points I at V[x] * 5. -/
def Obligations.LoadFontPointsAtTheGlyph : Prop :=
  ∀ (x : Nibble) (s : State), ∃ t, exec (.loadFont x) s = .next t ∧ t = { s with i := t.i } ∧
    t.i.toNat = (s.reg x).toNat * 5

/-- 45_memory_block.md on LoadDigits: it stores the hundreds, tens and ones of V[x] at I, I+1, I+2, masked byte by
byte; every other byte of memory, and I (the spec's decision D5), are as they were. -/
def Obligations.LoadDigitsStoresThreeDigits : Prop :=
  ∀ (x : Nibble) (s : State), s.MemoryCanonical →
    ∃ t, exec (.loadDigits x) s = .next t ∧ t = { s with mem := t.mem } ∧
      (∀ k, k < 3 → writeIgnored s.cfg ((s.i.toNat + k) % 4096) = false →
        (t.byteAt ((s.i.toNat + k) % 4096)).toNat =
          if k = 0 then (s.reg x).toNat / 100 else if k = 1 then (s.reg x).toNat / 10 % 10
          else (s.reg x).toNat % 10) ∧
      (∀ a, (∀ k, k < 3 → a = (s.i.toNat + k) % 4096 → writeIgnored s.cfg a = true) →
        t.byteAt a = s.byteAt a)

/-- 45_memory_block.md on LoadFromRegs: it stores V0..V[last(x)] at I.., masked byte by byte; every other byte of
memory, and I, are as they were. The bound and the unchanged I are the spec's decisions D4 and D5. -/
def Obligations.LoadFromRegsStoresTheBlock : Prop :=
  ∀ (x : Nibble) (s : State) (count : Nat), s.MemoryCanonical →
    count = (if s.cfg.blockCopyBound = .inclusive then x.toNat + 1 else x.toNat) →
    ∃ t, exec (.loadFromRegs x) s = .next t ∧ t = { s with mem := t.mem } ∧
      (∀ r : Nibble, r.toNat < count → writeIgnored s.cfg ((s.i.toNat + r.toNat) % 4096) = false →
        t.byteAt ((s.i.toNat + r.toNat) % 4096) = s.reg r) ∧
      (∀ a, (∀ k, k < count → a = (s.i.toNat + k) % 4096 → writeIgnored s.cfg a = true) →
        t.byteAt a = s.byteAt a)

/-- 45_memory_block.md on LoadIntoRegs: it loads V0..V[last(x)] from I..; the other registers, I and memory are as
they were. The bound and the unchanged I are the spec's decisions D4 and D5. -/
def Obligations.LoadIntoRegsLoadsTheBlock : Prop :=
  ∀ (x : Nibble) (s : State) (count : Nat),
    count = (if s.cfg.blockCopyBound = .inclusive then x.toNat + 1 else x.toNat) →
    ∃ t, exec (.loadIntoRegs x) s = .next t ∧ t = { s with v := t.v } ∧
      ∀ r : Nibble, t.reg r =
        if r.toNat < count then s.byteAt ((s.i.toNat + r.toNat) % 4096) else s.reg r

/-- 20_memory.md section 4, which the spec marks as derived: a byte stored by LoadFromRegs at pc is in the word
of the very next fetch. -/
def Obligations.NextFetchSeesTheStore : Prop :=
  ∀ (x : Nibble) (s t : State), s.MemoryCanonical → s.cfg.blockCopyBound = .inclusive → x ≠ 0 →
    s.i = s.pc → (s.cfg.fontWriteProtect = false ∨ 0x200 ≤ s.pc.toNat ∧ s.pc.toNat < 0xFFF) →
    exec (.loadFromRegs x) s = .next t →
    t.fetchWord = s.reg 0 ++ s.reg 1

/-- 20_memory.md section 2, the spec's decision D12: under FONT_WRITE_PROTECT no step changes a byte below
0x200. -/
def Obligations.ProtectedRegionNeverChanges : Prop :=
  ∀ s t : State, s.cfg.fontWriteProtect = true → step s = .next t →
    ∀ a, a < 0x200 → t.byteAt a = s.byteAt a

/-! ### Halts (60_exceptions.md) -/

/-- 60_exceptions.md sections 1 and 2, where precision is marked derived: a step of a running engine halts
exactly when its fetched word is illegal, or is a Return on an empty stack, or a Call on a full one; then pc is
past the instruction, the halt is recorded and reported, the tick is over, and nothing else has changed. -/
def Obligations.HaltsArePrecise : Prop :=
  ∀ s u t : State, deliverInbox s = u → u.run = .running → u.subStepsDone < u.cfg.speed →
    step s = .next t →
    ∀ h, (t.run = .halted h ↔ u.haltCause = some h) ∧
      (t.run = .halted h →
        t = { u with phase := .started, pc := u.pc + 2, run := .halted h, subStepsDone := 0,
                     stalledAll := true, report := some (.err h) })

/-- 40_execution_cycle.md section 4, the spec's decision D18, in the model's steps (assumption log 13, 14): Halted
is absorbing: whatever the host does with the keys, every later step changes only
the key state, and reports the same error. -/
def Obligations.HaltedIsAbsorbing : Prop :=
  ∀ (n : Nat) (s t : State) (h : Halt), s.Inv → s.run = .halted h →
    Sys2Proof.core.run n s = .next t → t = { s with keys := t.keys, inbox := t.inbox }

/-- 60_exceptions.md section 1: the codes of the error kinds, the spec's decision D19. -/
def Obligations.ErrorCodesAsListed : Prop :=
  (∀ w, (Halt.decodeError w).kind.code = 1 ∧ (Halt.decodeError w).info = some w) ∧
  Halt.stackUnderflow.kind.code = 2 ∧ Halt.stackUnderflow.info = none ∧
  Halt.stackOverflow.kind.code = 3 ∧ Halt.stackOverflow.info = none ∧
  ∀ n, (Fault.capacityExceeded n).kind.code = 4

/-! ### The tick (40_execution_cycle.md R84-R90) -/

/-- 40_execution_cycle.md section 4, whose decay rule is the spec's decision D1: the end of a tick decrements each
timer once, floored at 0, in every tick unless DECAY_WHEN_FULLY_STALLED is false and every sub-step stalled; it then
reports the tone. A step whose sub-step is the SPEED-th of its tick and does not halt ends the tick so, whether the
engine was running, took a key or waited, and so does the step of a tick without a sub-step left (SPEED = 0; log
20). A step before that counts its sub-step and whether every one so far stalled, and adds nothing else. That a step
is one sub-step, with the end of the tick in the last one, is the model's choice (assumption log 2, 3, 22). -/
def Obligations.TickEndDecaysOnceAndReportsTheTone : Prop :=
  (∀ s : State, TickEnded (s.cfg.decayWhenFullyStalled || !s.stalledAll) s (endTick s)) ∧
  (∀ (s u w : State) (stalled : Bool), deliverInbox s = u → u.subStepsDone + 1 = u.cfg.speed →
    SubStepRan { u with phase := .started } w stalled → w.Safe →
    ∃ t, step s = .next t ∧
      TickEnded (u.cfg.decayWhenFullyStalled || !(u.stalledAll && stalled)) w t) ∧
  (∀ (s u w : State) (stalled : Bool), deliverInbox s = u → u.subStepsDone + 1 < u.cfg.speed →
    SubStepRan { u with phase := .started } w stalled → w.Safe →
    step s = .next { w with subStepsDone := u.subStepsDone + 1, stalledAll := u.stalledAll && stalled }) ∧
  (∀ s u : State, deliverInbox s = u → u.cfg.speed ≤ u.subStepsDone → u.Safe →
    ∃ t, step s = .next t ∧
      TickEnded (u.cfg.decayWhenFullyStalled || !u.stalledAll) { u with phase := .started } t)

/-- 40_execution_cycle.md section 4, in the model's steps (assumption log 2, 3, 13, 20): Tick() as the spec writes
it is SPEED steps of the machine from a tick boundary, or as many as run until an instruction halts; a tick of
SPEED = 0, or of a halted engine, is one step. -/
def Obligations.TickIsItsSteps : Prop :=
  ∀ s t : State, s.subStepsDone = 0 → s.stalledAll = true → tick s = .next t →
    ∃ k, 1 ≤ k ∧ k ≤ max 1 s.cfg.speed ∧ Sys2Proof.core.run k s = .next t ∧
      (t.Safe → k = max 1 s.cfg.speed)

/-- 70_reset_and_hazards.md section 3, marked derived, in the model's steps (assumption log 2): an instruction
leaves both timers alone, except LoadIntoDT's DT and LoadIntoST's ST; a step that does not end its tick changes
them no further. -/
def Obligations.TimersChangeOnlyAtTickEnds : Prop :=
  (∀ (i : Instr) (s t : State), exec i s = .next t →
    (t.dt ≠ s.dt → ∃ x, i = .loadIntoDT x) ∧ (t.st ≠ s.st → ∃ x, i = .loadIntoST x)) ∧
  (∀ s u t : State, deliverInbox s = u → u.run = .running → step s = .next t →
    u.subStepsDone + 1 < u.cfg.speed →
    (t.dt ≠ u.dt → ∃ x, decodeWord u.cfg.sysMode u.fetchWord = .ok (.loadIntoDT x)) ∧
    (t.st ≠ u.st → ∃ x, decodeWord u.cfg.sysMode u.fetchWord = .ok (.loadIntoST x)))

/-! ### The whole machine -/

/-- The invariant holds after construction, with any parameters; the values of the tick's and the life cycle's
variables are the model's choice (assumption log 7). -/
def Obligations.InvHoldsAtConstruction : Prop :=
  (∀ p : Params, (State.construct p).Inv) ∧ State.reset.Inv

/-- Every step from a state that meets the invariant gives a state that meets it; the parameters are fixed for
the engine's life (the spec's decision D22; assumption log 1). -/
def Obligations.StepKeepsInv : Prop :=
  ∀ s t : State, s.Inv → step s = .next t → t.Inv ∧ t.cfg = s.cfg

/-- Every instruction completes or halts in a next state, and every step does, unless a key test meets a
register above 0xF under KEY_INDEX_MODE = Refuse: no access faults (R49), and no instruction traps. -/
def Obligations.EveryInstructionGoesOn : Prop :=
  (∀ (i : Instr) (s : State), s.cfg.keyIndexMode ≠ .refuse → ∃ t, exec i s = .next t) ∧
  (∀ s : State, s.cfg.keyIndexMode ≠ .refuse → ∃ t, step s = .next t) ∧
  (∀ (i : Instr) (s : State) (f : Fault), exec i s ≠ .fault f) ∧
  (∀ (i : Instr) (s : State) (r : Refusal), exec i s = .refused r →
    r = .keyIndexRefused ∧ ∃ x, (i = .skipPressed x ∨ i = .skipNotPressed x) ∧ 15 < (s.reg x).toNat)

/-- 10_state.md section 1, whose table the spec marks as derived: an operation writes only the registers of its
row, and its effect depends only on the registers it reads: changing any other register changes nothing but that
register. -/
def Obligations.RegisterAccessTable : Prop :=
  ∀ (i : Instr) (s t : State) (r : Nibble), exec i s = .next t →
    (¬ writesReg s.cfg i r → t.reg r = s.reg r) ∧
    (¬ readsReg s.cfg i r → ∀ b : Byte, ∃ t', exec i (s.setReg r b) = .next t' ∧
      t' = { t with v := t'.v } ∧ (∀ q, q ≠ r → t'.reg q = t.reg q) ∧
      (writesReg s.cfg i r → t'.reg r = t.reg r))

/-- 10_state.md, who writes each piece of state: which instructions can change I, the stack, the display, memory,
the wait and the run state; none changes the keys, the parameters or the life cycle. -/
def Obligations.WhoChangesWhat : Prop :=
  ∀ (i : Instr) (s t : State), exec i s = .next t →
    (t.i ≠ s.i → (∃ nnn, i = .loadPointer nnn) ∨ (∃ x, i = .addToPointer x) ∨ ∃ x, i = .loadFont x) ∧
    (t.stack ≠ s.stack → i = .ret ∨ ∃ nnn, i = .call nnn) ∧
    (t.disp ≠ s.disp → i = .clear ∨ ∃ x y n, i = .draw x y n) ∧
    (t.mem ≠ s.mem → (∃ x, i = .loadDigits x) ∨ ∃ x, i = .loadFromRegs x) ∧
    (t.kw ≠ s.kw → ∃ x, i = .loadKeyboard x) ∧
    (∀ x, t.run = .awaitingKey x → s.run ≠ .awaitingKey x → i = .loadKeyboard x) ∧
    (∀ h, t.run = .halted h → s.run ≠ .halted h →
      i = .ret ∨ (∃ nnn, i = .call nnn) ∨ (s.cfg.sysMode = .decodeError ∧ ∃ nnn, i = .sys nnn)) ∧
    (t.draws ≠ s.draws → ∃ x kk, i = .random x kk) ∧
    t.keys = s.keys ∧ t.cfg = s.cfg ∧ t.phase = s.phase ∧ t.inbox = s.inbox ∧ t.report = s.report ∧
    t.subStepsDone = s.subStepsDone ∧ t.stalledAll = s.stalledAll

/-- 10_state.md sections 2 and 3, marked derived: bits 15:12 of I, of pc and of the saved pcs cannot be observed:
from two states that differ in them at most, a step gives outcomes that differ in them at most. -/
def Obligations.HighBitsAreUnobservable : Prop :=
  ∀ s s' : State, SameButHighBits s s' → OutcomesAgree SameButHighBits (step s) (step s')

/-! ### Reset, load and the host (70_reset_and_hazards.md, 60_exceptions.md) -/

/-- 10_state.md section 9 and 20_memory.md section 2: what construction leaves; this hardware's font and
parameters. Some of these values are the spec's decisions (D17, D13, D2). -/
def Obligations.ConstructionLeavesResetValues : Prop :=
  (∀ (p : Params) (s : State), State.construct p = s →
    (∀ r, s.reg r = 0) ∧ s.pc = 0x0200 ∧ s.i = 0 ∧ s.dt = 0 ∧ s.st = 0 ∧ s.stack = [] ∧
    (∀ a, (h : a < 80) → s.byteAt a = p.fontRom[a]) ∧ (∀ a, 80 ≤ a → a < 4096 → s.byteAt a = 0) ∧
    s.DisplayShaped ∧ (∀ cx cy, s.disp.cell cx cy = false) ∧ (∀ k, s.keyDown k = false) ∧
    s.kw = .none ∧ s.run = .running ∧ s.tone = none ∧ s.cfg = p) ∧
  (State.reset.byteAt 0x032).toNat = 0xF0 ∧ (State.reset.byteAt 0x04F).toNat = 0x80 ∧
  State.reset.cfg.speed = 10 ∧ State.reset.cfg.stackDepth = some 16

/-- 70_reset_and_hazards.md section 2: a load of at most 3584 bytes on a fresh engine copies them from 0x200 on,
and every other byte of memory, and every other piece of state but the life cycle, is as it was. That there is one
load, before the first tick, is the spec's decision D29; the life cycle that keeps it (assumption log 15) and the
canonical form of memory (assumption log 5) are the model's. -/
def Obligations.LoadCopiesTheProgram : Prop :=
  ∀ (bs : List Byte) (s : State), s.MemoryCanonical → s.phase = .constructed → bs.length ≤ 3584 →
    ∃ t, load bs s = .next t ∧ t = { s with mem := t.mem, phase := .loaded } ∧ t.MemoryCanonical ∧
      (∀ k, (h : k < bs.length) → t.byteAt (0x200 + k) = bs[k]) ∧
      (∀ a, a < 0x200 ∨ 0x200 + bs.length ≤ a → t.byteAt a = s.byteAt a)

/-- 70_reset_and_hazards.md and the spec's decision D29: a longer load fails with CapacityExceeded; a late or
second load has no move (assumption log 15). -/
def Obligations.OtherLoadsStop : Prop :=
  ∀ (bs : List Byte) (s : State),
    (s.phase = .constructed → 3584 < bs.length → load bs s = .fault (.capacityExceeded bs.length)) ∧
    (s.phase ≠ .constructed → load bs s = .refused .loadOutsideWindow)

/-- R127, R128: set_down sets its key and delivers it to a pending registration, set_up clears its key and leaves
the registration; neither touches anything else. R161, R162, R163: the host's display read changes nothing and shows
every cell, in the model's form of that read (assumption log 21). -/
def Obligations.HostTouchesOnlyTheKeys : Prop :=
  ∀ (k : Nibble) (s : State),
    (∃ t, hostMove (.setDown k) s = .next t ∧ t.keyDown k = true ∧ (∀ j, j ≠ k → t.keyDown j = s.keyDown j) ∧
      (s.kw = .pending → t.kw = .delivered k) ∧ (s.kw ≠ .pending → t.kw = s.kw) ∧
      t = { s with keys := t.keys, kw := t.kw }) ∧
    (∃ t, hostMove (.setUp k) s = .next t ∧ t.keyDown k = false ∧
      (∀ j, j ≠ k → t.keyDown j = s.keyDown j) ∧ t = { s with keys := t.keys }) ∧
    hostMove .readDisplay s = .next s ∧
    ∀ cx cy, ((readDisplay s).getD cy []).getD cx false = s.disp.cell cx cy
end

