-- ==== Sys2Proof/Laws/State.lean ====
section
/-! SUPPORT. Each named update of the state, field by field and reader by reader: every lemma is true by rfl,
so that no proof unfolds a record update. -/

namespace Sys2Proof.Machine.State

variable (s : State)

/-! ### setReg -/

@[simp] theorem setReg_cfg (x : Nibble) (b : Byte) : (s.setReg x b).cfg = s.cfg := rfl
@[simp] theorem setReg_v (x : Nibble) (b : Byte) : (s.setReg x b).v = s.v.set x.toNat b x.isLt := rfl
@[simp] theorem setReg_i (x : Nibble) (b : Byte) : (s.setReg x b).i = s.i := rfl
@[simp] theorem setReg_pc (x : Nibble) (b : Byte) : (s.setReg x b).pc = s.pc := rfl
@[simp] theorem setReg_stack (x : Nibble) (b : Byte) : (s.setReg x b).stack = s.stack := rfl
@[simp] theorem setReg_dt (x : Nibble) (b : Byte) : (s.setReg x b).dt = s.dt := rfl
@[simp] theorem setReg_st (x : Nibble) (b : Byte) : (s.setReg x b).st = s.st := rfl
@[simp] theorem setReg_mem (x : Nibble) (b : Byte) : (s.setReg x b).mem = s.mem := rfl
@[simp] theorem setReg_disp (x : Nibble) (b : Byte) : (s.setReg x b).disp = s.disp := rfl
@[simp] theorem setReg_keys (x : Nibble) (b : Byte) : (s.setReg x b).keys = s.keys := rfl
@[simp] theorem setReg_kw (x : Nibble) (b : Byte) : (s.setReg x b).kw = s.kw := rfl
@[simp] theorem setReg_run (x : Nibble) (b : Byte) : (s.setReg x b).run = s.run := rfl
@[simp] theorem setReg_subStepsDone (x : Nibble) (b : Byte) : (s.setReg x b).subStepsDone = s.subStepsDone := rfl
@[simp] theorem setReg_stalledAll (x : Nibble) (b : Byte) : (s.setReg x b).stalledAll = s.stalledAll := rfl
@[simp] theorem setReg_report (x : Nibble) (b : Byte) : (s.setReg x b).report = s.report := rfl
@[simp] theorem setReg_phase (x : Nibble) (b : Byte) : (s.setReg x b).phase = s.phase := rfl
@[simp] theorem setReg_inbox (x : Nibble) (b : Byte) : (s.setReg x b).inbox = s.inbox := rfl
@[simp] theorem setReg_draws (x : Nibble) (b : Byte) : (s.setReg x b).draws = s.draws := rfl
@[simp] theorem setReg_keyDown (x : Nibble) (b : Byte) (q : Nibble) : (s.setReg x b).keyDown q = s.keyDown q := rfl
@[simp] theorem setReg_byteAt (x : Nibble) (b : Byte) (q : Nat) : (s.setReg x b).byteAt q = s.byteAt q := rfl
@[simp] theorem setReg_memRead (x : Nibble) (b : Byte) (q : Word) : (s.setReg x b).memRead q = s.memRead q := rfl
@[simp] theorem setReg_fetchWord (x : Nibble) (b : Byte) : (s.setReg x b).fetchWord = s.fetchWord := rfl

/-! ### setI -/

@[simp] theorem setI_cfg (w : Word) : (s.setI w).cfg = s.cfg := rfl
@[simp] theorem setI_v (w : Word) : (s.setI w).v = s.v := rfl
@[simp] theorem setI_i (w : Word) : (s.setI w).i = w := rfl
@[simp] theorem setI_pc (w : Word) : (s.setI w).pc = s.pc := rfl
@[simp] theorem setI_stack (w : Word) : (s.setI w).stack = s.stack := rfl
@[simp] theorem setI_dt (w : Word) : (s.setI w).dt = s.dt := rfl
@[simp] theorem setI_st (w : Word) : (s.setI w).st = s.st := rfl
@[simp] theorem setI_mem (w : Word) : (s.setI w).mem = s.mem := rfl
@[simp] theorem setI_disp (w : Word) : (s.setI w).disp = s.disp := rfl
@[simp] theorem setI_keys (w : Word) : (s.setI w).keys = s.keys := rfl
@[simp] theorem setI_kw (w : Word) : (s.setI w).kw = s.kw := rfl
@[simp] theorem setI_run (w : Word) : (s.setI w).run = s.run := rfl
@[simp] theorem setI_subStepsDone (w : Word) : (s.setI w).subStepsDone = s.subStepsDone := rfl
@[simp] theorem setI_stalledAll (w : Word) : (s.setI w).stalledAll = s.stalledAll := rfl
@[simp] theorem setI_report (w : Word) : (s.setI w).report = s.report := rfl
@[simp] theorem setI_phase (w : Word) : (s.setI w).phase = s.phase := rfl
@[simp] theorem setI_inbox (w : Word) : (s.setI w).inbox = s.inbox := rfl
@[simp] theorem setI_draws (w : Word) : (s.setI w).draws = s.draws := rfl
@[simp] theorem setI_reg (w : Word) (q : Nibble) : (s.setI w).reg q = s.reg q := rfl
@[simp] theorem setI_keyDown (w : Word) (q : Nibble) : (s.setI w).keyDown q = s.keyDown q := rfl
@[simp] theorem setI_byteAt (w : Word) (q : Nat) : (s.setI w).byteAt q = s.byteAt q := rfl
@[simp] theorem setI_memRead (w : Word) (q : Word) : (s.setI w).memRead q = s.memRead q := rfl
@[simp] theorem setI_fetchWord (w : Word) : (s.setI w).fetchWord = s.fetchWord := rfl

/-! ### setPc -/

@[simp] theorem setPc_cfg (w : Word) : (s.setPc w).cfg = s.cfg := rfl
@[simp] theorem setPc_v (w : Word) : (s.setPc w).v = s.v := rfl
@[simp] theorem setPc_i (w : Word) : (s.setPc w).i = s.i := rfl
@[simp] theorem setPc_pc (w : Word) : (s.setPc w).pc = w := rfl
@[simp] theorem setPc_stack (w : Word) : (s.setPc w).stack = s.stack := rfl
@[simp] theorem setPc_dt (w : Word) : (s.setPc w).dt = s.dt := rfl
@[simp] theorem setPc_st (w : Word) : (s.setPc w).st = s.st := rfl
@[simp] theorem setPc_mem (w : Word) : (s.setPc w).mem = s.mem := rfl
@[simp] theorem setPc_disp (w : Word) : (s.setPc w).disp = s.disp := rfl
@[simp] theorem setPc_keys (w : Word) : (s.setPc w).keys = s.keys := rfl
@[simp] theorem setPc_kw (w : Word) : (s.setPc w).kw = s.kw := rfl
@[simp] theorem setPc_run (w : Word) : (s.setPc w).run = s.run := rfl
@[simp] theorem setPc_subStepsDone (w : Word) : (s.setPc w).subStepsDone = s.subStepsDone := rfl
@[simp] theorem setPc_stalledAll (w : Word) : (s.setPc w).stalledAll = s.stalledAll := rfl
@[simp] theorem setPc_report (w : Word) : (s.setPc w).report = s.report := rfl
@[simp] theorem setPc_phase (w : Word) : (s.setPc w).phase = s.phase := rfl
@[simp] theorem setPc_inbox (w : Word) : (s.setPc w).inbox = s.inbox := rfl
@[simp] theorem setPc_draws (w : Word) : (s.setPc w).draws = s.draws := rfl
@[simp] theorem setPc_reg (w : Word) (q : Nibble) : (s.setPc w).reg q = s.reg q := rfl
@[simp] theorem setPc_keyDown (w : Word) (q : Nibble) : (s.setPc w).keyDown q = s.keyDown q := rfl
@[simp] theorem setPc_byteAt (w : Word) (q : Nat) : (s.setPc w).byteAt q = s.byteAt q := rfl
@[simp] theorem setPc_memRead (w : Word) (q : Word) : (s.setPc w).memRead q = s.memRead q := rfl

/-! ### advance -/

@[simp] theorem advance_cfg : s.advance.cfg = s.cfg := rfl
@[simp] theorem advance_v : s.advance.v = s.v := rfl
@[simp] theorem advance_i : s.advance.i = s.i := rfl
@[simp] theorem advance_pc : s.advance.pc = s.pc + 2 := rfl
@[simp] theorem advance_stack : s.advance.stack = s.stack := rfl
@[simp] theorem advance_dt : s.advance.dt = s.dt := rfl
@[simp] theorem advance_st : s.advance.st = s.st := rfl
@[simp] theorem advance_mem : s.advance.mem = s.mem := rfl
@[simp] theorem advance_disp : s.advance.disp = s.disp := rfl
@[simp] theorem advance_keys : s.advance.keys = s.keys := rfl
@[simp] theorem advance_kw : s.advance.kw = s.kw := rfl
@[simp] theorem advance_run : s.advance.run = s.run := rfl
@[simp] theorem advance_subStepsDone : s.advance.subStepsDone = s.subStepsDone := rfl
@[simp] theorem advance_stalledAll : s.advance.stalledAll = s.stalledAll := rfl
@[simp] theorem advance_report : s.advance.report = s.report := rfl
@[simp] theorem advance_phase : s.advance.phase = s.phase := rfl
@[simp] theorem advance_inbox : s.advance.inbox = s.inbox := rfl
@[simp] theorem advance_draws : s.advance.draws = s.draws := rfl
@[simp] theorem advance_reg (q : Nibble) : s.advance.reg q = s.reg q := rfl
@[simp] theorem advance_keyDown (q : Nibble) : s.advance.keyDown q = s.keyDown q := rfl
@[simp] theorem advance_byteAt (q : Nat) : s.advance.byteAt q = s.byteAt q := rfl
@[simp] theorem advance_memRead (q : Word) : s.advance.memRead q = s.memRead q := rfl

/-! ### setDT -/

@[simp] theorem setDT_cfg (b : Byte) : (s.setDT b).cfg = s.cfg := rfl
@[simp] theorem setDT_v (b : Byte) : (s.setDT b).v = s.v := rfl
@[simp] theorem setDT_i (b : Byte) : (s.setDT b).i = s.i := rfl
@[simp] theorem setDT_pc (b : Byte) : (s.setDT b).pc = s.pc := rfl
@[simp] theorem setDT_stack (b : Byte) : (s.setDT b).stack = s.stack := rfl
@[simp] theorem setDT_dt (b : Byte) : (s.setDT b).dt = b := rfl
@[simp] theorem setDT_st (b : Byte) : (s.setDT b).st = s.st := rfl
@[simp] theorem setDT_mem (b : Byte) : (s.setDT b).mem = s.mem := rfl
@[simp] theorem setDT_disp (b : Byte) : (s.setDT b).disp = s.disp := rfl
@[simp] theorem setDT_keys (b : Byte) : (s.setDT b).keys = s.keys := rfl
@[simp] theorem setDT_kw (b : Byte) : (s.setDT b).kw = s.kw := rfl
@[simp] theorem setDT_run (b : Byte) : (s.setDT b).run = s.run := rfl
@[simp] theorem setDT_subStepsDone (b : Byte) : (s.setDT b).subStepsDone = s.subStepsDone := rfl
@[simp] theorem setDT_stalledAll (b : Byte) : (s.setDT b).stalledAll = s.stalledAll := rfl
@[simp] theorem setDT_report (b : Byte) : (s.setDT b).report = s.report := rfl
@[simp] theorem setDT_phase (b : Byte) : (s.setDT b).phase = s.phase := rfl
@[simp] theorem setDT_inbox (b : Byte) : (s.setDT b).inbox = s.inbox := rfl
@[simp] theorem setDT_draws (b : Byte) : (s.setDT b).draws = s.draws := rfl
@[simp] theorem setDT_reg (b : Byte) (q : Nibble) : (s.setDT b).reg q = s.reg q := rfl
@[simp] theorem setDT_keyDown (b : Byte) (q : Nibble) : (s.setDT b).keyDown q = s.keyDown q := rfl
@[simp] theorem setDT_byteAt (b : Byte) (q : Nat) : (s.setDT b).byteAt q = s.byteAt q := rfl
@[simp] theorem setDT_memRead (b : Byte) (q : Word) : (s.setDT b).memRead q = s.memRead q := rfl
@[simp] theorem setDT_fetchWord (b : Byte) : (s.setDT b).fetchWord = s.fetchWord := rfl

/-! ### setST -/

@[simp] theorem setST_cfg (b : Byte) : (s.setST b).cfg = s.cfg := rfl
@[simp] theorem setST_v (b : Byte) : (s.setST b).v = s.v := rfl
@[simp] theorem setST_i (b : Byte) : (s.setST b).i = s.i := rfl
@[simp] theorem setST_pc (b : Byte) : (s.setST b).pc = s.pc := rfl
@[simp] theorem setST_stack (b : Byte) : (s.setST b).stack = s.stack := rfl
@[simp] theorem setST_dt (b : Byte) : (s.setST b).dt = s.dt := rfl
@[simp] theorem setST_st (b : Byte) : (s.setST b).st = b := rfl
@[simp] theorem setST_mem (b : Byte) : (s.setST b).mem = s.mem := rfl
@[simp] theorem setST_disp (b : Byte) : (s.setST b).disp = s.disp := rfl
@[simp] theorem setST_keys (b : Byte) : (s.setST b).keys = s.keys := rfl
@[simp] theorem setST_kw (b : Byte) : (s.setST b).kw = s.kw := rfl
@[simp] theorem setST_run (b : Byte) : (s.setST b).run = s.run := rfl
@[simp] theorem setST_subStepsDone (b : Byte) : (s.setST b).subStepsDone = s.subStepsDone := rfl
@[simp] theorem setST_stalledAll (b : Byte) : (s.setST b).stalledAll = s.stalledAll := rfl
@[simp] theorem setST_report (b : Byte) : (s.setST b).report = s.report := rfl
@[simp] theorem setST_phase (b : Byte) : (s.setST b).phase = s.phase := rfl
@[simp] theorem setST_inbox (b : Byte) : (s.setST b).inbox = s.inbox := rfl
@[simp] theorem setST_draws (b : Byte) : (s.setST b).draws = s.draws := rfl
@[simp] theorem setST_reg (b : Byte) (q : Nibble) : (s.setST b).reg q = s.reg q := rfl
@[simp] theorem setST_keyDown (b : Byte) (q : Nibble) : (s.setST b).keyDown q = s.keyDown q := rfl
@[simp] theorem setST_byteAt (b : Byte) (q : Nat) : (s.setST b).byteAt q = s.byteAt q := rfl
@[simp] theorem setST_memRead (b : Byte) (q : Word) : (s.setST b).memRead q = s.memRead q := rfl
@[simp] theorem setST_fetchWord (b : Byte) : (s.setST b).fetchWord = s.fetchWord := rfl

/-! ### setTimers -/

@[simp] theorem setTimers_cfg (d t : Byte) : (s.setTimers d t).cfg = s.cfg := rfl
@[simp] theorem setTimers_v (d t : Byte) : (s.setTimers d t).v = s.v := rfl
@[simp] theorem setTimers_i (d t : Byte) : (s.setTimers d t).i = s.i := rfl
@[simp] theorem setTimers_pc (d t : Byte) : (s.setTimers d t).pc = s.pc := rfl
@[simp] theorem setTimers_stack (d t : Byte) : (s.setTimers d t).stack = s.stack := rfl
@[simp] theorem setTimers_dt (d t : Byte) : (s.setTimers d t).dt = d := rfl
@[simp] theorem setTimers_st (d t : Byte) : (s.setTimers d t).st = t := rfl
@[simp] theorem setTimers_mem (d t : Byte) : (s.setTimers d t).mem = s.mem := rfl
@[simp] theorem setTimers_disp (d t : Byte) : (s.setTimers d t).disp = s.disp := rfl
@[simp] theorem setTimers_keys (d t : Byte) : (s.setTimers d t).keys = s.keys := rfl
@[simp] theorem setTimers_kw (d t : Byte) : (s.setTimers d t).kw = s.kw := rfl
@[simp] theorem setTimers_run (d t : Byte) : (s.setTimers d t).run = s.run := rfl
@[simp] theorem setTimers_subStepsDone (d t : Byte) : (s.setTimers d t).subStepsDone = s.subStepsDone := rfl
@[simp] theorem setTimers_stalledAll (d t : Byte) : (s.setTimers d t).stalledAll = s.stalledAll := rfl
@[simp] theorem setTimers_report (d t : Byte) : (s.setTimers d t).report = s.report := rfl
@[simp] theorem setTimers_phase (d t : Byte) : (s.setTimers d t).phase = s.phase := rfl
@[simp] theorem setTimers_inbox (d t : Byte) : (s.setTimers d t).inbox = s.inbox := rfl
@[simp] theorem setTimers_draws (d t : Byte) : (s.setTimers d t).draws = s.draws := rfl
@[simp] theorem setTimers_reg (d t : Byte) (q : Nibble) : (s.setTimers d t).reg q = s.reg q := rfl
@[simp] theorem setTimers_keyDown (d t : Byte) (q : Nibble) : (s.setTimers d t).keyDown q = s.keyDown q := rfl
@[simp] theorem setTimers_byteAt (d t : Byte) (q : Nat) : (s.setTimers d t).byteAt q = s.byteAt q := rfl
@[simp] theorem setTimers_memRead (d t : Byte) (q : Word) : (s.setTimers d t).memRead q = s.memRead q := rfl
@[simp] theorem setTimers_fetchWord (d t : Byte) : (s.setTimers d t).fetchWord = s.fetchWord := rfl

/-! ### setStack -/

@[simp] theorem setStack_cfg (l : List Word) : (s.setStack l).cfg = s.cfg := rfl
@[simp] theorem setStack_v (l : List Word) : (s.setStack l).v = s.v := rfl
@[simp] theorem setStack_i (l : List Word) : (s.setStack l).i = s.i := rfl
@[simp] theorem setStack_pc (l : List Word) : (s.setStack l).pc = s.pc := rfl
@[simp] theorem setStack_stack (l : List Word) : (s.setStack l).stack = l := rfl
@[simp] theorem setStack_dt (l : List Word) : (s.setStack l).dt = s.dt := rfl
@[simp] theorem setStack_st (l : List Word) : (s.setStack l).st = s.st := rfl
@[simp] theorem setStack_mem (l : List Word) : (s.setStack l).mem = s.mem := rfl
@[simp] theorem setStack_disp (l : List Word) : (s.setStack l).disp = s.disp := rfl
@[simp] theorem setStack_keys (l : List Word) : (s.setStack l).keys = s.keys := rfl
@[simp] theorem setStack_kw (l : List Word) : (s.setStack l).kw = s.kw := rfl
@[simp] theorem setStack_run (l : List Word) : (s.setStack l).run = s.run := rfl
@[simp] theorem setStack_subStepsDone (l : List Word) : (s.setStack l).subStepsDone = s.subStepsDone := rfl
@[simp] theorem setStack_stalledAll (l : List Word) : (s.setStack l).stalledAll = s.stalledAll := rfl
@[simp] theorem setStack_report (l : List Word) : (s.setStack l).report = s.report := rfl
@[simp] theorem setStack_phase (l : List Word) : (s.setStack l).phase = s.phase := rfl
@[simp] theorem setStack_inbox (l : List Word) : (s.setStack l).inbox = s.inbox := rfl
@[simp] theorem setStack_draws (l : List Word) : (s.setStack l).draws = s.draws := rfl
@[simp] theorem setStack_reg (l : List Word) (q : Nibble) : (s.setStack l).reg q = s.reg q := rfl
@[simp] theorem setStack_keyDown (l : List Word) (q : Nibble) : (s.setStack l).keyDown q = s.keyDown q := rfl
@[simp] theorem setStack_byteAt (l : List Word) (q : Nat) : (s.setStack l).byteAt q = s.byteAt q := rfl
@[simp] theorem setStack_memRead (l : List Word) (q : Word) : (s.setStack l).memRead q = s.memRead q := rfl
@[simp] theorem setStack_fetchWord (l : List Word) : (s.setStack l).fetchWord = s.fetchWord := rfl

/-! ### poke -/

@[simp] theorem poke_cfg (a : Nat) (b : Byte) : (s.poke a b).cfg = s.cfg := rfl
@[simp] theorem poke_v (a : Nat) (b : Byte) : (s.poke a b).v = s.v := rfl
@[simp] theorem poke_i (a : Nat) (b : Byte) : (s.poke a b).i = s.i := rfl
@[simp] theorem poke_pc (a : Nat) (b : Byte) : (s.poke a b).pc = s.pc := rfl
@[simp] theorem poke_stack (a : Nat) (b : Byte) : (s.poke a b).stack = s.stack := rfl
@[simp] theorem poke_dt (a : Nat) (b : Byte) : (s.poke a b).dt = s.dt := rfl
@[simp] theorem poke_st (a : Nat) (b : Byte) : (s.poke a b).st = s.st := rfl
@[simp] theorem poke_mem (a : Nat) (b : Byte) : (s.poke a b).mem = Memory.write (initialByte s.cfg) s.mem a b := rfl
@[simp] theorem poke_disp (a : Nat) (b : Byte) : (s.poke a b).disp = s.disp := rfl
@[simp] theorem poke_keys (a : Nat) (b : Byte) : (s.poke a b).keys = s.keys := rfl
@[simp] theorem poke_kw (a : Nat) (b : Byte) : (s.poke a b).kw = s.kw := rfl
@[simp] theorem poke_run (a : Nat) (b : Byte) : (s.poke a b).run = s.run := rfl
@[simp] theorem poke_subStepsDone (a : Nat) (b : Byte) : (s.poke a b).subStepsDone = s.subStepsDone := rfl
@[simp] theorem poke_stalledAll (a : Nat) (b : Byte) : (s.poke a b).stalledAll = s.stalledAll := rfl
@[simp] theorem poke_report (a : Nat) (b : Byte) : (s.poke a b).report = s.report := rfl
@[simp] theorem poke_phase (a : Nat) (b : Byte) : (s.poke a b).phase = s.phase := rfl
@[simp] theorem poke_inbox (a : Nat) (b : Byte) : (s.poke a b).inbox = s.inbox := rfl
@[simp] theorem poke_draws (a : Nat) (b : Byte) : (s.poke a b).draws = s.draws := rfl
@[simp] theorem poke_reg (a : Nat) (b : Byte) (q : Nibble) : (s.poke a b).reg q = s.reg q := rfl
@[simp] theorem poke_keyDown (a : Nat) (b : Byte) (q : Nibble) : (s.poke a b).keyDown q = s.keyDown q := rfl

/-! ### pokeAll -/

@[simp] theorem pokeAll_cfg (a : Nat) (bs : List Byte) : (s.pokeAll a bs).cfg = s.cfg := rfl
@[simp] theorem pokeAll_v (a : Nat) (bs : List Byte) : (s.pokeAll a bs).v = s.v := rfl
@[simp] theorem pokeAll_i (a : Nat) (bs : List Byte) : (s.pokeAll a bs).i = s.i := rfl
@[simp] theorem pokeAll_pc (a : Nat) (bs : List Byte) : (s.pokeAll a bs).pc = s.pc := rfl
@[simp] theorem pokeAll_stack (a : Nat) (bs : List Byte) : (s.pokeAll a bs).stack = s.stack := rfl
@[simp] theorem pokeAll_dt (a : Nat) (bs : List Byte) : (s.pokeAll a bs).dt = s.dt := rfl
@[simp] theorem pokeAll_st (a : Nat) (bs : List Byte) : (s.pokeAll a bs).st = s.st := rfl
@[simp] theorem pokeAll_mem (a : Nat) (bs : List Byte) : (s.pokeAll a bs).mem = Memory.writeAll (initialByte s.cfg) s.mem a bs := rfl
@[simp] theorem pokeAll_disp (a : Nat) (bs : List Byte) : (s.pokeAll a bs).disp = s.disp := rfl
@[simp] theorem pokeAll_keys (a : Nat) (bs : List Byte) : (s.pokeAll a bs).keys = s.keys := rfl
@[simp] theorem pokeAll_kw (a : Nat) (bs : List Byte) : (s.pokeAll a bs).kw = s.kw := rfl
@[simp] theorem pokeAll_run (a : Nat) (bs : List Byte) : (s.pokeAll a bs).run = s.run := rfl
@[simp] theorem pokeAll_subStepsDone (a : Nat) (bs : List Byte) : (s.pokeAll a bs).subStepsDone = s.subStepsDone := rfl
@[simp] theorem pokeAll_stalledAll (a : Nat) (bs : List Byte) : (s.pokeAll a bs).stalledAll = s.stalledAll := rfl
@[simp] theorem pokeAll_report (a : Nat) (bs : List Byte) : (s.pokeAll a bs).report = s.report := rfl
@[simp] theorem pokeAll_phase (a : Nat) (bs : List Byte) : (s.pokeAll a bs).phase = s.phase := rfl
@[simp] theorem pokeAll_inbox (a : Nat) (bs : List Byte) : (s.pokeAll a bs).inbox = s.inbox := rfl
@[simp] theorem pokeAll_draws (a : Nat) (bs : List Byte) : (s.pokeAll a bs).draws = s.draws := rfl
@[simp] theorem pokeAll_reg (a : Nat) (bs : List Byte) (q : Nibble) : (s.pokeAll a bs).reg q = s.reg q := rfl
@[simp] theorem pokeAll_keyDown (a : Nat) (bs : List Byte) (q : Nibble) : (s.pokeAll a bs).keyDown q = s.keyDown q := rfl

/-! ### setDisp -/

@[simp] theorem setDisp_cfg (g : Display) : (s.setDisp g).cfg = s.cfg := rfl
@[simp] theorem setDisp_v (g : Display) : (s.setDisp g).v = s.v := rfl
@[simp] theorem setDisp_i (g : Display) : (s.setDisp g).i = s.i := rfl
@[simp] theorem setDisp_pc (g : Display) : (s.setDisp g).pc = s.pc := rfl
@[simp] theorem setDisp_stack (g : Display) : (s.setDisp g).stack = s.stack := rfl
@[simp] theorem setDisp_dt (g : Display) : (s.setDisp g).dt = s.dt := rfl
@[simp] theorem setDisp_st (g : Display) : (s.setDisp g).st = s.st := rfl
@[simp] theorem setDisp_mem (g : Display) : (s.setDisp g).mem = s.mem := rfl
@[simp] theorem setDisp_disp (g : Display) : (s.setDisp g).disp = g := rfl
@[simp] theorem setDisp_keys (g : Display) : (s.setDisp g).keys = s.keys := rfl
@[simp] theorem setDisp_kw (g : Display) : (s.setDisp g).kw = s.kw := rfl
@[simp] theorem setDisp_run (g : Display) : (s.setDisp g).run = s.run := rfl
@[simp] theorem setDisp_subStepsDone (g : Display) : (s.setDisp g).subStepsDone = s.subStepsDone := rfl
@[simp] theorem setDisp_stalledAll (g : Display) : (s.setDisp g).stalledAll = s.stalledAll := rfl
@[simp] theorem setDisp_report (g : Display) : (s.setDisp g).report = s.report := rfl
@[simp] theorem setDisp_phase (g : Display) : (s.setDisp g).phase = s.phase := rfl
@[simp] theorem setDisp_inbox (g : Display) : (s.setDisp g).inbox = s.inbox := rfl
@[simp] theorem setDisp_draws (g : Display) : (s.setDisp g).draws = s.draws := rfl
@[simp] theorem setDisp_reg (g : Display) (q : Nibble) : (s.setDisp g).reg q = s.reg q := rfl
@[simp] theorem setDisp_keyDown (g : Display) (q : Nibble) : (s.setDisp g).keyDown q = s.keyDown q := rfl
@[simp] theorem setDisp_byteAt (g : Display) (q : Nat) : (s.setDisp g).byteAt q = s.byteAt q := rfl
@[simp] theorem setDisp_memRead (g : Display) (q : Word) : (s.setDisp g).memRead q = s.memRead q := rfl
@[simp] theorem setDisp_fetchWord (g : Display) : (s.setDisp g).fetchWord = s.fetchWord := rfl

/-! ### setKey -/

@[simp] theorem setKey_cfg (k : Nibble) (b : Bool) : (s.setKey k b).cfg = s.cfg := rfl
@[simp] theorem setKey_v (k : Nibble) (b : Bool) : (s.setKey k b).v = s.v := rfl
@[simp] theorem setKey_i (k : Nibble) (b : Bool) : (s.setKey k b).i = s.i := rfl
@[simp] theorem setKey_pc (k : Nibble) (b : Bool) : (s.setKey k b).pc = s.pc := rfl
@[simp] theorem setKey_stack (k : Nibble) (b : Bool) : (s.setKey k b).stack = s.stack := rfl
@[simp] theorem setKey_dt (k : Nibble) (b : Bool) : (s.setKey k b).dt = s.dt := rfl
@[simp] theorem setKey_st (k : Nibble) (b : Bool) : (s.setKey k b).st = s.st := rfl
@[simp] theorem setKey_mem (k : Nibble) (b : Bool) : (s.setKey k b).mem = s.mem := rfl
@[simp] theorem setKey_disp (k : Nibble) (b : Bool) : (s.setKey k b).disp = s.disp := rfl
@[simp] theorem setKey_keys (k : Nibble) (b : Bool) : (s.setKey k b).keys = s.keys.set k.toNat b k.isLt := rfl
@[simp] theorem setKey_kw (k : Nibble) (b : Bool) : (s.setKey k b).kw = s.kw := rfl
@[simp] theorem setKey_run (k : Nibble) (b : Bool) : (s.setKey k b).run = s.run := rfl
@[simp] theorem setKey_subStepsDone (k : Nibble) (b : Bool) : (s.setKey k b).subStepsDone = s.subStepsDone := rfl
@[simp] theorem setKey_stalledAll (k : Nibble) (b : Bool) : (s.setKey k b).stalledAll = s.stalledAll := rfl
@[simp] theorem setKey_report (k : Nibble) (b : Bool) : (s.setKey k b).report = s.report := rfl
@[simp] theorem setKey_phase (k : Nibble) (b : Bool) : (s.setKey k b).phase = s.phase := rfl
@[simp] theorem setKey_inbox (k : Nibble) (b : Bool) : (s.setKey k b).inbox = s.inbox := rfl
@[simp] theorem setKey_draws (k : Nibble) (b : Bool) : (s.setKey k b).draws = s.draws := rfl
@[simp] theorem setKey_reg (k : Nibble) (b : Bool) (q : Nibble) : (s.setKey k b).reg q = s.reg q := rfl
@[simp] theorem setKey_byteAt (k : Nibble) (b : Bool) (q : Nat) : (s.setKey k b).byteAt q = s.byteAt q := rfl
@[simp] theorem setKey_memRead (k : Nibble) (b : Bool) (q : Word) : (s.setKey k b).memRead q = s.memRead q := rfl
@[simp] theorem setKey_fetchWord (k : Nibble) (b : Bool) : (s.setKey k b).fetchWord = s.fetchWord := rfl

/-! ### setKw -/

@[simp] theorem setKw_cfg (w : KeyWait) : (s.setKw w).cfg = s.cfg := rfl
@[simp] theorem setKw_v (w : KeyWait) : (s.setKw w).v = s.v := rfl
@[simp] theorem setKw_i (w : KeyWait) : (s.setKw w).i = s.i := rfl
@[simp] theorem setKw_pc (w : KeyWait) : (s.setKw w).pc = s.pc := rfl
@[simp] theorem setKw_stack (w : KeyWait) : (s.setKw w).stack = s.stack := rfl
@[simp] theorem setKw_dt (w : KeyWait) : (s.setKw w).dt = s.dt := rfl
@[simp] theorem setKw_st (w : KeyWait) : (s.setKw w).st = s.st := rfl
@[simp] theorem setKw_mem (w : KeyWait) : (s.setKw w).mem = s.mem := rfl
@[simp] theorem setKw_disp (w : KeyWait) : (s.setKw w).disp = s.disp := rfl
@[simp] theorem setKw_keys (w : KeyWait) : (s.setKw w).keys = s.keys := rfl
@[simp] theorem setKw_kw (w : KeyWait) : (s.setKw w).kw = w := rfl
@[simp] theorem setKw_run (w : KeyWait) : (s.setKw w).run = s.run := rfl
@[simp] theorem setKw_subStepsDone (w : KeyWait) : (s.setKw w).subStepsDone = s.subStepsDone := rfl
@[simp] theorem setKw_stalledAll (w : KeyWait) : (s.setKw w).stalledAll = s.stalledAll := rfl
@[simp] theorem setKw_report (w : KeyWait) : (s.setKw w).report = s.report := rfl
@[simp] theorem setKw_phase (w : KeyWait) : (s.setKw w).phase = s.phase := rfl
@[simp] theorem setKw_inbox (w : KeyWait) : (s.setKw w).inbox = s.inbox := rfl
@[simp] theorem setKw_draws (w : KeyWait) : (s.setKw w).draws = s.draws := rfl
@[simp] theorem setKw_reg (w : KeyWait) (q : Nibble) : (s.setKw w).reg q = s.reg q := rfl
@[simp] theorem setKw_keyDown (w : KeyWait) (q : Nibble) : (s.setKw w).keyDown q = s.keyDown q := rfl
@[simp] theorem setKw_byteAt (w : KeyWait) (q : Nat) : (s.setKw w).byteAt q = s.byteAt q := rfl
@[simp] theorem setKw_memRead (w : KeyWait) (q : Word) : (s.setKw w).memRead q = s.memRead q := rfl
@[simp] theorem setKw_fetchWord (w : KeyWait) : (s.setKw w).fetchWord = s.fetchWord := rfl

/-! ### registerWait -/

@[simp] theorem registerWait_cfg : s.registerWait.cfg = s.cfg := rfl
@[simp] theorem registerWait_v : s.registerWait.v = s.v := rfl
@[simp] theorem registerWait_i : s.registerWait.i = s.i := rfl
@[simp] theorem registerWait_pc : s.registerWait.pc = s.pc := rfl
@[simp] theorem registerWait_stack : s.registerWait.stack = s.stack := rfl
@[simp] theorem registerWait_dt : s.registerWait.dt = s.dt := rfl
@[simp] theorem registerWait_st : s.registerWait.st = s.st := rfl
@[simp] theorem registerWait_mem : s.registerWait.mem = s.mem := rfl
@[simp] theorem registerWait_disp : s.registerWait.disp = s.disp := rfl
@[simp] theorem registerWait_keys : s.registerWait.keys = s.keys := rfl
@[simp] theorem registerWait_kw : s.registerWait.kw = .pending := rfl
@[simp] theorem registerWait_run : s.registerWait.run = s.run := rfl
@[simp] theorem registerWait_subStepsDone : s.registerWait.subStepsDone = s.subStepsDone := rfl
@[simp] theorem registerWait_stalledAll : s.registerWait.stalledAll = s.stalledAll := rfl
@[simp] theorem registerWait_report : s.registerWait.report = s.report := rfl
@[simp] theorem registerWait_phase : s.registerWait.phase = s.phase := rfl
@[simp] theorem registerWait_inbox : s.registerWait.inbox = s.inbox := rfl
@[simp] theorem registerWait_draws : s.registerWait.draws = s.draws := rfl
@[simp] theorem registerWait_reg (q : Nibble) : s.registerWait.reg q = s.reg q := rfl
@[simp] theorem registerWait_keyDown (q : Nibble) : s.registerWait.keyDown q = s.keyDown q := rfl
@[simp] theorem registerWait_byteAt (q : Nat) : s.registerWait.byteAt q = s.byteAt q := rfl
@[simp] theorem registerWait_memRead (q : Word) : s.registerWait.memRead q = s.memRead q := rfl
@[simp] theorem registerWait_fetchWord : s.registerWait.fetchWord = s.fetchWord := rfl

/-! ### setRun -/

@[simp] theorem setRun_cfg (r : RunState) : (s.setRun r).cfg = s.cfg := rfl
@[simp] theorem setRun_v (r : RunState) : (s.setRun r).v = s.v := rfl
@[simp] theorem setRun_i (r : RunState) : (s.setRun r).i = s.i := rfl
@[simp] theorem setRun_pc (r : RunState) : (s.setRun r).pc = s.pc := rfl
@[simp] theorem setRun_stack (r : RunState) : (s.setRun r).stack = s.stack := rfl
@[simp] theorem setRun_dt (r : RunState) : (s.setRun r).dt = s.dt := rfl
@[simp] theorem setRun_st (r : RunState) : (s.setRun r).st = s.st := rfl
@[simp] theorem setRun_mem (r : RunState) : (s.setRun r).mem = s.mem := rfl
@[simp] theorem setRun_disp (r : RunState) : (s.setRun r).disp = s.disp := rfl
@[simp] theorem setRun_keys (r : RunState) : (s.setRun r).keys = s.keys := rfl
@[simp] theorem setRun_kw (r : RunState) : (s.setRun r).kw = s.kw := rfl
@[simp] theorem setRun_run (r : RunState) : (s.setRun r).run = r := rfl
@[simp] theorem setRun_subStepsDone (r : RunState) : (s.setRun r).subStepsDone = s.subStepsDone := rfl
@[simp] theorem setRun_stalledAll (r : RunState) : (s.setRun r).stalledAll = s.stalledAll := rfl
@[simp] theorem setRun_report (r : RunState) : (s.setRun r).report = s.report := rfl
@[simp] theorem setRun_phase (r : RunState) : (s.setRun r).phase = s.phase := rfl
@[simp] theorem setRun_inbox (r : RunState) : (s.setRun r).inbox = s.inbox := rfl
@[simp] theorem setRun_draws (r : RunState) : (s.setRun r).draws = s.draws := rfl
@[simp] theorem setRun_reg (r : RunState) (q : Nibble) : (s.setRun r).reg q = s.reg q := rfl
@[simp] theorem setRun_keyDown (r : RunState) (q : Nibble) : (s.setRun r).keyDown q = s.keyDown q := rfl
@[simp] theorem setRun_byteAt (r : RunState) (q : Nat) : (s.setRun r).byteAt q = s.byteAt q := rfl
@[simp] theorem setRun_memRead (r : RunState) (q : Word) : (s.setRun r).memRead q = s.memRead q := rfl
@[simp] theorem setRun_fetchWord (r : RunState) : (s.setRun r).fetchWord = s.fetchWord := rfl

/-! ### countDraw -/

@[simp] theorem countDraw_cfg : s.countDraw.cfg = s.cfg := rfl
@[simp] theorem countDraw_v : s.countDraw.v = s.v := rfl
@[simp] theorem countDraw_i : s.countDraw.i = s.i := rfl
@[simp] theorem countDraw_pc : s.countDraw.pc = s.pc := rfl
@[simp] theorem countDraw_stack : s.countDraw.stack = s.stack := rfl
@[simp] theorem countDraw_dt : s.countDraw.dt = s.dt := rfl
@[simp] theorem countDraw_st : s.countDraw.st = s.st := rfl
@[simp] theorem countDraw_mem : s.countDraw.mem = s.mem := rfl
@[simp] theorem countDraw_disp : s.countDraw.disp = s.disp := rfl
@[simp] theorem countDraw_keys : s.countDraw.keys = s.keys := rfl
@[simp] theorem countDraw_kw : s.countDraw.kw = s.kw := rfl
@[simp] theorem countDraw_run : s.countDraw.run = s.run := rfl
@[simp] theorem countDraw_subStepsDone : s.countDraw.subStepsDone = s.subStepsDone := rfl
@[simp] theorem countDraw_stalledAll : s.countDraw.stalledAll = s.stalledAll := rfl
@[simp] theorem countDraw_report : s.countDraw.report = s.report := rfl
@[simp] theorem countDraw_phase : s.countDraw.phase = s.phase := rfl
@[simp] theorem countDraw_inbox : s.countDraw.inbox = s.inbox := rfl
@[simp] theorem countDraw_draws : s.countDraw.draws = s.draws + 1 := rfl
@[simp] theorem countDraw_reg (q : Nibble) : s.countDraw.reg q = s.reg q := rfl
@[simp] theorem countDraw_keyDown (q : Nibble) : s.countDraw.keyDown q = s.keyDown q := rfl
@[simp] theorem countDraw_byteAt (q : Nat) : s.countDraw.byteAt q = s.byteAt q := rfl
@[simp] theorem countDraw_memRead (q : Word) : s.countDraw.memRead q = s.memRead q := rfl
@[simp] theorem countDraw_fetchWord : s.countDraw.fetchWord = s.fetchWord := rfl

/-! ### setInbox -/

@[simp] theorem setInbox_cfg (l : List (List KeyEvent)) : (s.setInbox l).cfg = s.cfg := rfl
@[simp] theorem setInbox_v (l : List (List KeyEvent)) : (s.setInbox l).v = s.v := rfl
@[simp] theorem setInbox_i (l : List (List KeyEvent)) : (s.setInbox l).i = s.i := rfl
@[simp] theorem setInbox_pc (l : List (List KeyEvent)) : (s.setInbox l).pc = s.pc := rfl
@[simp] theorem setInbox_stack (l : List (List KeyEvent)) : (s.setInbox l).stack = s.stack := rfl
@[simp] theorem setInbox_dt (l : List (List KeyEvent)) : (s.setInbox l).dt = s.dt := rfl
@[simp] theorem setInbox_st (l : List (List KeyEvent)) : (s.setInbox l).st = s.st := rfl
@[simp] theorem setInbox_mem (l : List (List KeyEvent)) : (s.setInbox l).mem = s.mem := rfl
@[simp] theorem setInbox_disp (l : List (List KeyEvent)) : (s.setInbox l).disp = s.disp := rfl
@[simp] theorem setInbox_keys (l : List (List KeyEvent)) : (s.setInbox l).keys = s.keys := rfl
@[simp] theorem setInbox_kw (l : List (List KeyEvent)) : (s.setInbox l).kw = s.kw := rfl
@[simp] theorem setInbox_run (l : List (List KeyEvent)) : (s.setInbox l).run = s.run := rfl
@[simp] theorem setInbox_subStepsDone (l : List (List KeyEvent)) : (s.setInbox l).subStepsDone = s.subStepsDone := rfl
@[simp] theorem setInbox_stalledAll (l : List (List KeyEvent)) : (s.setInbox l).stalledAll = s.stalledAll := rfl
@[simp] theorem setInbox_report (l : List (List KeyEvent)) : (s.setInbox l).report = s.report := rfl
@[simp] theorem setInbox_phase (l : List (List KeyEvent)) : (s.setInbox l).phase = s.phase := rfl
@[simp] theorem setInbox_inbox (l : List (List KeyEvent)) : (s.setInbox l).inbox = l := rfl
@[simp] theorem setInbox_draws (l : List (List KeyEvent)) : (s.setInbox l).draws = s.draws := rfl
@[simp] theorem setInbox_reg (l : List (List KeyEvent)) (q : Nibble) : (s.setInbox l).reg q = s.reg q := rfl
@[simp] theorem setInbox_keyDown (l : List (List KeyEvent)) (q : Nibble) : (s.setInbox l).keyDown q = s.keyDown q := rfl
@[simp] theorem setInbox_byteAt (l : List (List KeyEvent)) (q : Nat) : (s.setInbox l).byteAt q = s.byteAt q := rfl
@[simp] theorem setInbox_memRead (l : List (List KeyEvent)) (q : Word) : (s.setInbox l).memRead q = s.memRead q := rfl
@[simp] theorem setInbox_fetchWord (l : List (List KeyEvent)) : (s.setInbox l).fetchWord = s.fetchWord := rfl

/-! ### countSubStep -/

@[simp] theorem countSubStep_cfg (b : Bool) : (s.countSubStep b).cfg = s.cfg := rfl
@[simp] theorem countSubStep_v (b : Bool) : (s.countSubStep b).v = s.v := rfl
@[simp] theorem countSubStep_i (b : Bool) : (s.countSubStep b).i = s.i := rfl
@[simp] theorem countSubStep_pc (b : Bool) : (s.countSubStep b).pc = s.pc := rfl
@[simp] theorem countSubStep_stack (b : Bool) : (s.countSubStep b).stack = s.stack := rfl
@[simp] theorem countSubStep_dt (b : Bool) : (s.countSubStep b).dt = s.dt := rfl
@[simp] theorem countSubStep_st (b : Bool) : (s.countSubStep b).st = s.st := rfl
@[simp] theorem countSubStep_mem (b : Bool) : (s.countSubStep b).mem = s.mem := rfl
@[simp] theorem countSubStep_disp (b : Bool) : (s.countSubStep b).disp = s.disp := rfl
@[simp] theorem countSubStep_keys (b : Bool) : (s.countSubStep b).keys = s.keys := rfl
@[simp] theorem countSubStep_kw (b : Bool) : (s.countSubStep b).kw = s.kw := rfl
@[simp] theorem countSubStep_run (b : Bool) : (s.countSubStep b).run = s.run := rfl
@[simp] theorem countSubStep_subStepsDone (b : Bool) : (s.countSubStep b).subStepsDone = s.subStepsDone + 1 := rfl
@[simp] theorem countSubStep_stalledAll (b : Bool) : (s.countSubStep b).stalledAll = (s.stalledAll && b) := rfl
@[simp] theorem countSubStep_report (b : Bool) : (s.countSubStep b).report = s.report := rfl
@[simp] theorem countSubStep_phase (b : Bool) : (s.countSubStep b).phase = s.phase := rfl
@[simp] theorem countSubStep_inbox (b : Bool) : (s.countSubStep b).inbox = s.inbox := rfl
@[simp] theorem countSubStep_draws (b : Bool) : (s.countSubStep b).draws = s.draws := rfl
@[simp] theorem countSubStep_reg (b : Bool) (q : Nibble) : (s.countSubStep b).reg q = s.reg q := rfl
@[simp] theorem countSubStep_keyDown (b : Bool) (q : Nibble) : (s.countSubStep b).keyDown q = s.keyDown q := rfl
@[simp] theorem countSubStep_byteAt (b : Bool) (q : Nat) : (s.countSubStep b).byteAt q = s.byteAt q := rfl
@[simp] theorem countSubStep_memRead (b : Bool) (q : Word) : (s.countSubStep b).memRead q = s.memRead q := rfl
@[simp] theorem countSubStep_fetchWord (b : Bool) : (s.countSubStep b).fetchWord = s.fetchWord := rfl

/-! ### leaveTick -/

@[simp] theorem leaveTick_cfg (r : TickResult) : (s.leaveTick r).cfg = s.cfg := rfl
@[simp] theorem leaveTick_v (r : TickResult) : (s.leaveTick r).v = s.v := rfl
@[simp] theorem leaveTick_i (r : TickResult) : (s.leaveTick r).i = s.i := rfl
@[simp] theorem leaveTick_pc (r : TickResult) : (s.leaveTick r).pc = s.pc := rfl
@[simp] theorem leaveTick_stack (r : TickResult) : (s.leaveTick r).stack = s.stack := rfl
@[simp] theorem leaveTick_dt (r : TickResult) : (s.leaveTick r).dt = s.dt := rfl
@[simp] theorem leaveTick_st (r : TickResult) : (s.leaveTick r).st = s.st := rfl
@[simp] theorem leaveTick_mem (r : TickResult) : (s.leaveTick r).mem = s.mem := rfl
@[simp] theorem leaveTick_disp (r : TickResult) : (s.leaveTick r).disp = s.disp := rfl
@[simp] theorem leaveTick_keys (r : TickResult) : (s.leaveTick r).keys = s.keys := rfl
@[simp] theorem leaveTick_kw (r : TickResult) : (s.leaveTick r).kw = s.kw := rfl
@[simp] theorem leaveTick_run (r : TickResult) : (s.leaveTick r).run = s.run := rfl
@[simp] theorem leaveTick_subStepsDone (r : TickResult) : (s.leaveTick r).subStepsDone = 0 := rfl
@[simp] theorem leaveTick_stalledAll (r : TickResult) : (s.leaveTick r).stalledAll = true := rfl
@[simp] theorem leaveTick_report (r : TickResult) : (s.leaveTick r).report = some r := rfl
@[simp] theorem leaveTick_phase (r : TickResult) : (s.leaveTick r).phase = s.phase := rfl
@[simp] theorem leaveTick_inbox (r : TickResult) : (s.leaveTick r).inbox = s.inbox := rfl
@[simp] theorem leaveTick_draws (r : TickResult) : (s.leaveTick r).draws = s.draws := rfl
@[simp] theorem leaveTick_reg (r : TickResult) (q : Nibble) : (s.leaveTick r).reg q = s.reg q := rfl
@[simp] theorem leaveTick_keyDown (r : TickResult) (q : Nibble) : (s.leaveTick r).keyDown q = s.keyDown q := rfl
@[simp] theorem leaveTick_byteAt (r : TickResult) (q : Nat) : (s.leaveTick r).byteAt q = s.byteAt q := rfl
@[simp] theorem leaveTick_memRead (r : TickResult) (q : Word) : (s.leaveTick r).memRead q = s.memRead q := rfl
@[simp] theorem leaveTick_fetchWord (r : TickResult) : (s.leaveTick r).fetchWord = s.fetchWord := rfl

/-! ### markStarted -/

@[simp] theorem markStarted_cfg : s.markStarted.cfg = s.cfg := rfl
@[simp] theorem markStarted_v : s.markStarted.v = s.v := rfl
@[simp] theorem markStarted_i : s.markStarted.i = s.i := rfl
@[simp] theorem markStarted_pc : s.markStarted.pc = s.pc := rfl
@[simp] theorem markStarted_stack : s.markStarted.stack = s.stack := rfl
@[simp] theorem markStarted_dt : s.markStarted.dt = s.dt := rfl
@[simp] theorem markStarted_st : s.markStarted.st = s.st := rfl
@[simp] theorem markStarted_mem : s.markStarted.mem = s.mem := rfl
@[simp] theorem markStarted_disp : s.markStarted.disp = s.disp := rfl
@[simp] theorem markStarted_keys : s.markStarted.keys = s.keys := rfl
@[simp] theorem markStarted_kw : s.markStarted.kw = s.kw := rfl
@[simp] theorem markStarted_run : s.markStarted.run = s.run := rfl
@[simp] theorem markStarted_subStepsDone : s.markStarted.subStepsDone = s.subStepsDone := rfl
@[simp] theorem markStarted_stalledAll : s.markStarted.stalledAll = s.stalledAll := rfl
@[simp] theorem markStarted_report : s.markStarted.report = s.report := rfl
@[simp] theorem markStarted_phase : s.markStarted.phase = .started := rfl
@[simp] theorem markStarted_inbox : s.markStarted.inbox = s.inbox := rfl
@[simp] theorem markStarted_draws : s.markStarted.draws = s.draws := rfl
@[simp] theorem markStarted_reg (q : Nibble) : s.markStarted.reg q = s.reg q := rfl
@[simp] theorem markStarted_keyDown (q : Nibble) : s.markStarted.keyDown q = s.keyDown q := rfl
@[simp] theorem markStarted_byteAt (q : Nat) : s.markStarted.byteAt q = s.byteAt q := rfl
@[simp] theorem markStarted_memRead (q : Word) : s.markStarted.memRead q = s.memRead q := rfl
@[simp] theorem markStarted_fetchWord : s.markStarted.fetchWord = s.fetchWord := rfl

/-! ### markLoaded -/

@[simp] theorem markLoaded_cfg : s.markLoaded.cfg = s.cfg := rfl
@[simp] theorem markLoaded_v : s.markLoaded.v = s.v := rfl
@[simp] theorem markLoaded_i : s.markLoaded.i = s.i := rfl
@[simp] theorem markLoaded_pc : s.markLoaded.pc = s.pc := rfl
@[simp] theorem markLoaded_stack : s.markLoaded.stack = s.stack := rfl
@[simp] theorem markLoaded_dt : s.markLoaded.dt = s.dt := rfl
@[simp] theorem markLoaded_st : s.markLoaded.st = s.st := rfl
@[simp] theorem markLoaded_mem : s.markLoaded.mem = s.mem := rfl
@[simp] theorem markLoaded_disp : s.markLoaded.disp = s.disp := rfl
@[simp] theorem markLoaded_keys : s.markLoaded.keys = s.keys := rfl
@[simp] theorem markLoaded_kw : s.markLoaded.kw = s.kw := rfl
@[simp] theorem markLoaded_run : s.markLoaded.run = s.run := rfl
@[simp] theorem markLoaded_subStepsDone : s.markLoaded.subStepsDone = s.subStepsDone := rfl
@[simp] theorem markLoaded_stalledAll : s.markLoaded.stalledAll = s.stalledAll := rfl
@[simp] theorem markLoaded_report : s.markLoaded.report = s.report := rfl
@[simp] theorem markLoaded_phase : s.markLoaded.phase = .loaded := rfl
@[simp] theorem markLoaded_inbox : s.markLoaded.inbox = s.inbox := rfl
@[simp] theorem markLoaded_draws : s.markLoaded.draws = s.draws := rfl
@[simp] theorem markLoaded_reg (q : Nibble) : s.markLoaded.reg q = s.reg q := rfl
@[simp] theorem markLoaded_keyDown (q : Nibble) : s.markLoaded.keyDown q = s.keyDown q := rfl
@[simp] theorem markLoaded_byteAt (q : Nat) : s.markLoaded.byteAt q = s.byteAt q := rfl
@[simp] theorem markLoaded_memRead (q : Word) : s.markLoaded.memRead q = s.memRead q := rfl
@[simp] theorem markLoaded_fetchWord : s.markLoaded.fetchWord = s.fetchWord := rfl

end Sys2Proof.Machine.State
end

