-- ==== Sys2Proof/Laws/Memory.lean ====
section
/-! SUPPORT. The memory: read after write, and that every operation keeps the canonical form. -/

namespace Sys2Proof.Machine

/-! ### The address mask (R49) -/

theorem maskAddr_eq (a : Word) : maskAddr a = a.toNat % 4096 := by
  simp only [maskAddr, BitVec.toNat_and]
  exact Nat.and_two_pow_sub_one_eq_mod a.toNat 12

theorem maskAddr_lt (a : Word) : maskAddr a < memSize := by
  rw [maskAddr_eq]; exact Nat.mod_lt _ (by decide)

theorem maskAddr_add (a : Word) (k : Nat) :
    maskAddr (a + BitVec.ofNat 16 k) = (a.toNat + k) % 4096 := by
  rw [maskAddr_eq, BitVec.toNat_add, BitVec.toNat_ofNat]; omega

/-- Offsets below 4096 from one base reach different bytes. -/
theorem maskAddr_add_inj (a : Word) {j k : Nat} (hj : j < 4096) (hk : k < 4096)
    (h : maskAddr (a + BitVec.ofNat 16 j) = maskAddr (a + BitVec.ofNat 16 k)) : j = k := by
  rw [maskAddr_add, maskAddr_add] at h; omega

/-! ### The canonical list -/

section
variable {d : Nat → Byte}

theorem Memory.wfFrom_cons {lo k : Nat} {c : Byte} {m : Memory} :
    Memory.wfFrom d lo ((k, c) :: m) = true ↔
      lo ≤ k ∧ k < memSize ∧ c ≠ d k ∧ Memory.wfFrom d (k + 1) m = true := by
  simp [Memory.wfFrom, and_assoc]

theorem Memory.wfFrom_mono {m : Memory} {lo lo' : Nat} (hl : lo' ≤ lo)
    (h : Memory.wfFrom d lo m = true) : Memory.wfFrom d lo' m = true := by
  cases m with
  | nil => rfl
  | cons e m =>
    obtain ⟨h1, h2⟩ := Memory.wfFrom_cons.1 h
    exact Memory.wfFrom_cons.2 ⟨by omega, h2⟩

/-- Below its lowest address a canonical memory reads as construction left it. -/
theorem Memory.read_below {m : Memory} {lo a : Nat} (h : Memory.wfFrom d lo m = true) (ha : a < lo) :
    Memory.read d m a = d a := by
  induction m generalizing lo with
  | nil => rfl
  | cons e m ih =>
    obtain ⟨h1, -, -, h2⟩ := Memory.wfFrom_cons.1 h
    simp only [Memory.read]
    rw [if_neg (by omega), ih h2 (by omega)]

theorem Memory.read_put (m : Memory) (a : Nat) (b : Byte) (x : Nat)
    (h : Memory.read d m a = d a) :
    Memory.read d (Memory.put d a b m) x = if x = a then b else Memory.read d m x := by
  unfold Memory.put
  split
  · rename_i hb
    split
    · rename_i hx; rw [hx, h, hb]
    · rfl
  · rfl

/-- Setting one byte leaves every other byte (R57), whatever the list. -/
theorem Memory.read_write_other (m : Memory) (a : Nat) (b : Byte) {x : Nat} (hx : x ≠ a) :
    Memory.read d (Memory.write d m a b) x = Memory.read d m x := by
  have put : ∀ l : Memory, Memory.read d (Memory.put d a b l) x = Memory.read d l x := by
    intro l; unfold Memory.put; split
    · rfl
    · simp only [Memory.read]; rw [if_neg hx]
  induction m with
  | nil => exact put []
  | cons e m ih =>
    simp only [Memory.write]
    split
    · exact put _
    · split
      · rename_i h1 h2; rw [put]; simp only [Memory.read]; rw [if_neg (h2 ▸ hx)]
      · simp only [Memory.read, ih]

/-- A read returns the byte last written there (R57). -/
theorem Memory.read_write_same {m : Memory} {lo : Nat} (a : Nat) (b : Byte)
    (h : Memory.wfFrom d lo m = true) : Memory.read d (Memory.write d m a b) a = b := by
  induction m generalizing lo with
  | nil => simp only [Memory.write]; rw [Memory.read_put _ _ _ _ rfl, if_pos rfl]
  | cons e m ih =>
    obtain ⟨h1, h2, h3, h4⟩ := Memory.wfFrom_cons.1 h
    simp only [Memory.write]
    split
    · rename_i hlt
      rw [Memory.read_put _ _ _ _ (Memory.read_below (lo := e.1) (Memory.wfFrom_cons.2 ⟨le_refl _, h2, h3, h4⟩) hlt),
        if_pos rfl]
    · split
      · rename_i heq
        rw [Memory.read_put _ _ _ _ (Memory.read_below h4 (by omega)), if_pos rfl]
      · rename_i hne
        simp only [Memory.read]; rw [if_neg hne, ih h4]

theorem Memory.wfFrom_put {m : Memory} {lo a : Nat} (b : Byte) (hlo : lo ≤ a) (ha : a < memSize)
    (h : Memory.wfFrom d (a + 1) m = true) : Memory.wfFrom d lo (Memory.put d a b m) = true := by
  unfold Memory.put
  split
  · exact Memory.wfFrom_mono (by omega) h
  · rename_i hb; exact Memory.wfFrom_cons.2 ⟨hlo, ha, hb, h⟩

theorem Memory.wfFrom_write {m : Memory} {lo a : Nat} (b : Byte) (hlo : lo ≤ a) (ha : a < memSize)
    (h : Memory.wfFrom d lo m = true) : Memory.wfFrom d lo (Memory.write d m a b) = true := by
  induction m generalizing lo with
  | nil => exact Memory.wfFrom_put b hlo ha rfl
  | cons e m ih =>
    obtain ⟨h1, h2, h3, h4⟩ := Memory.wfFrom_cons.1 h
    simp only [Memory.write]
    split
    · exact Memory.wfFrom_put b hlo ha (Memory.wfFrom_cons.2 ⟨by omega, h2, h3, h4⟩)
    · split
      · rename_i heq; exact Memory.wfFrom_put b hlo ha (heq ▸ h4)
      · exact Memory.wfFrom_cons.2 ⟨h1, h2, h3, ih (by omega) h4⟩

/-- A write keeps the canonical form. -/
theorem Memory.wf_write {m : Memory} {a : Nat} (b : Byte) (ha : a < memSize)
    (h : Memory.wf d m = true) : Memory.wf d (Memory.write d m a b) = true :=
  Memory.wfFrom_write b (Nat.zero_le _) ha h

theorem Memory.wf_writeAll {bs : List Byte} {m : Memory} {a : Nat} (ha : a + bs.length ≤ memSize)
    (h : Memory.wf d m = true) : Memory.wf d (Memory.writeAll d m a bs) = true := by
  induction bs generalizing m a with
  | nil => exact h
  | cons b bs ih =>
    simp only [List.length_cons] at ha
    exact ih (by omega) (Memory.wf_write b (by omega) h)

/-- Setting consecutive bytes leaves every byte outside them. -/
theorem Memory.read_writeAll_other {bs : List Byte} {m : Memory} {a x : Nat}
    (hx : x < a ∨ a + bs.length ≤ x) :
    Memory.read d (Memory.writeAll d m a bs) x = Memory.read d m x := by
  induction bs generalizing m a with
  | nil => rfl
  | cons b bs ih =>
    simp only [List.length_cons] at hx
    simp only [Memory.writeAll]
    rw [ih (by omega), Memory.read_write_other _ _ _ (by omega)]

/-- Setting consecutive bytes sets each of them. -/
theorem Memory.read_writeAll_at {bs : List Byte} {m : Memory} {a k : Nat}
    (ha : a + bs.length ≤ memSize) (h : Memory.wf d m = true) (hk : k < bs.length) :
    Memory.read d (Memory.writeAll d m a bs) (a + k) = bs[k] := by
  induction bs generalizing m a k with
  | nil => simp at hk
  | cons b bs ih =>
    simp only [List.length_cons] at ha hk
    simp only [Memory.writeAll]
    cases k with
    | zero =>
      rw [Memory.read_writeAll_other (by omega)]; exact Memory.read_write_same _ _ h
    | succ k =>
      have := ih (m := Memory.write d m a b) (a := a + 1) (k := k) (by omega)
        (Memory.wf_write b (by omega) h) (by omega)
      rw [show a + (k + 1) = a + 1 + k by omega, this]; rfl

end

/-! ### The state's reads and writes -/

section
variable {s : State}

theorem byteAt_poke_other {a x : Nat} (b : Byte) (hx : x ≠ a) : (s.poke a b).byteAt x = s.byteAt x :=
  Memory.read_write_other _ _ _ hx

theorem byteAt_poke_same {a : Nat} (b : Byte) (h : Memory.wf (initialByte s.cfg) s.mem = true) :
    (s.poke a b).byteAt a = b :=
  Memory.read_write_same a b h

/-- A store changes the memory only, and keeps its canonical form. -/
theorem memWrite_eq (a : Word) (b : Byte) : ∃ m, s.memWrite a b = { s with mem := m } ∧
    (Memory.wf (initialByte s.cfg) s.mem = true → Memory.wf (initialByte s.cfg) m = true) := by
  unfold State.memWrite
  split
  · exact ⟨s.mem, rfl, id⟩
  · exact ⟨_, rfl, Memory.wf_write b (maskAddr_lt a)⟩

/-- What a byte of memory reads as after a store (R13, R52, R57). -/
theorem byteAt_memWrite (a : Word) (b : Byte) (x : Nat)
    (h : Memory.wf (initialByte s.cfg) s.mem = true) :
    (s.memWrite a b).byteAt x =
      if x = maskAddr a ∧ writeIgnored s.cfg (maskAddr a) = false then b else s.byteAt x := by
  unfold State.memWrite
  split
  · rename_i hi; rw [if_neg (by simp [hi])]
  · rename_i hi
    by_cases hx : x = maskAddr a
    · subst hx; rw [byteAt_poke_same b h, if_pos ⟨rfl, by simpa using hi⟩]
    · rw [byteAt_poke_other b hx, if_neg (by simp [hx])]

/-- A store leaves every byte but the one at its masked address. -/
theorem byteAt_memWrite_other (a : Word) (b : Byte) {x : Nat} (hx : x ≠ maskAddr a) :
    (s.memWrite a b).byteAt x = s.byteAt x := by
  unfold State.memWrite
  split
  · rfl
  · exact byteAt_poke_other b hx

end

end Sys2Proof.Machine
end

