-- ==== Sys2Proof/Laws/Ops.lean ====
section
/-! SUPPORT. The shared operations, one lemma each that says what it can do: registers and keys, the flagged
write, outcomes, the halt, key events, the end of a tick. -/

namespace Sys2Proof.Machine

/-! ### Outcomes -/

@[simp] theorem onNext_next (f : State → State) (s : State) : onNext f (.next s) = .next (f s) := rfl
@[simp] theorem onNext_fault (f : State → State) (r : Fault) : onNext f (.fault r) = .fault r := rfl
@[simp] theorem onNext_refused (f : State → State) (r : Refusal) : onNext f (.refused r) = .refused r := rfl

theorem onNext_eq_next {f : State → State} {o : Host.Outcome State Fault Refusal} {t : State} :
    onNext f o = .next t ↔ ∃ u, o = .next u ∧ f u = t := by
  cases o <;> simp

/-- A halt is a next state in which only the run state is new (R152, R154). -/
theorem takeHalt_eq (h : Halt) (s : State) : takeHalt h s = .next { s with run := .halted h } := rfl

/-! ### Registers and keys -/

section
variable {s : State}

@[simp] theorem reg_setReg (s : State) (x : Nibble) (b : Byte) (q : Nibble) :
    (s.setReg x b).reg q = if q = x then b else s.reg q := by
  simp only [State.reg, State.setReg, Vector.getElem_set, BitVec.toNat_inj, eq_comm]

@[simp] theorem keyDown_setKey (s : State) (k : Nibble) (b : Bool) (q : Nibble) :
    (s.setKey k b).keyDown q = if q = k then b else s.keyDown q := by
  simp only [State.keyDown, State.setKey, Vector.getElem_set, BitVec.toNat_inj, eq_comm]

/-- Two register files that agree on every V[q] are equal. -/
theorem v_ext {a b : State} (h : ∀ q, a.reg q = b.reg q) : a.v = b.v := by
  apply Vector.ext
  intro n hn
  have := h (BitVec.ofNat 4 n)
  have e : (BitVec.ofNat 4 n).toNat = n := by rw [BitVec.toNat_ofNat]; omega
  simpa only [State.reg, e] using this

/-- What the flagged write leaves: registers only, the flag and the result in the order of R103. -/
theorem writeFlagged_spec (s : State) (x : Nibble) (r : Flagged) :
    (s.writeFlagged x r) = { s with v := (s.writeFlagged x r).v } ∧
    ∀ q, (s.writeFlagged x r).reg q =
      match s.cfg.flagOrder with
      | .flagLast => if q = 0xF then flagByte r.flag else if q = x then r.result else s.reg q
      | .resultLast => if q = x then r.result else if q = 0xF then flagByte r.flag else s.reg q := by
  unfold State.writeFlagged
  cases s.cfg.flagOrder <;> exact ⟨rfl, fun q => by simp⟩

theorem wroteFlagged_writeFlagged (s : State) (x : Nibble) (r : Flagged) :
    WroteFlagged s (s.writeFlagged x r) x r.result.toNat r.flag := by
  have h := (writeFlagged_spec s x r).2
  refine ⟨fun ho => ?_, fun ho => ?_, fun q h1 h2 => ?_⟩
  · rw [ho] at h; simp only at h
    refine ⟨by rw [h, if_pos rfl]; rfl, fun hx => by rw [h, if_neg hx, if_pos rfl]⟩
  · rw [ho] at h; simp only at h
    refine ⟨by rw [h, if_pos rfl], fun hx => by rw [h, if_neg (Ne.symm hx), if_pos rfl]; rfl⟩
  · rw [h]; split <;> rw [if_neg (by assumption), if_neg (by assumption)]

end

/-! ### Flags in numbers -/

theorem addCarry_spec (a b : Byte) : (addCarry a b).result.toNat = (a.toNat + b.toNat) % 256 ∧
    (addCarry a b).flag = decide (a.toNat + b.toNat > 255) := by
  have ha := a.isLt; have hb := b.isLt
  have e : (a.setWidth 9 + b.setWidth 9).toNat = a.toNat + b.toNat := by
    rw [BitVec.toNat_add, BitVec.toNat_setWidth, BitVec.toNat_setWidth]; omega
  constructor
  · simp only [addCarry, BitVec.toNat_setWidth, e]
  · simp only [addCarry, e]

theorem subNoBorrow_spec (a b : Byte) :
    (subNoBorrow a b).result.toNat = (a.toNat + (256 - b.toNat)) % 256 ∧
    (subNoBorrow a b).flag = decide (a.toNat ≥ b.toNat) := by
  refine ⟨?_, rfl⟩
  simp only [subNoBorrow, BitVec.toNat_sub]; omega

theorem shiftRightOut_spec (a : Byte) : (shiftRightOut a).result.toNat = a.toNat / 2 ∧
    (shiftRightOut a).flag = decide (a.toNat % 2 = 1) := by
  constructor
  · simp [shiftRightOut, BitVec.toNat_ushiftRight, Nat.shiftRight_eq_div_pow]
  · simp only [shiftRightOut, BitVec.getLsbD, Nat.testBit_zero]

theorem shiftLeftOut_spec (a : Byte) : (shiftLeftOut a).result.toNat = (a.toNat * 2) % 256 ∧
    (shiftLeftOut a).flag = decide (a.toNat ≥ 128) := by
  have ha := a.isLt
  constructor
  · simp [shiftLeftOut, BitVec.toNat_shiftLeft, Nat.shiftLeft_eq]
  · simp only [shiftLeftOut, BitVec.getLsbD, Nat.testBit_eq_decide_div_mod_eq]
    congr 1; apply propext; omega

/-! ### Key events (R127-R130) -/

theorem setDown_eq (k : Nibble) (s : State) :
    setDown k s = { s with keys := (setDown k s).keys, kw := s.kw.deliver k } := rfl

/-- A key event changes the key state and the registration only (R162). -/
theorem keyEvent_eq (s : State) (e : KeyEvent) :
    keyEvent s e = { s with keys := (keyEvent s e).keys, kw := (keyEvent s e).kw } := by
  cases e <;> rfl

theorem foldl_keyEvent_eq (evs : List KeyEvent) (s : State) :
    evs.foldl keyEvent s =
      { s with keys := (evs.foldl keyEvent s).keys, kw := (evs.foldl keyEvent s).kw } := by
  induction evs generalizing s with
  | nil => rfl
  | cons e evs ih =>
    simp only [List.foldl_cons]
    rw [ih (keyEvent s e), keyEvent_eq s e]

/-- The key events due change the key state, the registration and the schedule only (R91, R162). -/
theorem deliverInbox_eq (s : State) :
    deliverInbox s = { s with keys := (deliverInbox s).keys, kw := (deliverInbox s).kw,
                              inbox := (deliverInbox s).inbox } := by
  unfold deliverInbox
  split
  · rfl
  · rw [foldl_keyEvent_eq]; rfl

theorem deliverInbox_nil {s : State} (h : s.inbox = []) : deliverInbox s = s := by
  unfold deliverInbox; rw [h]

theorem keyEvent_kw_none (s : State) (e : KeyEvent) : (keyEvent s e).kw = .none ↔ s.kw = .none := by
  cases e with
  | setUp k => exact Iff.rfl
  | setDown k => cases h : s.kw <;> simp [keyEvent, setDown, KeyWait.deliver, h]

/-- Key events neither make nor remove a registration (R127, R128). -/
theorem foldl_keyEvent_kw_none (evs : List KeyEvent) (s : State) :
    (evs.foldl keyEvent s).kw = .none ↔ s.kw = .none := by
  induction evs generalizing s with
  | nil => exact Iff.rfl
  | cons e evs ih => rw [List.foldl_cons, ih, keyEvent_kw_none]

theorem deliverInbox_kw_none (s : State) : (deliverInbox s).kw = .none ↔ s.kw = .none := by
  unfold deliverInbox
  split
  · exact Iff.rfl
  · rw [foldl_keyEvent_kw_none]; exact Iff.rfl

/-! ### The tick -/

theorem decayed_spec (t : Byte) : (decayed t).toNat = t.toNat - 1 := by
  unfold decayed
  split
  · rename_i h; rw [h]; rfl
  · rename_i h
    have : t.toNat ≠ 0 := fun e => h (BitVec.eq_of_toNat_eq e)
    have := t.isLt
    rw [BitVec.toNat_sub, show (1 : Byte).toNat = 1 from rfl]; omega

theorem decayTimers_eq (s : State) :
    decayTimers s = { s with dt := (decayTimers s).dt, st := (decayTimers s).st } := by
  unfold decayTimers; split <;> rfl

/-- The end of a tick changes the timers, the loop's variables and the report only (R86-R88). -/
theorem endTick_eq (s : State) :
    endTick s = { s with dt := (endTick s).dt, st := (endTick s).st, subStepsDone := 0,
                         stalledAll := true, report := (endTick s).report } := by
  unfold endTick; rw [decayTimers_eq]; rfl

theorem failTick_eq (h : Halt) (s : State) :
    failTick h s = { s with subStepsDone := 0, stalledAll := true, report := some (.err h) } := rfl

end Sys2Proof.Machine
end

