-- ==== Sys2Proof/Laws/Block.lean ====
section
/-! SUPPORT. The block copies and the decimal store: what their loops leave (45_memory_block.md R141-R145). -/

namespace Sys2Proof.Machine

/-- The general register a loop index below 16 names. -/
theorem toNat_regIndex {k : Nat} (hk : k < 16) : (BitVec.ofNat 4 k).toNat = k := by
  rw [BitVec.toNat_ofNat]; omega

/-- One store at I + k changes the memory only. -/
theorem storeAtI_eq (s : State) (k : Nat) (b : Byte) :
    s.storeAtI k b = { s with mem := (s.storeAtI k b).mem } := by
  obtain ⟨m, h, -⟩ := memWrite_eq (s := s) (s.i + BitVec.ofNat 16 k) b
  unfold State.storeAtI; rw [h]

theorem storeAtI_canonical {s : State} (k : Nat) (b : Byte) (h : s.MemoryCanonical) :
    (s.storeAtI k b).MemoryCanonical := by
  obtain ⟨m, e, hm⟩ := memWrite_eq (s := s) (s.i + BitVec.ofNat 16 k) b
  unfold State.storeAtI; rw [e]; exact hm h

/-- What a byte of memory reads as after one store at I + k. -/
theorem byteAt_storeAtI {s : State} (k : Nat) (b : Byte) (x : Nat) (h : s.MemoryCanonical) :
    (s.storeAtI k b).byteAt x =
      if x = (s.i.toNat + k) % 4096 ∧ writeIgnored s.cfg ((s.i.toNat + k) % 4096) = false then b
      else s.byteAt x := by
  unfold State.storeAtI
  rw [byteAt_memWrite _ _ _ h, maskAddr_add]

/-- The loop of LoadFromRegs changes the memory only. -/
theorem storeRegs_eq (n : Nat) (s : State) :
    (List.range n).foldl State.storeReg s =
      { s with mem := ((List.range n).foldl State.storeReg s).mem } := by
  induction n with
  | zero => rfl
  | succ n ih =>
    rw [List.range_succ, List.foldl_append]
    simp only [List.foldl_cons, List.foldl_nil, State.storeReg]
    rw [storeAtI_eq, ih]

theorem storeRegs_canonical (n : Nat) {s : State} (h : s.MemoryCanonical) :
    ((List.range n).foldl State.storeReg s).MemoryCanonical := by
  induction n with
  | zero => exact h
  | succ n ih =>
    rw [List.range_succ, List.foldl_append]
    exact storeAtI_canonical _ _ ih

/-- After the loop of LoadFromRegs: the byte of each register at its masked address, unless the store is
ignored, and every other byte as before. -/
theorem byteAt_storeRegs {n : Nat} (hn : n ≤ 16) {s : State} (h : s.MemoryCanonical) :
    (∀ k, k < n → writeIgnored s.cfg ((s.i.toNat + k) % 4096) = false →
      ((List.range n).foldl State.storeReg s).byteAt ((s.i.toNat + k) % 4096) =
        s.reg (BitVec.ofNat 4 k)) ∧
    (∀ a, (∀ k, k < n → a = (s.i.toNat + k) % 4096 → writeIgnored s.cfg a = true) →
      ((List.range n).foldl State.storeReg s).byteAt a = s.byteAt a) := by
  induction n with
  | zero => exact ⟨fun k hk => absurd hk (Nat.not_lt_zero k), fun _ _ => rfl⟩
  | succ n ih =>
    obtain ⟨ih1, ih2⟩ := ih (by omega)
    rw [List.range_succ, List.foldl_append]
    simp only [List.foldl_cons, List.foldl_nil]
    have he := storeRegs_eq n s
    have hc := storeRegs_canonical n h
    revert he hc ih1 ih2
    generalize (List.range n).foldl State.storeReg s = t
    intro ih1 ih2 he hc
    have hb := fun x => byteAt_storeAtI n (t.reg (BitVec.ofNat 4 n)) x hc
    have hi : t.i = s.i := by rw [he]
    have hcfg : t.cfg = s.cfg := by rw [he]
    have hr : ∀ r, t.reg r = s.reg r := by intro r; rw [he]; rfl
    rw [hi, hcfg] at hb
    refine ⟨fun k hk hw => ?_, fun a ha => ?_⟩
    · show (t.storeAtI n _).byteAt _ = _
      rw [hb]
      by_cases e : k = n
      · subst e; rw [if_pos ⟨rfl, hw⟩, hr]
      · rw [if_neg (fun hx => e (by omega)), ih1 k (by omega) hw]
    · show (t.storeAtI n _).byteAt _ = _
      rw [hb, if_neg, ih2 a (fun k hk => ha k (by omega))]
      rintro ⟨e, hw⟩
      rw [← e, ha n (by omega) e] at hw
      exact absurd hw (by decide)

/-- The loop of LoadIntoRegs changes the registers only: V[k] is the byte at I + k, for each k below the
count. -/
theorem loadRegs_spec {n : Nat} (hn : n ≤ 16) (s : State) :
    (List.range n).foldl State.loadReg s =
      { s with v := ((List.range n).foldl State.loadReg s).v } ∧
    ∀ r : Nibble, ((List.range n).foldl State.loadReg s).reg r =
      if r.toNat < n then s.byteAt ((s.i.toNat + r.toNat) % 4096) else s.reg r := by
  induction n with
  | zero => exact ⟨rfl, fun r => by rw [if_neg (Nat.not_lt_zero _)]; rfl⟩
  | succ n ih =>
    obtain ⟨ih1, ih2⟩ := ih (by omega)
    rw [List.range_succ, List.foldl_append]
    simp only [List.foldl_cons, List.foldl_nil]
    revert ih1 ih2
    generalize (List.range n).foldl State.loadReg s = t
    intro ih1 ih2
    refine ⟨by unfold State.loadReg; rw [ih1]; rfl, fun r => ?_⟩
    have hm : t.memRead (t.i + BitVec.ofNat 16 n) = s.byteAt ((s.i.toNat + n) % 4096) := by
      rw [ih1]; simp only [State.memRead, maskAddr_add]; rfl
    unfold State.loadReg
    rw [reg_setReg, hm, ih2]
    by_cases e : r = BitVec.ofNat 4 n
    · rw [if_pos e, e, toNat_regIndex (by omega), if_pos (Nat.lt_succ_self n)]
    · have : r.toNat ≠ n := fun h => e (by rw [← h]; simp)
      rw [if_neg e]
      by_cases hlt : r.toNat < n
      · rw [if_pos hlt, if_pos (by omega)]
      · rw [if_neg hlt, if_neg (by omega)]

/-- The digits LoadDigits stores, in numbers (R141). -/
theorem toNat_decimalDigit (v : Byte) (k : Nat) : (decimalDigit v k).toNat =
    if k = 0 then v.toNat / 100 else if k = 1 then v.toNat / 10 % 10 else v.toNat % 10 := by
  have := v.isLt
  unfold decimalDigit
  split
  · rw [if_pos rfl, BitVec.toNat_ofNat]; omega
  · rw [if_neg (by decide), if_pos rfl, BitVec.toNat_ofNat]; omega
  · rename_i h0 h1; rw [if_neg h0, if_neg h1, BitVec.toNat_ofNat]; omega

theorem blockCount_le (b : BlockCopyBound) (x : Nibble) : blockCount b x ≤ 16 := by
  have := x.isLt
  cases b <;> simp only [blockCount] <;> omega

/-! ### The sprite's rows (R124) -/

theorem length_spriteRows (s : State) (n : Nibble) : (s.spriteRows n).length = n.toNat := by
  simp only [State.spriteRows, List.length_map, List.length_range]

theorem getElem_spriteRows (s : State) (n : Nibble) (r : Nat) (h : r < (s.spriteRows n).length) :
    (s.spriteRows n)[r] = s.byteAt ((s.i.toNat + r) % 4096) := by
  simp only [State.spriteRows, List.getElem_map, List.getElem_range, State.memRead, maskAddr_add]

end Sys2Proof.Machine
end

