-- ==== Sys2Proof/Laws/Decode.lean ====
section
/-! SUPPORT. The fields of encoded words, and words from their fields (30_encoding.md R64, R73). -/

namespace Sys2Proof

/-! ### The fields of the word each format encodes (R73) -/

theorem fieldGroup_encodeXKK (b : Word) (x : Nibble) (kk : Byte) : fieldGroup (encodeXKK b x kk) = fieldGroup b := by
  apply BitVec.eq_of_getLsbD_eq; intro j hj
  interval_cases j <;> simp [fieldGroup, encodeXKK]

theorem fieldX_encodeXKK (b : Word) (x : Nibble) (kk : Byte) : fieldX (encodeXKK b x kk) = fieldX b ||| x := by
  apply BitVec.eq_of_getLsbD_eq; intro j hj
  interval_cases j <;> simp [fieldX, encodeXKK]

theorem fieldKK_encodeXKK (b : Word) (x : Nibble) (kk : Byte) : fieldKK (encodeXKK b x kk) = fieldKK b ||| kk := by
  apply BitVec.eq_of_getLsbD_eq; intro j hj
  interval_cases j <;> simp [fieldKK, encodeXKK]

theorem fieldGroup_encodeAddr (b : Word) (nnn : Addr) : fieldGroup (encodeAddr b nnn) = fieldGroup b := by
  apply BitVec.eq_of_getLsbD_eq; intro j hj
  interval_cases j <;> simp [fieldGroup, encodeAddr]

theorem fieldNNN_encodeAddr (b : Word) (nnn : Addr) : fieldNNN (encodeAddr b nnn) = fieldNNN b ||| nnn := by
  apply BitVec.eq_of_getLsbD_eq; intro j hj
  interval_cases j <;> simp [fieldNNN, encodeAddr]

theorem fieldGroup_encodeXY (b : Word) (x y : Nibble) : fieldGroup (encodeXY b x y) = fieldGroup b := by
  apply BitVec.eq_of_getLsbD_eq; intro j hj
  interval_cases j <;> simp [fieldGroup, encodeXY]

theorem fieldX_encodeXY (b : Word) (x y : Nibble) : fieldX (encodeXY b x y) = fieldX b ||| x := by
  apply BitVec.eq_of_getLsbD_eq; intro j hj
  interval_cases j <;> simp [fieldX, encodeXY]

theorem fieldY_encodeXY (b : Word) (x y : Nibble) : fieldY (encodeXY b x y) = fieldY b ||| y := by
  apply BitVec.eq_of_getLsbD_eq; intro j hj
  interval_cases j <;> simp [fieldY, encodeXY]

theorem fieldN_encodeXY (b : Word) (x y : Nibble) : fieldN (encodeXY b x y) = fieldN b := by
  apply BitVec.eq_of_getLsbD_eq; intro j hj
  interval_cases j <;> simp [fieldN, encodeXY]

theorem fieldGroup_encodeXYN (b : Word) (x y n : Nibble) : fieldGroup (encodeXYN b x y n) = fieldGroup b := by
  apply BitVec.eq_of_getLsbD_eq; intro j hj
  interval_cases j <;> simp [fieldGroup, encodeXYN]

theorem fieldX_encodeXYN (b : Word) (x y n : Nibble) : fieldX (encodeXYN b x y n) = fieldX b ||| x := by
  apply BitVec.eq_of_getLsbD_eq; intro j hj
  interval_cases j <;> simp [fieldX, encodeXYN]

theorem fieldY_encodeXYN (b : Word) (x y n : Nibble) : fieldY (encodeXYN b x y n) = fieldY b ||| y := by
  apply BitVec.eq_of_getLsbD_eq; intro j hj
  interval_cases j <;> simp [fieldY, encodeXYN]

theorem fieldN_encodeXYN (b : Word) (x y n : Nibble) : fieldN (encodeXYN b x y n) = fieldN b ||| n := by
  apply BitVec.eq_of_getLsbD_eq; intro j hj
  interval_cases j <;> simp [fieldN, encodeXYN]

theorem fieldGroup_encodeX (b : Word) (x : Nibble) : fieldGroup (encodeX b x) = fieldGroup b := by
  apply BitVec.eq_of_getLsbD_eq; intro j hj
  interval_cases j <;> simp [fieldGroup, encodeX]

theorem fieldX_encodeX (b : Word) (x : Nibble) : fieldX (encodeX b x) = fieldX b ||| x := by
  apply BitVec.eq_of_getLsbD_eq; intro j hj
  interval_cases j <;> simp [fieldX, encodeX]

theorem fieldKK_encodeX (b : Word) (x : Nibble) : fieldKK (encodeX b x) = fieldKK b := by
  apply BitVec.eq_of_getLsbD_eq; intro j hj
  interval_cases j <;> simp [fieldKK, encodeX]

/-! ### A word is its fields (R64) -/

theorem toNat_fieldGroup (w : Word) : (fieldGroup w).toNat = w.toNat / 4096 := by
  have := w.isLt
  simp only [fieldGroup, BitVec.extractLsb'_toNat, Nat.shiftRight_eq_div_pow]; omega

theorem toNat_fieldX (w : Word) : (fieldX w).toNat = w.toNat / 256 % 16 := by
  simp only [fieldX, BitVec.extractLsb'_toNat, Nat.shiftRight_eq_div_pow]

theorem toNat_fieldY (w : Word) : (fieldY w).toNat = w.toNat / 16 % 16 := by
  simp only [fieldY, BitVec.extractLsb'_toNat, Nat.shiftRight_eq_div_pow]

theorem toNat_fieldN (w : Word) : (fieldN w).toNat = w.toNat % 16 := by
  simp only [fieldN, BitVec.extractLsb'_toNat, Nat.shiftRight_eq_div_pow]; omega

theorem toNat_fieldKK (w : Word) : (fieldKK w).toNat = w.toNat % 256 := by
  simp only [fieldKK, BitVec.extractLsb'_toNat, Nat.shiftRight_eq_div_pow]; omega

theorem toNat_fieldNNN (w : Word) : (fieldNNN w).toNat = w.toNat % 4096 := by
  simp only [fieldNNN, BitVec.extractLsb'_toNat, Nat.shiftRight_eq_div_pow]; omega

theorem word_ext_nnn {v w : Word} (h1 : fieldGroup v = fieldGroup w) (h2 : fieldNNN v = fieldNNN w) :
    v = w := by
  rw [← BitVec.toNat_inj] at h1 h2 ⊢
  rw [toNat_fieldGroup, toNat_fieldGroup] at h1
  rw [toNat_fieldNNN, toNat_fieldNNN] at h2
  omega

theorem word_ext_kk {v w : Word} (h1 : fieldGroup v = fieldGroup w) (h2 : fieldX v = fieldX w)
    (h3 : fieldKK v = fieldKK w) : v = w := by
  rw [← BitVec.toNat_inj] at h1 h2 h3 ⊢
  rw [toNat_fieldGroup, toNat_fieldGroup] at h1
  rw [toNat_fieldX, toNat_fieldX] at h2
  rw [toNat_fieldKK, toNat_fieldKK] at h3
  omega

theorem word_ext_nibbles {v w : Word} (h1 : fieldGroup v = fieldGroup w) (h2 : fieldX v = fieldX w)
    (h3 : fieldY v = fieldY w) (h4 : fieldN v = fieldN w) : v = w := by
  rw [← BitVec.toNat_inj] at h1 h2 h3 h4 ⊢
  rw [toNat_fieldGroup, toNat_fieldGroup] at h1
  rw [toNat_fieldX, toNat_fieldX] at h2
  rw [toNat_fieldY, toNat_fieldY] at h3
  rw [toNat_fieldN, toNat_fieldN] at h4
  omega

/-! ### The fields of a word written as a pattern of R68, from the left -/

theorem toNat_append {m n : Nat} (a : BitVec m) (b : BitVec n) :
    (a ++ b).toNat = a.toNat * 2 ^ n + b.toNat := by
  rw [BitVec.toNat_append, ← Nat.shiftLeft_add_eq_or_of_lt b.isLt, Nat.shiftLeft_eq]

theorem fields_nnn (g : Nibble) (nnn : Addr) :
    fieldGroup (g ++ nnn) = g ∧ fieldNNN (g ++ nnn) = nnn := by
  have h : BitVec.toNat (w := 16) (g ++ nnn) = g.toNat * 4096 + nnn.toNat := toNat_append g nnn
  have := nnn.isLt
  refine ⟨BitVec.eq_of_toNat_eq ?_, BitVec.eq_of_toNat_eq ?_⟩
  · rw [toNat_fieldGroup, h]; omega
  · rw [toNat_fieldNNN, h]; omega

theorem fields_xkk (g x : Nibble) (kk : Byte) :
    fieldGroup (g ++ x ++ kk) = g ∧ fieldX (g ++ x ++ kk) = x ∧ fieldKK (g ++ x ++ kk) = kk := by
  have h : BitVec.toNat (w := 16) (g ++ x ++ kk) = (g.toNat * 16 + x.toNat) * 256 + kk.toNat :=
    (toNat_append (g ++ x) kk).trans (by rw [toNat_append]; rfl)
  have := x.isLt; have := kk.isLt; have := g.isLt
  refine ⟨BitVec.eq_of_toNat_eq ?_, BitVec.eq_of_toNat_eq ?_, BitVec.eq_of_toNat_eq ?_⟩
  · rw [toNat_fieldGroup, h]; omega
  · rw [toNat_fieldX, h]; omega
  · rw [toNat_fieldKK, h]; omega

theorem fields_xyn (g x y n : Nibble) :
    fieldGroup (g ++ x ++ y ++ n) = g ∧ fieldX (g ++ x ++ y ++ n) = x ∧
    fieldY (g ++ x ++ y ++ n) = y ∧ fieldN (g ++ x ++ y ++ n) = n := by
  have h : BitVec.toNat (w := 16) (g ++ x ++ y ++ n) =
      ((g.toNat * 16 + x.toNat) * 16 + y.toNat) * 16 + n.toNat :=
    (toNat_append (g ++ x ++ y) n).trans (by rw [toNat_append, toNat_append]; rfl)
  have := x.isLt; have := y.isLt; have := n.isLt; have := g.isLt
  refine ⟨BitVec.eq_of_toNat_eq ?_, BitVec.eq_of_toNat_eq ?_, BitVec.eq_of_toNat_eq ?_,
    BitVec.eq_of_toNat_eq ?_⟩
  · rw [toNat_fieldGroup, h]; omega
  · rw [toNat_fieldX, h]; omega
  · rw [toNat_fieldY, h]; omega
  · rw [toNat_fieldN, h]; omega
/-! ### Encoding the fields of a word gives the word -/

theorem encodeAddr_fields {w b : Word} (hg : fieldGroup w = fieldGroup b) (hb : fieldNNN b = 0) :
    encodeAddr b (fieldNNN w) = w :=
  word_ext_nnn (by rw [fieldGroup_encodeAddr, hg]) (by rw [fieldNNN_encodeAddr, hb]; simp)

theorem encodeXKK_fields {w b : Word} (hg : fieldGroup w = fieldGroup b) (hx : fieldX b = 0)
    (hk : fieldKK b = 0) : encodeXKK b (fieldX w) (fieldKK w) = w :=
  word_ext_kk (by rw [fieldGroup_encodeXKK, hg]) (by rw [fieldX_encodeXKK, hx]; simp)
    (by rw [fieldKK_encodeXKK, hk]; simp)

theorem encodeXY_fields {w b : Word} (hg : fieldGroup w = fieldGroup b) (hx : fieldX b = 0)
    (hy : fieldY b = 0) (hn : fieldN w = fieldN b) : encodeXY b (fieldX w) (fieldY w) = w :=
  word_ext_nibbles (by rw [fieldGroup_encodeXY, hg]) (by rw [fieldX_encodeXY, hx]; simp)
    (by rw [fieldY_encodeXY, hy]; simp) (by rw [fieldN_encodeXY, hn])

theorem encodeXYN_fields {w b : Word} (hg : fieldGroup w = fieldGroup b) (hx : fieldX b = 0)
    (hy : fieldY b = 0) (hn : fieldN b = 0) :
    encodeXYN b (fieldX w) (fieldY w) (fieldN w) = w :=
  word_ext_nibbles (by rw [fieldGroup_encodeXYN, hg]) (by rw [fieldX_encodeXYN, hx]; simp)
    (by rw [fieldY_encodeXYN, hy]; simp) (by rw [fieldN_encodeXYN, hn]; simp)

theorem encodeX_fields {w b : Word} (hg : fieldGroup w = fieldGroup b) (hx : fieldX b = 0)
    (hk : fieldKK w = fieldKK b) : encodeX b (fieldX w) = w :=
  word_ext_kk (by rw [fieldGroup_encodeX, hg]) (by rw [fieldX_encodeX, hx]; simp)
    (by rw [fieldKK_encodeX, hk])

/-! ### The decoder, one opcode group at a time (R68, R70) -/

theorem nibble_cases (x : Nibble) : x = 0x0 ∨ x = 0x1 ∨ x = 0x2 ∨ x = 0x3 ∨ x = 0x4 ∨ x = 0x5 ∨ x = 0x6 ∨
    x = 0x7 ∨ x = 0x8 ∨ x = 0x9 ∨ x = 0xA ∨ x = 0xB ∨ x = 0xC ∨ x = 0xD ∨ x = 0xE ∨ x = 0xF := by
  revert x; decide

section
variable {m : SysMode} {w : Word}

theorem decodeWord_group0 (h : fieldGroup w = 0x0) :
    decodeWord m w = decodeGroup0 m w := by
  unfold decodeWord; rw [h]; rfl

theorem decodeWord_group1 (h : fieldGroup w = 0x1) :
    decodeWord m w = .ok (.jump (fieldNNN w)) := by
  unfold decodeWord; rw [h]; rfl

theorem decodeWord_group2 (h : fieldGroup w = 0x2) :
    decodeWord m w = .ok (.call (fieldNNN w)) := by
  unfold decodeWord; rw [h]; rfl

theorem decodeWord_group3 (h : fieldGroup w = 0x3) :
    decodeWord m w = .ok (.skipEqByte (fieldX w) (fieldKK w)) := by
  unfold decodeWord; rw [h]; rfl

theorem decodeWord_group4 (h : fieldGroup w = 0x4) :
    decodeWord m w = .ok (.skipNotEqByte (fieldX w) (fieldKK w)) := by
  unfold decodeWord; rw [h]; rfl

theorem decodeWord_group5 (h : fieldGroup w = 0x5) :
    decodeWord m w = if fieldN w = 0 then .ok (.skipEqReg (fieldX w) (fieldY w)) else
      .error (.unknownInstruction w) := by
  unfold decodeWord; rw [h]; rfl

theorem decodeWord_group6 (h : fieldGroup w = 0x6) :
    decodeWord m w = .ok (.loadByte (fieldX w) (fieldKK w)) := by
  unfold decodeWord; rw [h]; rfl

theorem decodeWord_group7 (h : fieldGroup w = 0x7) :
    decodeWord m w = .ok (.addByte (fieldX w) (fieldKK w)) := by
  unfold decodeWord; rw [h]; rfl

theorem decodeWord_group8 (h : fieldGroup w = 0x8) :
    decodeWord m w = decodeGroup8 w := by
  unfold decodeWord; rw [h]; rfl

theorem decodeWord_group9 (h : fieldGroup w = 0x9) :
    decodeWord m w = if fieldN w = 0 then .ok (.skipNotEqReg (fieldX w) (fieldY w)) else
      .error (.unknownInstruction w) := by
  unfold decodeWord; rw [h]; rfl

theorem decodeWord_groupA (h : fieldGroup w = 0xA) :
    decodeWord m w = .ok (.loadPointer (fieldNNN w)) := by
  unfold decodeWord; rw [h]; rfl

theorem decodeWord_groupB (h : fieldGroup w = 0xB) :
    decodeWord m w = .ok (.jumpOffset (fieldNNN w)) := by
  unfold decodeWord; rw [h]; rfl

theorem decodeWord_groupC (h : fieldGroup w = 0xC) :
    decodeWord m w = .ok (.random (fieldX w) (fieldKK w)) := by
  unfold decodeWord; rw [h]; rfl

theorem decodeWord_groupD (h : fieldGroup w = 0xD) :
    decodeWord m w = .ok (.draw (fieldX w) (fieldY w) (fieldN w)) := by
  unfold decodeWord; rw [h]; rfl

theorem decodeWord_groupE (h : fieldGroup w = 0xE) :
    decodeWord m w = decodeGroupE w := by
  unfold decodeWord; rw [h]; rfl

theorem decodeWord_groupF (h : fieldGroup w = 0xF) :
    decodeWord m w = decodeGroupF w := by
  unfold decodeWord; rw [h]; rfl

end

/-- Every refusal names the word (R71). -/
theorem decodeWord_error {m : SysMode} {w : Word} {e : DecodeError} (h : decodeWord m w = .error e) :
    e = .unknownInstruction w := by
  unfold decodeWord decodeGroup0 decodeGroup8 decodeGroupE decodeGroupF at h
  repeat' (first | (split at h) | (cases h; done) | (cases h; rfl))

end Sys2Proof
end

