-- ==== Sys2Proof/Laws/Display.lean ====
section
/-! SUPPORT. The display: a plot is a list of toggles, and what toggles do to the cells and to the collision
(43_display.md R119-R122). -/

namespace Sys2Proof.Machine

/-- A grid of `h` rows of `w` cells (R34). -/
def Display.Shaped (w h : Nat) (g : Display) : Prop := g.length = h ∧ ∀ row ∈ g, row.length = w

theorem displayShaped_iff (s : State) :
    s.DisplayShaped ↔ Display.Shaped s.cfg.displayW s.cfg.displayH s.disp := Iff.rfl

theorem Display.shaped_cleared (w h : Nat) : Display.Shaped w h (Display.cleared w h) := by
  refine ⟨by simp [Display.cleared], fun row hr => ?_⟩
  rw [List.eq_of_mem_replicate hr, List.length_replicate]

theorem Display.cell_cleared (w h cx cy : Nat) : (Display.cleared w h).cell cx cy = false := by
  simp only [Display.cell, Display.cleared, List.getD_eq_getElem?_getD, List.getElem?_replicate]
  by_cases hy : cy < h
  · rw [if_pos hy, Option.getD_some, List.getElem?_replicate]; split <;> rfl
  · rw [if_neg hy]; rfl

/-- A toggle keeps the grid's dimensions. -/
theorem Display.shaped_toggle {w h : Nat} {g : Display} (cx cy : Nat) (hg : Display.Shaped w h g) :
    Display.Shaped w h (g.toggle cx cy) := by
  refine ⟨by simp [Display.toggle, hg.1], fun row hr => ?_⟩
  obtain ⟨n, hn, rfl⟩ := List.getElem_of_mem hr
  simp only [Display.toggle, List.getElem_modify, List.length_modify] at hn ⊢
  have := hg.2 g[n] (List.getElem_mem hn)
  split <;> simp [this]

/-- A toggle changes its own cell and no other (R120). -/
theorem Display.cell_toggle {w h : Nat} {g : Display} {cx cy : Nat} (hg : Display.Shaped w h g)
    (hx : cx < w) (hy : cy < h) (x y : Nat) :
    (g.toggle cx cy).cell x y = (g.cell x y ^^ decide (x = cx ∧ y = cy)) := by
  have hl := hg.1
  by_cases e : cy = y
  · subst e
    have hr : (g[cy]'(by omega)).length = w := hg.2 _ (List.getElem_mem _)
    by_cases e' : cx = x
    · subst e'
      simp [Display.cell, Display.toggle, List.getD_eq_getElem?_getD,
        List.getElem?_eq_getElem (show cy < g.length by omega),
        List.getElem?_eq_getElem (show cx < (g[cy]'(by omega)).length by omega)]
    · simp [Display.cell, Display.toggle, List.getD_eq_getElem?_getD,
        List.getElem?_eq_getElem (show cy < g.length by omega), e', Ne.symm e']
  · simp [Display.cell, Display.toggle, List.getD_eq_getElem?_getD, e, Ne.symm e]

/-- Two grids of the same dimensions with the same cells are equal. -/
theorem Display.ext_cells {w h : Nat} {g g' : Display} (hg : Display.Shaped w h g)
    (hg' : Display.Shaped w h g') (hc : ∀ x y, g.cell x y = g'.cell x y) : g = g' := by
  apply List.ext_getElem (by rw [hg.1, hg'.1])
  intro y h1 h2
  have r1 := hg.2 _ (List.getElem_mem h1)
  have r2 := hg'.2 _ (List.getElem_mem h2)
  apply List.ext_getElem (by rw [r1, r2])
  intro x h3 h4
  have := hc x y
  simpa [Display.cell, List.getD_eq_getElem?_getD, List.getElem?_eq_getElem h1, List.getElem?_eq_getElem h2,
    List.getElem?_eq_getElem h3, List.getElem?_eq_getElem h4] using this

/-! ### A plot as a list of toggles -/

/-- One toggle of a plot: the collision so far and the grid (R120). -/
def toggleStep (acc : Bool × Display) (c : Nat × Nat) : Bool × Display :=
  (acc.1 || acc.2.cell c.1 c.2, acc.2.toggle c.1 c.2)

/-- The cells that one row byte toggles, left to right. -/
def rowToggles (w h ox oy : Nat) (row : Byte) : List (Nat × Nat) :=
  ((List.range 8).filter fun b => row.getLsbD (7 - b)).map fun b => ((ox + b) % w, oy % h)

/-- The cells that a sprite toggles, in order. -/
def spriteToggles (w h ox : Nat) : Nat → List Byte → List (Nat × Nat)
  | _, [] => []
  | oy, row :: rows => rowToggles w h ox oy row ++ spriteToggles w h ox (oy + 1) rows

theorem plotRow_eq (w h ox oy : Nat) (row : Byte) (acc : Bool × Display) :
    plotRow w h ox oy row acc = (rowToggles w h ox oy row).foldl toggleStep acc := by
  unfold plotRow rowToggles
  rw [List.foldl_map, List.foldl_filter]
  rfl

theorem plotRows_eq (w h ox : Nat) (rows : List Byte) (oy : Nat) (acc : Bool × Display) :
    plotRows w h ox oy rows acc = (spriteToggles w h ox oy rows).foldl toggleStep acc := by
  induction rows generalizing oy acc with
  | nil => rfl
  | cons row rows ih => simp only [plotRows, spriteToggles, List.foldl_append, plotRow_eq, ih]

/-- plot_sprite does the sprite's toggles one by one (R120). -/
theorem plotSprite_eq (w h ox oy : Nat) (rows : List Byte) (g : Display) :
    plotSprite w h ox oy rows g = (spriteToggles w h ox oy rows).foldl toggleStep (false, g) :=
  plotRows_eq w h ox rows oy (false, g)

theorem mem_spriteToggles {w h ox : Nat} {rows : List Byte} {oy cx cy : Nat} :
    (cx, cy) ∈ spriteToggles w h ox oy rows ↔ SpriteHits w h ox oy rows cx cy := by
  induction rows generalizing oy with
  | nil => simp [spriteToggles, SpriteHits]
  | cons row rows ih =>
    simp only [spriteToggles, List.mem_append, ih]
    constructor
    · rintro (hm | ⟨r, b, hr, hb, hbit, hx, hy⟩)
      · simp only [rowToggles, List.mem_map, List.mem_filter, List.mem_range, Prod.mk.injEq] at hm
        obtain ⟨b, ⟨hb, hbit⟩, hx, hy⟩ := hm
        exact ⟨0, b, by simp, hb, hbit, hx.symm, hy.symm⟩
      · exact ⟨r + 1, b, by simpa using hr, hb, hbit, hx, by rw [hy]; congr 1; omega⟩
    · rintro ⟨r, b, hr, hb, hbit, hx, hy⟩
      cases r with
      | zero =>
        left
        simp only [rowToggles, List.mem_map, List.mem_filter, List.mem_range, Prod.mk.injEq]
        exact ⟨b, ⟨hb, hbit⟩, hx.symm, hy.symm⟩
      | succ r =>
        right
        refine ⟨r, b, by simpa using hr, hb, hbit, hx, by rw [hy]; congr 1; omega⟩

theorem spriteToggles_lt {w h ox oy : Nat} {rows : List Byte} (hw : 0 < w) (hh : 0 < h) {c : Nat × Nat}
    (hc : c ∈ spriteToggles w h ox oy rows) : c.1 < w ∧ c.2 < h := by
  obtain ⟨r, b, -, -, -, hx, hy⟩ := mem_spriteToggles.1 hc
  exact ⟨hx ▸ Nat.mod_lt _ hw, hy ▸ Nat.mod_lt _ hh⟩

/-- With DISPLAY_W ≥ 8 and at most DISPLAY_H rows no cell is toggled twice by one plot (R122). -/
theorem spriteToggles_nodup {w h ox : Nat} {rows : List Byte} {oy : Nat} (hw : 8 ≤ w)
    (hh : rows.length ≤ h) : (spriteToggles w h ox oy rows).Nodup := by
  induction rows generalizing oy with
  | nil => exact List.nodup_nil
  | cons row rows ih =>
    simp only [List.length_cons] at hh
    refine List.Nodup.append ?_ (ih (by omega)) ?_
    · refine List.Nodup.map_on ?_ (List.nodup_range.filter _)
      intro a ha b hb hab
      simp only [List.mem_filter, List.mem_range] at ha hb
      have e := (Prod.mk.injEq _ _ _ _).mp hab |>.1
      have : (ox + a) % w = (ox + b) % w := e
      have h1 : a % w = b % w := Nat.ModEq.add_left_cancel' ox this
      rwa [Nat.mod_eq_of_lt (by omega), Nat.mod_eq_of_lt (by omega)] at h1
    · rintro ⟨cx, cy⟩ h1 h2
      simp only [rowToggles, List.mem_map, List.mem_filter, List.mem_range, Prod.mk.injEq] at h1
      obtain ⟨-, -, -, e1⟩ := h1
      obtain ⟨r, -, hr, -, -, -, e2⟩ := mem_spriteToggles.1 h2
      rw [← e1] at e2
      have h3 : 0 % h = (1 + r) % h := by
        apply Nat.ModEq.add_left_cancel' oy
        show (oy + 0) % h = (oy + (1 + r)) % h
        rw [Nat.add_zero, e2]; congr 1; omega
      rw [Nat.mod_eq_of_lt (by omega : 1 + r < h), Nat.zero_mod] at h3
      omega

section
variable {w h : Nat}

theorem shaped_foldl_toggle {cs : List (Nat × Nat)} {acc : Bool × Display}
    (hg : Display.Shaped w h acc.2) : Display.Shaped w h (cs.foldl toggleStep acc).2 := by
  induction cs generalizing acc with
  | nil => exact hg
  | cons c cs ih => exact ih (Display.shaped_toggle c.1 c.2 hg)

/-- A plot keeps the grid's dimensions. -/
theorem Display.shaped_plot {g : Display} (ox oy : Nat) (rows : List Byte) (hg : Display.Shaped w h g) :
    Display.Shaped w h (plotSprite w h ox oy rows g).2 := by
  rw [plotSprite_eq]; exact shaped_foldl_toggle hg

/-- After toggles a cell is what it was, XOR the parity of its toggles. -/
theorem cell_foldl_toggle {cs : List (Nat × Nat)} {acc : Bool × Display}
    (hg : Display.Shaped w h acc.2) (hc : ∀ c ∈ cs, c.1 < w ∧ c.2 < h) (x y : Nat) :
    (cs.foldl toggleStep acc).2.cell x y = (acc.2.cell x y ^^ decide (cs.count (x, y) % 2 = 1)) := by
  induction cs generalizing acc with
  | nil => simp
  | cons c cs ih =>
    have h0 := hc c (by simp)
    rw [List.foldl_cons, ih (Display.shaped_toggle c.1 c.2 hg) (fun d hd => hc d (by simp [hd]))]
    simp only [toggleStep]
    rw [Display.cell_toggle hg h0.1 h0.2, Bool.xor_assoc, List.count_cons]
    congr 1
    by_cases e : c = (x, y)
    · subst e
      simp only [and_self, decide_true, beq_self_eq_true, if_true, Bool.true_xor]
      rw [← decide_not]; congr 1; apply propext; omega
    · have : ¬ (x = c.1 ∧ y = c.2) := fun ⟨a, b⟩ => e (by rw [a, b])
      simp [this, e]

/-- Without a double toggle, the collision is that some toggled cell was set before (R122). -/
theorem collision_foldl_toggle {cs : List (Nat × Nat)} {acc : Bool × Display}
    (hg : Display.Shaped w h acc.2) (hc : ∀ c ∈ cs, c.1 < w ∧ c.2 < h) (hn : cs.Nodup) :
    (cs.foldl toggleStep acc).1 = (acc.1 || cs.any fun c => acc.2.cell c.1 c.2) := by
  induction cs generalizing acc with
  | nil => simp
  | cons c cs ih =>
    have h0 := hc c (by simp)
    obtain ⟨hn1, hn2⟩ := List.nodup_cons.1 hn
    rw [List.foldl_cons, ih (Display.shaped_toggle c.1 c.2 hg) (fun d hd => hc d (by simp [hd])) hn2]
    simp only [toggleStep, List.any_cons, Bool.or_assoc]
    have key : ∀ d ∈ cs, (acc.2.toggle c.1 c.2).cell d.1 d.2 = acc.2.cell d.1 d.2 := by
      intro d hd
      rw [Display.cell_toggle hg h0.1 h0.2]
      have : ¬ (d.1 = c.1 ∧ d.2 = c.2) := fun ⟨a, b⟩ => hn1 (Prod.ext a b ▸ hd)
      simp [this]
    congr 2
    rw [Bool.eq_iff_iff]
    simp only [List.any_eq_true]
    exact exists_congr fun d => and_congr_right fun hd => by rw [key d hd]

end

/-! ### plot_sprite on a grid of any size -/

/-- The toggles of a sprite, row by row from the first, are those listed by their row numbers. -/
theorem spriteToggles_eq (w h ox oy : Nat) (rows : List Byte) :
    spriteToggles w h ox oy rows = toggledCells w h ox oy rows := by
  induction rows generalizing oy with
  | nil => rfl
  | cons row rows ih =>
    unfold toggledCells
    rw [List.length_cons, List.range_succ_eq_map (n := rows.length), List.flatMap_cons, List.flatMap_map]
    simp only [spriteToggles, ih (oy + 1)]
    refine congrArg₂ (· ++ ·) rfl ?_
    refine congrArg (fun f => List.flatMap f _) (funext fun r => ?_)
    rw [show oy + 1 + r = oy + (r + 1) by omega]
    rfl

/-- The collision of toggles taken one by one (R120, R122). -/
theorem collision_foldl_toggle_iff {w h : Nat} (cs : List (Nat × Nat)) {acc : Bool × Display}
    (hg : Display.Shaped w h acc.2) (hc : ∀ c ∈ cs, c.1 < w ∧ c.2 < h) :
    (cs.foldl toggleStep acc).1 = true ↔ acc.1 = true ∨ TurnsACellClear acc.2 cs := by
  induction cs using List.reverseRecOn with
  | nil => simp [TurnsACellClear]
  | append_singleton cs c ih =>
    have hc' : ∀ d ∈ cs, d.1 < w ∧ d.2 < h := fun d hd => hc d (by simp [hd])
    rw [List.foldl_append]
    simp only [List.foldl_cons, List.foldl_nil, toggleStep, Bool.or_eq_true]
    rw [ih hc', cell_foldl_toggle hg hc', or_assoc]
    refine or_congr Iff.rfl ?_
    unfold TurnsACellClear
    constructor
    · rintro (⟨k, hk, h1⟩ | h1)
      · refine ⟨k, by simp; omega, ?_⟩
        rw [List.getElem_append_left hk, List.take_append_of_le_length (by omega)]; exact h1
      · refine ⟨cs.length, by simp, ?_⟩
        simpa using h1
    · rintro ⟨k, hk, h1⟩
      rw [List.length_append, List.length_singleton] at hk
      by_cases e : k < cs.length
      · left; refine ⟨k, e, ?_⟩
        rwa [List.getElem_append_left e, List.take_append_of_le_length (by omega)] at h1
      · right
        obtain rfl : k = cs.length := by omega
        simpa using h1

/-- Toggles outside the grid change nothing, and such a cell reads as 0. -/
theorem foldl_toggle_empty {w h : Nat} (hz : w = 0 ∨ h = 0) (cs : List (Nat × Nat)) {acc : Bool × Display}
    (hg : Display.Shaped w h acc.2) : cs.foldl toggleStep acc = acc := by
  have hrow : ∀ y, acc.2.getD y [] = [] := by
    intro y
    rw [List.getD_eq_getElem?_getD]
    by_cases hy : y < acc.2.length
    · rw [List.getElem?_eq_getElem hy, Option.getD_some]
      rcases hz with rfl | rfl
      · exact List.eq_nil_of_length_eq_zero (hg.2 _ (List.getElem_mem hy))
      · rw [hg.1] at hy; omega
    · rw [List.getElem?_eq_none (by omega)]; rfl
  have hstep : ∀ c, toggleStep acc c = acc := by
    intro c
    have h1 : acc.2.cell c.1 c.2 = false := by simp only [Display.cell, hrow]; rfl
    have h2 : acc.2.toggle c.1 c.2 = acc.2 := by
      refine List.ext_getElem (by simp [Display.toggle]) fun n hn hn' => ?_
      have e := hrow n
      rw [List.getD_eq_getElem?_getD, List.getElem?_eq_getElem hn', Option.getD_some] at e
      simp only [Display.toggle, List.getElem_modify]
      split
      · simp [e]
      · rfl
    simp only [toggleStep, h1, h2, Bool.or_false]
  induction cs with
  | nil => rfl
  | cons c cs ih => rw [List.foldl_cons, hstep, ih]

/-! ### plot_sprite on a grid of the hardware's kind -/

/-- What a plot does to each cell, for DISPLAY_W ≥ 8 and at most DISPLAY_H rows (R120-R122). -/
theorem cell_plotSprite {w h ox oy : Nat} {rows : List Byte} {g : Display} (hg : Display.Shaped w h g)
    (hw : 8 ≤ w) (hh : rows.length ≤ h) (hp : 0 < h) (x y : Nat) :
    (plotSprite w h ox oy rows g).2.cell x y = true ↔
      (g.cell x y = true ↔ ¬ SpriteHits w h ox oy rows x y) := by
  rw [plotSprite_eq, cell_foldl_toggle hg (fun c hc => spriteToggles_lt (by omega) hp hc)]
  have hn := spriteToggles_nodup (ox := ox) (oy := oy) hw hh
  rw [← mem_spriteToggles]
  by_cases hm : (x, y) ∈ spriteToggles w h ox oy rows
  · rw [List.count_eq_one_of_mem hn hm]; simp [hm]
  · rw [List.count_eq_zero_of_not_mem hm]; simp [hm]

/-- The collision of a plot, for DISPLAY_W ≥ 8 and at most DISPLAY_H rows (R122). -/
theorem collision_plotSprite {w h ox oy : Nat} {rows : List Byte} {g : Display}
    (hg : Display.Shaped w h g) (hw : 8 ≤ w) (hh : rows.length ≤ h) (hp : 0 < h) :
    (plotSprite w h ox oy rows g).1 = true ↔
      ∃ x y, SpriteHits w h ox oy rows x y ∧ g.cell x y = true := by
  rw [plotSprite_eq, collision_foldl_toggle hg (fun c hc => spriteToggles_lt (by omega) hp hc)
    (spriteToggles_nodup hw hh)]
  simp only [Bool.false_or, List.any_eq_true, Prod.exists, mem_spriteToggles]

end Sys2Proof.Machine
end

