-- ==== Sys2Proof/Laws/Exec.lean ====
section
/-! SUPPORT. What any instruction can do: the fields no instruction writes, the invariants every instruction
keeps, and the outcomes it can have. -/

namespace Sys2Proof.Machine

variable {i : Instr} {s t : State}

theorem drawn_eq (s : State) (x y n : Nibble) :
    s.drawn x y n = plotSprite s.cfg.displayW s.cfg.displayH (s.reg x).toNat (s.reg y).toNat
      (s.spriteRows n) s.disp := rfl

/-- A skip moves pc only, by 2 mod 2^16 or not at all (R98-R102). -/
theorem skipIf_eq (s : State) (c : Bool) :
    s.skipIf c = { s with pc := (s.skipIf c).pc } ∧
    (s.skipIf c).pc.toNat = (s.pc.toNat + if c then 2 else 0) % 65536 := by
  cases c
  · refine ⟨rfl, ?_⟩
    have := s.pc.isLt
    simp only [State.skipIf]; simp; omega
  · exact ⟨rfl, by simp [State.skipIf]⟩

/-- The fields no instruction writes. -/
structure Untouched (s t : State) : Prop where
  cfg : t.cfg = s.cfg
  keys : t.keys = s.keys
  subStepsDone : t.subStepsDone = s.subStepsDone
  stalledAll : t.stalledAll = s.stalledAll
  report : t.report = s.report
  phase : t.phase = s.phase
  inbox : t.inbox = s.inbox

theorem Untouched.refl (s : State) : Untouched s s := ⟨rfl, rfl, rfl, rfl, rfl, rfl, rfl⟩

theorem Untouched.trans {s t u : State} (h : Untouched s t) (k : Untouched t u) : Untouched s u :=
  ⟨k.1.trans h.1, k.2.trans h.2, k.3.trans h.3, k.4.trans h.4, k.5.trans h.5, k.6.trans h.6, k.7.trans h.7⟩

theorem Untouched.skipIf (s : State) (c : Bool) : Untouched s (s.skipIf c) := by
  cases c <;> exact ⟨rfl, rfl, rfl, rfl, rfl, rfl, rfl⟩

theorem Untouched.writeFlagged (s : State) (x : Nibble) (r : Flagged) :
    Untouched s (s.writeFlagged x r) := by
  rw [(writeFlagged_spec s x r).1]; exact ⟨rfl, rfl, rfl, rfl, rfl, rfl, rfl⟩

theorem Untouched.storeAtI (s : State) (k : Nat) (b : Byte) : Untouched s (s.storeAtI k b) := by
  rw [storeAtI_eq]; exact ⟨rfl, rfl, rfl, rfl, rfl, rfl, rfl⟩

/-- What an outcome that goes on can be: `exec` answers a next state, or refuses a key test above 0xF. -/
theorem exec_outcome (i : Instr) (s : State) :
    (∃ t, exec i s = .next t) ∨
    (exec i s = .refused .keyIndexRefused ∧ s.cfg.keyIndexMode = .refuse ∧
      ∃ x, (i = .skipPressed x ∨ i = .skipNotPressed x) ∧ 15 < (s.reg x).toNat) := by
  have key : ∀ x, s.keyTest (s.reg x) = none →
      s.cfg.keyIndexMode = .refuse ∧ 15 < (s.reg x).toNat := by
    intro x h
    unfold State.keyTest at h
    split at h
    · cases h
    · rename_i hgt
      split at h
      · cases h
      · cases h
      · exact ⟨by assumption, by omega⟩
  cases i
  case sys nnn => left; simp only [exec, execSys]; split <;> exact ⟨_, rfl⟩
  case ret => left; simp only [exec, execRet]; split <;> exact ⟨_, rfl⟩
  case call nnn => left; simp only [exec, execCall]; split <;> exact ⟨_, rfl⟩
  case skipPressed x =>
    simp only [exec, execSkipPressed]
    split
    · exact .inl ⟨_, rfl⟩
    · exact .inr ⟨rfl, (key x ‹_›).1, x, .inl rfl, (key x ‹_›).2⟩
  case skipNotPressed x =>
    simp only [exec, execSkipNotPressed]
    split
    · exact .inl ⟨_, rfl⟩
    · exact .inr ⟨rfl, (key x ‹_›).1, x, .inr rfl, (key x ‹_›).2⟩
  all_goals exact .inl ⟨_, rfl⟩

/-- No instruction writes the parameters, the keys, the tick's variables or the life cycle. -/
theorem exec_untouched (h : exec i s = .next t) : Untouched s t := by
  cases i
  case sys nnn =>
    simp only [exec, execSys] at h
    split at h <;> cases h <;> exact ⟨rfl, rfl, rfl, rfl, rfl, rfl, rfl⟩
  case ret =>
    simp only [exec, execRet] at h
    split at h <;> cases h <;> exact ⟨rfl, rfl, rfl, rfl, rfl, rfl, rfl⟩
  case call nnn =>
    simp only [exec, execCall] at h
    split at h <;> cases h <;> exact ⟨rfl, rfl, rfl, rfl, rfl, rfl, rfl⟩
  case skipPressed x =>
    simp only [exec, execSkipPressed] at h
    split at h <;> cases h; exact .skipIf _ _
  case skipNotPressed x =>
    simp only [exec, execSkipNotPressed] at h
    split at h <;> cases h; exact .skipIf _ _
  case loadFromRegs x =>
    simp only [exec, execLoadFromRegs] at h; cases h
    rw [storeRegs_eq]; exact ⟨rfl, rfl, rfl, rfl, rfl, rfl, rfl⟩
  case loadIntoRegs x =>
    simp only [exec, execLoadIntoRegs] at h; cases h
    rw [(loadRegs_spec (blockCount_le _ _) s).1]; exact ⟨rfl, rfl, rfl, rfl, rfl, rfl, rfl⟩
  case loadDigits x =>
    simp only [exec, execLoadDigits] at h; cases h
    exact ((Untouched.storeAtI _ _ _).trans (.storeAtI _ _ _)).trans (.storeAtI _ _ _)
  case add x y => cases h; exact .writeFlagged _ _ _
  case sub x y => cases h; exact .writeFlagged _ _ _
  case subNeg x y => cases h; exact .writeFlagged _ _ _
  case shiftRight x y => cases h; exact .writeFlagged _ _ _
  case shiftLeft x y => cases h; exact .writeFlagged _ _ _
  case skipEqByte x kk => cases h; exact .skipIf _ _
  case skipNotEqByte x kk => cases h; exact .skipIf _ _
  case skipEqReg x y => cases h; exact .skipIf _ _
  case skipNotEqReg x y => cases h; exact .skipIf _ _
  all_goals cases h; exact ⟨rfl, rfl, rfl, rfl, rfl, rfl, rfl⟩

/-! ### The sub-step and runs -/

/-- What FetchExecute does when it goes on (R80, R148). -/
theorem fetchExecute_cases (h : fetchExecute s = .next t) :
    (∃ i, decodeWord s.cfg.sysMode s.fetchWord = .ok i ∧ exec i s.advance = .next t) ∨
    (∃ e, decodeWord s.cfg.sysMode s.fetchWord = .error e ∧
      t = { s with pc := s.pc + 2, run := .halted (.decodeError s.fetchWord) }) := by
  unfold fetchExecute at h
  split at h
  · exact .inl ⟨_, by assumption, h⟩
  · cases h; exact .inr ⟨_, by assumption, rfl⟩

/-- No sub-step writes the parameters, the keys, the tick's variables or the life cycle. -/
theorem subStep_untouched (h : subStep s = .next t) : Untouched s t := by
  have F : ∀ {s t : State}, fetchExecute s = .next t → Untouched s t := by
    intro s t h
    rcases fetchExecute_cases h with ⟨i, -, h⟩ | ⟨e, -, rfl⟩
    · exact Untouched.trans (t := s.advance) ⟨rfl, rfl, rfl, rfl, rfl, rfl, rfl⟩ (exec_untouched h)
    · exact ⟨rfl, rfl, rfl, rfl, rfl, rfl, rfl⟩
  unfold subStep at h
  split at h
  · exact F h
  · exact Untouched.trans (t := takeKey _ _ s) ⟨rfl, rfl, rfl, rfl, rfl, rfl, rfl⟩ (F h)
  all_goals cases h; exact .refl _

theorem run_step (M : Host.Core) (n : Nat) {s t : M.State} (h : M.step s = .next t) :
    M.run (n + 1) s = M.run n t := by
  simp only [Host.Core.run, h]

/-- A run of n + 1 steps is a step and a run of n. -/
theorem core_run_succ (n : Nat) {s t : State} (h : step s = .next t) :
    Sys2Proof.core.run (n + 1) s = Sys2Proof.core.run n t :=
  run_step Sys2Proof.core n h

end Sys2Proof.Machine
end

