-- ==== Sys2Proof/Laws/PerInstr.lean ====
section
/-! SUPPORT. One statement for every operation as syntax: its word selects its own row of the opcode map
(30_encoding.md R68, R73). -/

namespace Sys2Proof.Laws.OpcodeRow

/-- The word encode gives the operation is one its row of R68 selects. -/
def Statement (i : Instr) : Prop := ∃ r ∈ opcodeRows, r.name = i.rowName ∧ r.selects (encode i) = true

theorem selects_addr (s : String) {b m : Word} (nnn : Addr) (hb : b &&& m = b) (hm : m &&& 0x0FFF = 0) :
    (Sys2Proof.OpcodeRow.mk s b m).selects (encodeAddr b nnn) = true := by
  simp only [Sys2Proof.OpcodeRow.selects, encodeAddr, beq_iff_eq]
  apply BitVec.eq_of_getLsbD_eq; intro j hj
  have h1 := congrArg (·.getLsbD j) hb
  have h2 := congrArg (·.getLsbD j) hm
  clear hb hm
  interval_cases j <;> simp_all

theorem selects_xkk (s : String) {b m : Word} (x : Nibble) (kk : Byte) (hb : b &&& m = b) (hm : m &&& 0x0FFF = 0) :
    (Sys2Proof.OpcodeRow.mk s b m).selects (encodeXKK b x kk) = true := by
  simp only [Sys2Proof.OpcodeRow.selects, encodeXKK, beq_iff_eq]
  apply BitVec.eq_of_getLsbD_eq; intro j hj
  have h1 := congrArg (·.getLsbD j) hb
  have h2 := congrArg (·.getLsbD j) hm
  clear hb hm
  interval_cases j <;> simp_all

theorem selects_xy (s : String) {b m : Word} (x y : Nibble) (hb : b &&& m = b) (hm : m &&& 0x0FF0 = 0) :
    (Sys2Proof.OpcodeRow.mk s b m).selects (encodeXY b x y) = true := by
  simp only [Sys2Proof.OpcodeRow.selects, encodeXY, beq_iff_eq]
  apply BitVec.eq_of_getLsbD_eq; intro j hj
  have h1 := congrArg (·.getLsbD j) hb
  have h2 := congrArg (·.getLsbD j) hm
  clear hb hm
  interval_cases j <;> simp_all

theorem selects_xyn (s : String) {b m : Word} (x y n : Nibble) (hb : b &&& m = b) (hm : m &&& 0x0FFF = 0) :
    (Sys2Proof.OpcodeRow.mk s b m).selects (encodeXYN b x y n) = true := by
  simp only [Sys2Proof.OpcodeRow.selects, encodeXYN, beq_iff_eq]
  apply BitVec.eq_of_getLsbD_eq; intro j hj
  have h1 := congrArg (·.getLsbD j) hb
  have h2 := congrArg (·.getLsbD j) hm
  clear hb hm
  interval_cases j <;> simp_all

theorem selects_x (s : String) {b m : Word} (x : Nibble) (hb : b &&& m = b) (hm : m &&& 0x0F00 = 0) :
    (Sys2Proof.OpcodeRow.mk s b m).selects (encodeX b x) = true := by
  simp only [Sys2Proof.OpcodeRow.selects, encodeX, beq_iff_eq]
  apply BitVec.eq_of_getLsbD_eq; intro j hj
  have h1 := congrArg (·.getLsbD j) hb
  have h2 := congrArg (·.getLsbD j) hm
  clear hb hm
  interval_cases j <;> simp_all

theorem sys (nnn : Addr) : Statement (.sys nnn) :=
  ⟨⟨"Sys", 0x0000, 0xF000⟩, by simp [opcodeRows], rfl, selects_addr "Sys" nnn (by decide) (by decide)⟩

theorem clear : Statement .clear :=
  ⟨⟨"Clear", 0x00E0, 0xFFFF⟩, by simp [opcodeRows], rfl, by decide⟩

theorem ret : Statement .ret :=
  ⟨⟨"Return", 0x00EE, 0xFFFF⟩, by simp [opcodeRows], rfl, by decide⟩

theorem jump (nnn : Addr) : Statement (.jump nnn) :=
  ⟨⟨"Jump", 0x1000, 0xF000⟩, by simp [opcodeRows], rfl, selects_addr "Jump" nnn (by decide) (by decide)⟩

theorem call (nnn : Addr) : Statement (.call nnn) :=
  ⟨⟨"Call", 0x2000, 0xF000⟩, by simp [opcodeRows], rfl, selects_addr "Call" nnn (by decide) (by decide)⟩

theorem skipEqByte (x : Nibble) (kk : Byte) : Statement (.skipEqByte x kk) :=
  ⟨⟨"SkipEqByte", 0x3000, 0xF000⟩, by simp [opcodeRows], rfl, selects_xkk "SkipEqByte" x kk (by decide) (by decide)⟩

theorem skipNotEqByte (x : Nibble) (kk : Byte) : Statement (.skipNotEqByte x kk) :=
  ⟨⟨"SkipNotEqByte", 0x4000, 0xF000⟩, by simp [opcodeRows], rfl, selects_xkk "SkipNotEqByte" x kk (by decide) (by decide)⟩

theorem skipEqReg (x : Nibble) (y : Nibble) : Statement (.skipEqReg x y) :=
  ⟨⟨"SkipEqReg", 0x5000, 0xF00F⟩, by simp [opcodeRows], rfl, selects_xy "SkipEqReg" x y (by decide) (by decide)⟩

theorem loadByte (x : Nibble) (kk : Byte) : Statement (.loadByte x kk) :=
  ⟨⟨"LoadByte", 0x6000, 0xF000⟩, by simp [opcodeRows], rfl, selects_xkk "LoadByte" x kk (by decide) (by decide)⟩

theorem addByte (x : Nibble) (kk : Byte) : Statement (.addByte x kk) :=
  ⟨⟨"AddByte", 0x7000, 0xF000⟩, by simp [opcodeRows], rfl, selects_xkk "AddByte" x kk (by decide) (by decide)⟩

theorem loadReg (x : Nibble) (y : Nibble) : Statement (.loadReg x y) :=
  ⟨⟨"LoadReg", 0x8000, 0xF00F⟩, by simp [opcodeRows], rfl, selects_xy "LoadReg" x y (by decide) (by decide)⟩

theorem or (x : Nibble) (y : Nibble) : Statement (.or x y) :=
  ⟨⟨"Or", 0x8001, 0xF00F⟩, by simp [opcodeRows], rfl, selects_xy "Or" x y (by decide) (by decide)⟩

theorem and (x : Nibble) (y : Nibble) : Statement (.and x y) :=
  ⟨⟨"And", 0x8002, 0xF00F⟩, by simp [opcodeRows], rfl, selects_xy "And" x y (by decide) (by decide)⟩

theorem xor (x : Nibble) (y : Nibble) : Statement (.xor x y) :=
  ⟨⟨"Xor", 0x8003, 0xF00F⟩, by simp [opcodeRows], rfl, selects_xy "Xor" x y (by decide) (by decide)⟩

theorem add (x : Nibble) (y : Nibble) : Statement (.add x y) :=
  ⟨⟨"Add", 0x8004, 0xF00F⟩, by simp [opcodeRows], rfl, selects_xy "Add" x y (by decide) (by decide)⟩

theorem sub (x : Nibble) (y : Nibble) : Statement (.sub x y) :=
  ⟨⟨"Sub", 0x8005, 0xF00F⟩, by simp [opcodeRows], rfl, selects_xy "Sub" x y (by decide) (by decide)⟩

theorem shiftRight (x : Nibble) (y : Nibble) : Statement (.shiftRight x y) :=
  ⟨⟨"ShiftRight", 0x8006, 0xF00F⟩, by simp [opcodeRows], rfl, selects_xy "ShiftRight" x y (by decide) (by decide)⟩

theorem subNeg (x : Nibble) (y : Nibble) : Statement (.subNeg x y) :=
  ⟨⟨"SubNeg", 0x8007, 0xF00F⟩, by simp [opcodeRows], rfl, selects_xy "SubNeg" x y (by decide) (by decide)⟩

theorem shiftLeft (x : Nibble) (y : Nibble) : Statement (.shiftLeft x y) :=
  ⟨⟨"ShiftLeft", 0x800E, 0xF00F⟩, by simp [opcodeRows], rfl, selects_xy "ShiftLeft" x y (by decide) (by decide)⟩

theorem skipNotEqReg (x : Nibble) (y : Nibble) : Statement (.skipNotEqReg x y) :=
  ⟨⟨"SkipNotEqReg", 0x9000, 0xF00F⟩, by simp [opcodeRows], rfl, selects_xy "SkipNotEqReg" x y (by decide) (by decide)⟩

theorem loadPointer (nnn : Addr) : Statement (.loadPointer nnn) :=
  ⟨⟨"LoadPointer", 0xA000, 0xF000⟩, by simp [opcodeRows], rfl, selects_addr "LoadPointer" nnn (by decide) (by decide)⟩

theorem jumpOffset (nnn : Addr) : Statement (.jumpOffset nnn) :=
  ⟨⟨"JumpOffset", 0xB000, 0xF000⟩, by simp [opcodeRows], rfl, selects_addr "JumpOffset" nnn (by decide) (by decide)⟩

theorem random (x : Nibble) (kk : Byte) : Statement (.random x kk) :=
  ⟨⟨"Random", 0xC000, 0xF000⟩, by simp [opcodeRows], rfl, selects_xkk "Random" x kk (by decide) (by decide)⟩

theorem draw (x : Nibble) (y : Nibble) (n : Nibble) : Statement (.draw x y n) :=
  ⟨⟨"Draw", 0xD000, 0xF000⟩, by simp [opcodeRows], rfl, selects_xyn "Draw" x y n (by decide) (by decide)⟩

theorem skipPressed (x : Nibble) : Statement (.skipPressed x) :=
  ⟨⟨"SkipPressed", 0xE09E, 0xF0FF⟩, by simp [opcodeRows], rfl, selects_x "SkipPressed" x (by decide) (by decide)⟩

theorem skipNotPressed (x : Nibble) : Statement (.skipNotPressed x) :=
  ⟨⟨"SkipNotPressed", 0xE0A1, 0xF0FF⟩, by simp [opcodeRows], rfl, selects_x "SkipNotPressed" x (by decide) (by decide)⟩

theorem loadFromDT (x : Nibble) : Statement (.loadFromDT x) :=
  ⟨⟨"LoadFromDT", 0xF007, 0xF0FF⟩, by simp [opcodeRows], rfl, selects_x "LoadFromDT" x (by decide) (by decide)⟩

theorem loadKeyboard (x : Nibble) : Statement (.loadKeyboard x) :=
  ⟨⟨"LoadKeyboard", 0xF00A, 0xF0FF⟩, by simp [opcodeRows], rfl, selects_x "LoadKeyboard" x (by decide) (by decide)⟩

theorem loadIntoDT (x : Nibble) : Statement (.loadIntoDT x) :=
  ⟨⟨"LoadIntoDT", 0xF015, 0xF0FF⟩, by simp [opcodeRows], rfl, selects_x "LoadIntoDT" x (by decide) (by decide)⟩

theorem loadIntoST (x : Nibble) : Statement (.loadIntoST x) :=
  ⟨⟨"LoadIntoST", 0xF018, 0xF0FF⟩, by simp [opcodeRows], rfl, selects_x "LoadIntoST" x (by decide) (by decide)⟩

theorem addToPointer (x : Nibble) : Statement (.addToPointer x) :=
  ⟨⟨"AddToPointer", 0xF01E, 0xF0FF⟩, by simp [opcodeRows], rfl, selects_x "AddToPointer" x (by decide) (by decide)⟩

theorem loadFont (x : Nibble) : Statement (.loadFont x) :=
  ⟨⟨"LoadFont", 0xF029, 0xF0FF⟩, by simp [opcodeRows], rfl, selects_x "LoadFont" x (by decide) (by decide)⟩

theorem loadDigits (x : Nibble) : Statement (.loadDigits x) :=
  ⟨⟨"LoadDigits", 0xF033, 0xF0FF⟩, by simp [opcodeRows], rfl, selects_x "LoadDigits" x (by decide) (by decide)⟩

theorem loadFromRegs (x : Nibble) : Statement (.loadFromRegs x) :=
  ⟨⟨"LoadFromRegs", 0xF055, 0xF0FF⟩, by simp [opcodeRows], rfl, selects_x "LoadFromRegs" x (by decide) (by decide)⟩

theorem loadIntoRegs (x : Nibble) : Statement (.loadIntoRegs x) :=
  ⟨⟨"LoadIntoRegs", 0xF065, 0xF0FF⟩, by simp [opcodeRows], rfl, selects_x "LoadIntoRegs" x (by decide) (by decide)⟩

end Sys2Proof.Laws.OpcodeRow
end

