-- ==== Sys2Proof/Tests/Slice0.lean ====
section
/-! SUPPORT. Small tests: the well-formedness smoke, decoding of words written out from 30_encoding.md R68, one
step per vector of 95_test_vectors.md (its set and number are in each name or comment), and a witness for the
hypotheses of each statement that has some. -/

open Sys2Proof Sys2Proof.Machine

namespace Sys2Proof.Tests

/-! ### Helpers -/

/-- The state a step goes on to. -/
def nextOf : Host.Outcome State Fault Refusal → Option State
  | .next s => some s
  | .fault _ => none
  | .refused _ => none

/-- A fresh engine with some registers set and some bytes of memory. -/
def start (regs : List (Nibble × Byte)) (i : Word := 0) (mem : List (Nat × Byte) := [])
    (p : Params := Params.hardware) : State :=
  mem.foldl (fun s e => s.poke e.1 e.2)
    (regs.foldl (fun s e => s.setReg e.1 e.2) ((State.construct p).setI i))

/-- A read-out of the state after one step that executes the word at 0x200. -/
def after {α : Type} (w : Nat) (s : State) (f : State → α) : Option α :=
  (nextOf (step (s.withFetchWord 16 w))).map f

/-- A read-out of the state after one tick of an engine that holds a program. -/
def afterTick {α : Type} (bs : List Byte) (s : State) (f : State → α) : Option α :=
  ((nextOf (load bs s)).bind fun u => nextOf (tick u)).map f

/-! ### Well-formedness: the ill-formed terms (R70, R71, R74) -/

theorem test_wf_refuses_the_word_of_clear : (Instr.sys 0x0E0).wf .nop = false := by decide
theorem test_wf_refuses_the_word_of_return : (Instr.sys 0x0EE).wf .nop = false := by decide
theorem test_wf_refuses_sys_under_decodeError : (Instr.sys 0x123).wf .decodeError = false := by decide
theorem test_wf_admits_the_others : (Instr.sys 0xFFF).wf .nop = true ∧ Instr.clear.wf .decodeError = true := by
  decide

/-! ### Decoding, word by word from the patterns of R68 -/

theorem test_decode_group0 :
    decodeWord .nop 0b0000000100100011 = .ok (.sys 0x123) ∧ decodeWord .nop 0b0000000011100000 = .ok .clear ∧
    decodeWord .nop 0b0000000011101110 = .ok .ret := by decide

theorem test_decode_flow :
    decodeWord .nop 0b0001001000110100 = .ok (.jump 0x234) ∧
    decodeWord .nop 0b0010101010111100 = .ok (.call 0xABC) ∧
    decodeWord .nop 0b0011001101000010 = .ok (.skipEqByte 0x3 0x42) ∧
    decodeWord .nop 0b0100001101000010 = .ok (.skipNotEqByte 0x3 0x42) ∧
    decodeWord .nop 0b0101000100100000 = .ok (.skipEqReg 0x1 0x2) ∧
    decodeWord .nop 0b1001000100100000 = .ok (.skipNotEqReg 0x1 0x2) ∧
    decodeWord .nop 0b1011001100000001 = .ok (.jumpOffset 0x301) := by decide

theorem test_decode_loads :
    decodeWord .nop 0b0110101001111011 = .ok (.loadByte 0xA 0x7B) ∧
    decodeWord .nop 0b0111000000000001 = .ok (.addByte 0x0 0x01) ∧
    decodeWord .nop 0b1010001100000000 = .ok (.loadPointer 0x300) ∧
    decodeWord .nop 0b1100001100001111 = .ok (.random 0x3 0x0F) ∧
    decodeWord .nop 0b1101000100100101 = .ok (.draw 0x1 0x2 0x5) := by decide

theorem test_decode_group8 :
    decodeWord .nop 0b1000000100100000 = .ok (.loadReg 0x1 0x2) ∧
    decodeWord .nop 0b1000000100100001 = .ok (.or 0x1 0x2) ∧
    decodeWord .nop 0b1000000100100010 = .ok (.and 0x1 0x2) ∧
    decodeWord .nop 0b1000000100100011 = .ok (.xor 0x1 0x2) ∧
    decodeWord .nop 0b1000000100100100 = .ok (.add 0x1 0x2) ∧
    decodeWord .nop 0b1000000100100101 = .ok (.sub 0x1 0x2) ∧
    decodeWord .nop 0b1000000100100110 = .ok (.shiftRight 0x1 0x2) ∧
    decodeWord .nop 0b1000000100100111 = .ok (.subNeg 0x1 0x2) ∧
    decodeWord .nop 0b1000000100101110 = .ok (.shiftLeft 0x1 0x2) := by decide

theorem test_decode_groupsEF :
    decodeWord .nop 0b1110010010011110 = .ok (.skipPressed 0x4) ∧
    decodeWord .nop 0b1110010010100001 = .ok (.skipNotPressed 0x4) ∧
    decodeWord .nop 0b1111011100000111 = .ok (.loadFromDT 0x7) ∧
    decodeWord .nop 0b1111001100001010 = .ok (.loadKeyboard 0x3) ∧
    decodeWord .nop 0b1111010100010101 = .ok (.loadIntoDT 0x5) ∧
    decodeWord .nop 0b1111011000011000 = .ok (.loadIntoST 0x6) ∧
    decodeWord .nop 0b1111001000011110 = .ok (.addToPointer 0x2) ∧
    decodeWord .nop 0b1111000000101001 = .ok (.loadFont 0x0) ∧
    decodeWord .nop 0b1111101000110011 = .ok (.loadDigits 0xA) ∧
    decodeWord .nop 0b1111001001010101 = .ok (.loadFromRegs 0x2) ∧
    decodeWord .nop 0b1111111101100101 = .ok (.loadIntoRegs 0xF) := by decide

/-- Set E8, and a Sys word under SYS_MODE = DecodeError. -/
theorem test_decode_refuses : [0x5121, 0x8008, 0xE0FF, 0xF000].map (undecodable .nop) = [true, true, true, true] ∧
    undecodable .decodeError 0x0123 = true := by decide

/-- Sets E1 to E7. -/
theorem test_encode_boundaries :
    encode (.jump 0xFFF) = 0x1FFF ∧ encode (.loadByte 0xF 0xFF) = 0x6FFF ∧ encode (.draw 0xF 0xF 0xF) = 0xDFFF ∧
    encode (.shiftRight 0x1 0x2) = 0x8126 ∧ encode (.loadIntoRegs 0xF) = 0xFF65 ∧
    encode (.loadFromRegs 0x0) = 0xF055 ∧ encode (.sys 0x0E0) = 0x00E0 := by decide

theorem test_decode_bytes_takes_two : decodeBytes .nop [0x12, 0x34, 0x56] = .ok (.jump 0x234, [0x56]) ∧
    decodeBytes .nop [0x12] = .error .truncated := by decide

/-! ### Set A: arithmetic with flag -/

theorem test_add_carry : after 0x8014 (start [(0, 0xFF), (1, 0x01)]) (fun t => (t.reg 0, t.reg 0xF)) =
    some (0x00, 0x01) := by decide
theorem test_add_flag_last : after 0x8F14 (start [(0xF, 0x10), (1, 0x02)]) (fun t => t.reg 0xF) = some 0x00 := by
  decide
theorem test_sub_equal : after 0x8015 (start [(0, 5), (1, 5)]) (fun t => (t.reg 0, t.reg 0xF)) = some (0, 1) := by
  decide
theorem test_sub_borrow : after 0x8015 (start [(0, 4), (1, 5)]) (fun t => (t.reg 0, t.reg 0xF)) =
    some (0xFF, 0) := by decide
theorem test_subNeg_borrow : after 0x8017 (start [(0, 5), (1, 3)]) (fun t => (t.reg 0, t.reg 0xF)) =
    some (0xFE, 0) := by decide
theorem test_subNeg : after 0x8017 (start [(0, 3), (1, 5)]) (fun t => (t.reg 0, t.reg 0xF)) = some (2, 1) := by
  decide
theorem test_shiftRight : after 0x8006 (start [(0, 0xFF)]) (fun t => (t.reg 0, t.reg 0xF)) =
    some (0x7F, 1) := by decide
/-- A19. -/
theorem test_shiftRight_of_y :
    after 0x8016 (start [(0, 4), (1, 3)] (p := { Params.hardware with shiftSource := .y }))
      (fun t => (t.reg 0, t.reg 1, t.reg 0xF)) = some (1, 3, 1) := by decide
theorem test_shiftLeft : after 0x800E (start [(0, 0x81)]) (fun t => (t.reg 0, t.reg 0xF)) = some (2, 1) := by
  decide

/-! ### Set B: loads, logic and byte adds -/

theorem test_loadByte : after 0x6A7B (start []) (fun t => t.reg 0xA) = some 0x7B := by decide
theorem test_loadReg : after 0x8120 (start [(2, 0x55)]) (fun t => t.reg 1) = some 0x55 := by decide
theorem test_loadPointer : after 0xA300 (start []) (fun t => t.i) = some 0x0300 := by decide
theorem test_or : after 0x8011 (start [(0, 0xF0), (1, 0x0F), (0xF, 0x55)]) (fun t => (t.reg 0, t.reg 0xF)) =
    some (0xFF, 0x55) := by decide
theorem test_and : after 0x8012 (start [(0, 0xF3), (1, 0x3F), (0xF, 0x55)]) (fun t => (t.reg 0, t.reg 0xF)) =
    some (0x33, 0x55) := by decide
theorem test_xor : after 0x8013 (start [(0, 0xF3), (1, 0x3F), (0xF, 0x55)]) (fun t => (t.reg 0, t.reg 0xF)) =
    some (0xCC, 0x55) := by decide
theorem test_addByte_wraps : after 0x7001 (start [(0, 0xFF), (0xF, 9)]) (fun t => (t.reg 0, t.reg 0xF)) =
    some (0, 9) := by decide
theorem test_addToPointer_wraps : after 0xF21E (start [(2, 1)] (i := 0xFFFF)) (fun t => t.i) = some 0 := by decide
/-- B11, B12, for whatever byte is drawn. -/
theorem test_random (s : State) :
    (nextOf (execRandom 3 0x0F s)).map (fun t => t.reg 3 &&& 0xF0) = some 0 := by
  simp [nextOf, execRandom, BitVec.and_assoc]

/-! ### Set C: control flow -/

theorem test_sys : after 0x0123 (start []) (fun t => (t.pc, t.run)) = some (0x202, .running) := by decide
theorem test_sys_refused : after 0x0123 (start [] (p := { Params.hardware with sysMode := .decodeError }))
    (fun t => (t.pc, t.run)) = some (0x202, .halted (.decodeError 0x0123)) := by decide
theorem test_jump_self : after 0x1200 (start []) (fun t => t.pc) = some 0x200 := by decide
theorem test_call : after 0x2ABC (start []) (fun t => (t.pc, t.stack)) = some (0x0ABC, [0x202]) := by decide
theorem test_call_full : after 0x2200 ((start []).setStack (List.replicate 16 0x202))
    (fun t => (t.pc, t.stack.length, t.run)) = some (0x202, 16, .halted .stackOverflow) := by decide
theorem test_ret : after 0x00EE ((start []).setStack [0x206]) (fun t => (t.pc, t.stack)) = some (0x206, []) := by
  decide
theorem test_ret_empty : after 0x00EE (start []) (fun t => (t.pc, t.run, t.report)) =
    some (0x202, .halted .stackUnderflow, some (.err .stackUnderflow)) := by decide
theorem test_jumpOffset : after 0xBFFF (start [(0, 0xFF)]) (fun t => t.pc) = some 0x10FE := by decide
theorem test_skipEqByte : after 0x3342 (start [(3, 0x42)]) (fun t => t.pc) = some 0x204 ∧
    after 0x3342 (start [(3, 0x41)]) (fun t => t.pc) = some 0x202 := by decide
theorem test_skipNotEqByte : after 0x4342 (start [(3, 0x41)]) (fun t => t.pc) = some 0x204 := by decide
theorem test_skipEqReg : after 0x5120 (start [(1, 7), (2, 7)]) (fun t => t.pc) = some 0x204 := by decide
theorem test_skipNotEqReg : after 0x9120 (start [(1, 7), (2, 8)]) (fun t => t.pc) = some 0x204 ∧
    after 0x9110 (start []) (fun t => t.pc) = some 0x202 := by decide

/-! ### Set D: the display -/

/-- D3: the row wraps. -/
theorem test_draw_wraps : after 0xD121 (start [(1, 62), (2, 31)] 0x300 [(0x300, 0xFF)])
    (fun t => ((List.range 64).filter fun x => t.disp.cell x 31)) = some [0, 1, 2, 3, 4, 5, 62, 63] := by decide
/-- D7: a set cell is cleared and reported. -/
theorem test_draw_collides :
    after 0xD111 ((start [(1, 3)] 0x300 [(0x300, 0xC0)]).setDisp ((Display.cleared 64 32).toggle 4 3))
      (fun t => (t.disp.cell 3 3, t.disp.cell 4 3, t.reg 0xF)) = some (true, false, 1) := by decide
/-- D9. -/
theorem test_clear : after 0x00E0 (((start [(0xF, 7)])).setDisp ((Display.cleared 64 32).toggle 4 3))
    (fun t => (t.disp.cell 4 3, t.reg 0xF)) = some (false, 7) := by decide

/-! ### Set F: keys and timers -/

theorem test_skipPressed : after 0xE49E (setDown 5 (start [(4, 5)])) (fun t => t.pc) = some 0x204 ∧
    after 0xE49E (start [(4, 5)]) (fun t => t.pc) = some 0x202 := by decide
/-- F4, both modes. -/
theorem test_skipPressed_above : after 0xE49E (setDown 5 (start [(4, 0x15)])) (fun t => t.pc) = some 0x202 ∧
    after 0xE49E (setDown 5 (start [(4, 0x15)] (p := { Params.hardware with keyIndexMode := .lowNibble })))
      (fun t => t.pc) = some 0x204 := by decide
theorem test_skipNotPressed : after 0xE4A1 (start [(4, 5)]) (fun t => t.pc) = some 0x204 := by decide
/-- F5. -/
theorem test_skipNotPressed_above : after 0xE4A1 (setDown 5 (start [(4, 0x15)])) (fun t => t.pc) =
    some 0x204 := by decide
theorem test_loadFromDT : after 0xF707 ((start []).setDT 0x3C) (fun t => t.reg 7) = some 0x3C := by decide
theorem test_loadIntoDT : after 0xF515 (start [(5, 0x3C)]) (fun t => t.dt) = some 0x3C := by decide
theorem test_loadIntoST : after 0xF618 (start [(6, 2)]) (fun t => t.st) = some 2 := by decide
/-- F10: a key already down is not delivered. -/
theorem test_loadKeyboard : after 0xF30A (setDown 5 (start [])) (fun t => (t.run, t.kw, t.reg 3, t.pc)) =
    some (.awaitingKey 3, .pending, 0, 0x202) := by decide
/-- F11: the first key pressed is taken, and the next instruction runs in the same sub-step (here 7301). -/
theorem test_key_taken :
    ((nextOf (step { (start [] 0 [(0x200, 0x73), (0x201, 0x01)]) with
        run := .awaitingKey 3, kw := .pending, inbox := [[.setDown 7, .setDown 2, .setUp 7]] })).map
      fun t => (t.reg 3, t.run, t.kw, t.keyDown 7, t.pc)) = some (8, .running, .none, false, 0x202) := by decide
/-- F7: three ticks. -/
theorem test_tone : afterTick [0x66, 0x02, 0xF6, 0x18, 0x12, 0x04] (start [])
    (fun t => (t.st, t.tone)) = some (1, some true) := by decide
/-- F12: SPEED = 0. -/
theorem test_speed_zero : ((nextOf (tick ((start [] (p := { Params.hardware with speed := 0 })).setDT 2))).map
    fun t => t.dt) = some 1 := by decide
/-- W8, P1: ten byte adds in one tick. -/
theorem test_ten_adds : afterTick ((List.replicate 10 [0x70, 0x01]).flatten) (((start []).setDT 3).setST 1)
    (fun t => (t.reg 0, t.pc, t.dt, t.st, t.tone)) = some (0x0A, 0x214, 2, 0, some false) := by decide
/-- P7: a decode error ends the tick without a decay. -/
theorem test_decode_error : afterTick [0x60, 0x01, 0x51, 0x21] ((start []).setDT 2)
    (fun t => (t.run, t.reg 0, t.pc, t.dt, t.tone)) =
      some (.halted (.decodeError 0x5121), 1, 0x204, 2, none) := by decide

/-! ### Set G: memory block and font -/

theorem test_loadFont : after 0xF029 (start [(0, 0xFF)]) (fun t => t.i) = some 0x04FB := by decide
theorem test_loadDigits : after 0xFA33 (start [(0xA, 0x7B)] 0x300)
    (fun t => ((List.range 3).map fun k => t.byteAt (0x300 + k), t.i)) = some ([1, 2, 3], 0x300) := by decide
/-- G7: each byte's address is masked on its own. -/
theorem test_loadDigits_wraps : after 0xFA33 (start [(0xA, 0xC8)] 0xFFE)
    (fun t => (t.byteAt 0xFFE, t.byteAt 0xFFF, t.byteAt 0x000)) = some (2, 0, 0) := by decide
/-- G14. -/
theorem test_loadFromRegs_wraps : after 0xF155 (start [(0, 0xAA), (1, 0xBB)] 0xFFF)
    (fun t => (t.byteAt 0xFFF, t.byteAt 0x000, t.i)) = some (0xAA, 0xBB, 0xFFF) := by decide
/-- G8 under Exclusive: nothing is written. -/
theorem test_loadFromRegs_exclusive :
    after 0xF055 (start [(0, 0x10)] 0x310 (p := { Params.hardware with blockCopyBound := .exclusive }))
      (fun t => t.byteAt 0x310) = some 0 := by decide
theorem test_loadIntoRegs : after 0xF265 (start [(3, 9)] 0x300 [(0x300, 0xA0), (0x301, 0xA1), (0x302, 0xA2),
    (0x303, 0xA3)]) (fun t => (t.reg 0, t.reg 1, t.reg 2, t.reg 3)) = some (0xA0, 0xA1, 0xA2, 9) := by decide

/-! ### The memory's form, and the load (W5) -/

theorem test_write_back_unlists : ((start []).poke 0x300 7).mem = [(0x300, 7)] ∧
    (((start []).poke 0x300 7).poke 0x300 0).mem = [] ∧ ((start []).poke 0x000 0xF0).mem = [] := by decide
theorem test_load_too_long : load (List.replicate 3585 0) (start []) = .fault (.capacityExceeded 3585) := by
  simp only [load, start, List.foldl_nil, State.setI_phase, State.construct, List.length_replicate]; rfl
theorem test_load_late : load [0x12] { (start []) with phase := .started } = .refused .loadOutsideWindow := rfl

/-! ### Witnesses: states and operands that meet the hypotheses of the statements -/

theorem start_inv : (start []).Inv where
  memory := rfl
  display := Display.shaped_cleared _ _
  wait := by decide
  depth _ _ := Nat.zero_le _
  progress := .inl rfl
  between _ := rfl
  halt h := ⟨fun e => (by cases e), fun e => (by cases e)⟩
  haltBetween _ _ := rfl
  fresh _ := ⟨rfl, rfl, rfl⟩

/-- An engine halted by a Return on an empty stack. -/
def stopped : State :=
  { start [] with phase := .started, run := .halted .stackUnderflow, report := some (.err .stackUnderflow) }

theorem stopped_inv : stopped.Inv where
  memory := rfl
  display := Display.shaped_cleared _ _
  wait := ⟨fun h => absurd rfl h, fun ⟨_, e⟩ => (by cases e)⟩
  depth _ _ := Nat.zero_le _
  progress := .inl rfl
  between _ := rfl
  halt h := by
    constructor
    · intro e; cases e; rfl
    · intro e; cases e; rfl
  haltBetween _ _ := rfl
  fresh h := absurd rfl h

/-- An engine that waits for a key in V[3], with a registration. -/
def waiting (w : KeyWait) (done : Nat) : State :=
  { start [] with run := .awaitingKey 3, kw := w, subStepsDone := done }

/-- EncodeDecodeRoundTrip, DecodeFollowsOpcodeMap, IllegalWordsAreThoseListed: words of each kind. -/
theorem witness_words : decodeWord .nop 0x6A7B = .ok (.loadByte 0xA 0x7B) ∧
    (opcodeRows.any fun r => r.selects 0x6A7B) = true ∧ fieldGroup 0x6A7B ≠ 0 ∧
    fieldGroup 0x0000 = 0 ∧ (0x0000 : Word) ≠ 0x00E0 ∧ (0x0000 : Word) ≠ 0x00EE ∧
    (Instr.sys 0x0DF).wf .nop = true ∧ (Instr.sys 0x0EF).wf .nop = true := by decide

theorem witness_illegal : IllegalWord .nop 0x5121 ∧ ¬ IllegalWord .nop 0x5120 ∧
    IllegalWord .decodeError 0x0000 ∧ ¬ IllegalWord .decodeError 0x00EE ∧
    IllegalWord ((start []).withFetchWord 16 0x5121).cfg.sysMode ((start []).withFetchWord 16 0x5121).fetchWord := by
  refine ⟨?_, ?_, ?_, ?_, ?_⟩ <;> unfold IllegalWord <;> decide

/-- StepRunsTheDecodedInstruction and HaltsArePrecise: a word that decodes and one that does not, at the first
and at the last sub-step of a tick. -/
theorem witness_step :
    (∀ w done, deliverInbox { (start []).withFetchWord 16 w with subStepsDone := done } =
      { (start []).withFetchWord 16 w with subStepsDone := done }) ∧
    ((start []).withFetchWord 16 0x1200).run = .running ∧ (0 : Nat) < (start []).cfg.speed ∧
    (9 : Nat) < (start []).cfg.speed ∧
    decodeWord .nop ((start []).withFetchWord 16 0x1200).fetchWord = .ok (.jump 0x200) ∧
    decodeWord .nop ((start []).withFetchWord 16 0x5121).fetchWord = .error (.unknownInstruction 0x5121) :=
  ⟨fun _ _ => rfl, by decide⟩

/-- HaltsArePrecise: each cause, and none. -/
theorem witness_halts :
    ((start []).withFetchWord 16 0x5121).haltCause = some (.decodeError 0x5121) ∧
    ((start []).withFetchWord 16 0x00EE).haltCause = some .stackUnderflow ∧
    (((start []).setStack (List.replicate 16 0)).withFetchWord 16 0x2200).haltCause = some .stackOverflow ∧
    (((start []).setStack (List.replicate 15 0)).withFetchWord 16 0x2200).haltCause = none ∧
    after 0x00EE (start []) (fun t => t.run) = some (.halted .stackUnderflow) := by decide

/-- DeliveredKeyIsTakenAndFetchGoesOn and WaitingStepChangesOnlyTheTick, inside a tick and at its end. -/
theorem witness_wait :
    deliverInbox (waiting (.delivered 0xF) 0) = waiting (.delivered 0xF) 0 ∧
    (waiting (.delivered 0xF) 0).run = .awaitingKey 3 ∧ (waiting (.delivered 0xF) 0).kw = .delivered 0xF ∧
    deliverInbox (waiting .pending 8) = waiting .pending 8 ∧ (waiting .pending 8).kw = .pending ∧
    (waiting .pending 8).subStepsDone + 1 < (waiting .pending 8).cfg.speed ∧
    deliverInbox (waiting .pending 9) = waiting .pending 9 ∧ (waiting .pending 9).subStepsDone = 9 :=
  ⟨rfl, rfl, rfl, rfl, rfl, by decide, rfl, rfl⟩

/-- SysDoesNothing: both modes. -/
theorem witness_sys : (start []).cfg.sysMode = .nop ∧
    ((start [] (p := { Params.hardware with sysMode := .decodeError })).withFetchWord 16 0x0123).fetchWord = 0x0123 ∧
    (start [] (p := { Params.hardware with sysMode := .decodeError })).cfg.sysMode = .decodeError ∧
    fieldGroup 0x0123 = 0 := by decide

/-- ReturnPopsOrHalts and CallPushesOrHalts: an empty, a held, a full and an unbounded stack. -/
theorem witness_stack : (start []).stack = [] ∧ ((start []).setStack [0x206]).stack = 0x206 :: [] ∧
    ((start []).setStack (List.replicate 16 0)).cfg.stackDepth =
      some ((start []).setStack (List.replicate 16 0)).stack.length ∧
    (start []).cfg.stackDepth ≠ some (start []).stack.length ∧
    (start [] (p := { Params.hardware with stackDepth := none })).cfg.stackDepth ≠ some 0 := by decide

/-- FlagOrderDecidesVF, AddSetsSumAndCarry, SubSetsNoBorrow, SubNegSetsNoBorrow, ShiftsSetTheBitShiftedOut: both
orders and both sources. -/
theorem witness_orders : (start []).cfg.flagOrder = .flagLast ∧ (start []).cfg.shiftSource = .x ∧
    (start [] (p := { Params.hardware with flagOrder := .resultLast })).cfg.flagOrder = .resultLast ∧
    (start [] (p := { Params.hardware with shiftSource := .y })).cfg.shiftSource = .y ∧
    (start [(0xF, 0x81)]).reg 0xF = 0x81 := by decide

/-- DrawTogglesTheSpritesCells: no row, and fifteen rows that wrap around the end of memory. -/
theorem witness_draw : (start []).DisplayShaped ∧ 8 ≤ (start []).cfg.displayW ∧
    15 ≤ (start []).cfg.displayH ∧
    ((start []).spriteRows 0).length = (0 : Nibble).toNat ∧
    ((start [] 0xFFF).spriteRows 0xF).length = (0xF : Nibble).toNat ∧
    ∀ r, (h : r < ((start [] 0xFFF).spriteRows 0xF).length) →
      ((start [] 0xFFF).spriteRows 0xF)[r] = (start [] 0xFFF).byteAt ((0xFFF + r) % 4096) :=
  ⟨Display.shaped_cleared _ _, by decide, by decide, rfl, rfl, fun r h => getElem_spriteRows _ _ r h⟩

/-- PlotTogglesByParity: a grid of one cell. -/
theorem witness_plot : 0 < 1 ∧ ([[true]] : Display).length = 1 ∧ ∀ row ∈ ([[true]] : Display), row.length = 1 := by
  decide

/-- A grid narrower than a sprite row. -/
def narrow (w h : Nat) : State := start [] 0x300 [(0x300, 0x88)] { Params.hardware with displayW := w, displayH := h }

/-- DrawTogglesOneByOneOnAnyGrid: a grid with cells, and grids without a column or a row. -/
theorem witness_any_grid : (∀ w h, (narrow w h).DisplayShaped) ∧
    ((narrow 4 3).spriteRows 1).length = (1 : Nibble).toNat ∧
    (∀ r, (hr : r < ((narrow 4 3).spriteRows 1).length) →
      ((narrow 4 3).spriteRows 1)[r] = (narrow 4 3).byteAt ((0x300 + r) % 4096)) ∧
    toggledCells 4 3 0 0 [0x88] = [(0, 0), (0, 0)] ∧ TurnsACellClear (narrow 4 3).disp [(0, 0), (0, 0)] ∧
    (narrow 4 3).cfg.displayW = 4 ∧ (narrow 0 3).cfg.displayW = 0 ∧ (narrow 4 0).cfg.displayH = 0 :=
  ⟨fun _ _ => Display.shaped_cleared _ _, rfl, fun r h => getElem_spriteRows _ _ r h, by decide,
    ⟨1, by decide, by decide⟩, rfl, rfl, rfl⟩

/-- R120, R122: on a grid of 4 columns the bits 7 and 3 of a row fall on one cell, which is toggled twice: it is
clear again, and the second toggle is a collision. -/
theorem test_draw_toggles_twice : (nextOf (exec (.draw 0 0 1) (narrow 4 3))).map
    (fun t => (t.disp.cell 0 0, t.reg 0xF)) = some (false, 1) := by decide

/-- DoubleDrawRestoresTheDisplay: two draws go on, on an empty display. -/
theorem witness_double_draw : (start []).DisplayShaped ∧ (0x0 : Nibble) ≠ 0xF ∧ (0xE : Nibble) ≠ 0xF ∧
    (∀ cx cy, (start []).disp.cell cx cy = false) ∧
    ∃ t u, exec (.draw 0x0 0xE 0x1) (start []) = .next t ∧ exec (.draw 0x0 0xE 0x1) t = .next u :=
  ⟨Display.shaped_cleared _ _, by decide, by decide, Display.cell_cleared _ _, _, _, rfl, rfl⟩

/-- KeySkipsTestTheNamedKey: the last key, and the first value above it in each mode. -/
theorem witness_keys : (start [(4, 15)]).reg 4 = 15 ∧ (start [(4, 16)]).reg 4 = 16 ∧
    (start [(4, 16)]).cfg.keyIndexMode = .notPressed ∧
    (start [(4, 16)] (p := { Params.hardware with keyIndexMode := .lowNibble })).cfg.keyIndexMode = .lowNibble ∧
    (start [(4, 16)] (p := { Params.hardware with keyIndexMode := .refuse })).cfg.keyIndexMode = .refuse ∧
    nextOf (exec (.skipPressed 4) (start [(4, 16)] (p := { Params.hardware with keyIndexMode := .refuse }))) = none := by
  decide

/-- FirstKeyPressedIsDelivered and HostTouchesOnlyTheKeys: a registration and none. -/
theorem witness_registration : (waiting .pending 0).kw = .pending ∧ (start []).kw ≠ .pending ∧
    ([KeyEvent.setUp 2, .setDown 7, .setDown 2].foldl keyEvent (waiting .pending 0)).kw = .delivered 7 := by decide

/-- FirstKeyPressedIsDelivered: a schedule with nothing due, and one whose due events press a key. -/
theorem witness_due : (start []).inbox = [] ∧
    ({ start [] with inbox := [[.setDown 7], []] } : State).inbox = [.setDown 7] :: [[]] ∧
    (deliverInbox { start [] with inbox := [[.setDown 7], []] }).keyDown 7 = true ∧
    (deliverInbox { start [] with inbox := [[.setDown 7], []] }).inbox = [[]] := by decide

/-- MemoryReadsBackItsLastWrite, LoadDigitsStoresThreeDigits, LoadFromRegsStoresTheBlock,
ProtectedRegionNeverChanges: a canonical memory, unprotected, and protected on both sides of 0x200. -/
theorem witness_memory : (start []).MemoryCanonical ∧ (start []).cfg.fontWriteProtect = false ∧
    (start [] (p := { Params.hardware with fontWriteProtect := true })).MemoryCanonical ∧
    writeIgnored { Params.hardware with fontWriteProtect := true } 0x1FF = true ∧
    writeIgnored { Params.hardware with fontWriteProtect := true } 0x200 = false ∧
    ∃ t, step (start [] (p := { Params.hardware with fontWriteProtect := true })) = .next t :=
  ⟨rfl, rfl, rfl, rfl, rfl, _, rfl⟩

/-- LoadFromRegsStoresTheBlock, LoadIntoRegsLoadsTheBlock: both bounds at x = 0 and x = F. -/
theorem witness_blocks : blockCount .inclusive 0 = 1 ∧ blockCount .inclusive 0xF = 16 ∧
    blockCount .exclusive 0 = 0 ∧ blockCount .exclusive 0xF = 15 := by decide

/-- NextFetchSeesTheStore, unprotected and protected. -/
theorem witness_store_at_pc : (start [] 0x200).MemoryCanonical ∧ (start [] 0x200).cfg.blockCopyBound = .inclusive ∧
    (0x1 : Nibble) ≠ 0 ∧ (start [] 0x200).i = (start [] 0x200).pc ∧
    (start [] 0x200).cfg.fontWriteProtect = false ∧ 0x200 ≤ (start [] 0x200).pc.toNat ∧
    (start [] 0x200).pc.toNat < 0xFFF ∧ ∃ t, exec (.loadFromRegs 0x1) (start [] 0x200) = .next t :=
  ⟨rfl, rfl, by decide, rfl, rfl, by decide, by decide, _, rfl⟩

/-- HaltedIsAbsorbing: a halted engine that meets the invariant, and a run of it. -/
theorem witness_halted : stopped.Inv ∧ stopped.run = .halted .stackUnderflow ∧
    ∃ t, Sys2Proof.core.run 1 stopped = .next t :=
  ⟨stopped_inv, rfl, _, (core_run_succ 0 (show step stopped = .next stopped from rfl)).trans rfl⟩

/-- TickEndDecaysOnceAndReportsTheTone: both decay rules, at both values of stalled_all. -/
theorem witness_decay : (start []).cfg.decayWhenFullyStalled = true ∧
    (start [] (p := { Params.hardware with decayWhenFullyStalled := false })).cfg.decayWhenFullyStalled = false ∧
    (start []).stalledAll = true ∧ ({ start [] with stalledAll := false } : State).stalledAll = false := by decide

/-- TickEndDecaysOnceAndReportsTheTone: the ninth and the tenth sub-step of a tick, one that runs an
instruction, one that takes a key and runs one, one that waits; no key event is due, and none of them halts. -/
theorem witness_sub_step :
    (∀ w n, deliverInbox (waiting w n) = waiting w n) ∧
    (waiting .pending 8).subStepsDone + 1 < (waiting .pending 8).cfg.speed ∧
    (waiting .pending 9).subStepsDone + 1 = (waiting .pending 9).cfg.speed ∧
    ∀ n, n = 8 ∨ n = 9 →
    (∃ w, SubStepRan { (start []) with subStepsDone := n, phase := .started } w false ∧ w.Safe) ∧
    (∃ w, SubStepRan { waiting (.delivered 0xF) n with phase := .started } w false ∧ w.Safe) ∧
    (∃ w, SubStepRan { waiting .pending n with phase := .started } w true ∧ w.Safe) := by
  refine ⟨fun _ _ => rfl, by decide, rfl, ?_⟩
  rintro _ (rfl | rfl) <;>
  refine ⟨⟨_, .inl ⟨rfl, rfl, rfl⟩, ?_⟩, ⟨_, .inr (.inl ⟨rfl, 3, 0xF, rfl, rfl, rfl⟩), ?_⟩,
    ⟨_, .inr (.inr ⟨rfl, 3, rfl, rfl, rfl⟩), ?_⟩⟩ <;> intro h e <;> cases e

/-- TickEndDecaysOnceAndReportsTheTone: a tick of SPEED = 0, of an engine that runs. -/
theorem witness_no_sub_step :
    let s := start [] (p := { Params.hardware with speed := 0 })
    deliverInbox s = s ∧ s.cfg.speed ≤ s.subStepsDone ∧ s.Safe :=
  ⟨rfl, by decide, fun h e => by cases e⟩

/-- P1's end of a tick in the steps of the machine: the tenth sub-step decays both timers and reports the tone. -/
theorem test_step_ends_the_tick :
    (nextOf (step { (start [] 0 [(0x200, 0x70), (0x201, 0x01)]) with subStepsDone := 9, dt := 3, st := 1 })).map
      (fun t => (t.reg 0, t.dt, t.st, t.tone, t.subStepsDone)) = some (1, 2, 0, some false, 0) := by decide

/-- TickIsItsSteps: a whole tick goes on. -/
theorem witness_tick : (start []).subStepsDone = 0 ∧ (start []).stalledAll = true ∧
    (nextOf (tick (start []))).isSome = true ∧ (nextOf (tick stopped)).isSome = true := by decide

/-- TimersChangeOnlyAtTickEnds: a timer written by its instruction, inside a tick. -/
theorem witness_timers : deliverInbox ((start [(5, 7)]).withFetchWord 16 0xF515) =
      (start [(5, 7)]).withFetchWord 16 0xF515 ∧
    ((start [(5, 7)]).withFetchWord 16 0xF515).subStepsDone + 1 < (start []).cfg.speed ∧
    after 0xF515 (start [(5, 7)]) (fun t => t.dt) = some 7 ∧ after 0xF518 (start [(5, 7)]) (fun t => t.st) = some 7 :=
  ⟨rfl, by decide, by decide, by decide⟩

/-- StepKeepsInv: a fresh engine's first step. -/
theorem witness_inv : (start []).Inv ∧ ∃ t, step (start []) = .next t := ⟨start_inv, _, rfl⟩

/-- EveryInstructionGoesOn: this hardware's key tests, and the one refusal. -/
theorem witness_goes_on : (start []).cfg.keyIndexMode ≠ .refuse ∧
    exec (.skipPressed 4) (start [(4, 16)] (p := { Params.hardware with keyIndexMode := .refuse })) =
      .refused .keyIndexRefused := ⟨by decide, rfl⟩

/-- RegisterAccessTable: a register read, one written, one neither. -/
theorem witness_access : (∃ t, exec (.add 1 2) (start []) = .next t) ∧
    writesReg Params.hardware (.add 1 2) 0xF ∧ ¬ readsReg Params.hardware (.add 1 2) 0xF ∧
    ¬ writesReg Params.hardware (.add 1 2) 2 ∧ readsReg Params.hardware (.add 1 2) 2 ∧
    ¬ writesReg Params.hardware (.add 1 2) 3 ∧ ¬ readsReg Params.hardware (.add 1 2) 3 := by
  refine ⟨⟨_, rfl⟩, ?_⟩
  unfold writesReg readsReg; decide

/-- WhoChangesWhat: each kind of state changed by an instruction that may. -/
theorem witness_changes :
    (nextOf (exec (.loadPointer 1) (start []))).map (fun t => t.i) = some 1 ∧
    (nextOf (exec (.call 1) (start []))).map (fun t => t.stack) = some [0x200] ∧
    (nextOf (exec (.draw 0 0 1) (start []))).map (fun t => t.disp.cell 0 0) = some true ∧
    (nextOf (exec (.loadDigits 0) (start [] 0x000))).map (fun t => t.mem) = some [(0, 0), (1, 0), (2, 0)] ∧
    (nextOf (exec (.loadKeyboard 3) (start []))).map (fun t => (t.kw, t.run)) = some (.pending, .awaitingKey 3) ∧
    (nextOf (exec .ret (start []))).map (fun t => t.run) = some (.halted .stackUnderflow) ∧
    (nextOf (exec (.random 0 0) (start []))).map (fun t => t.draws) = some 1 := by decide

/-- HighBitsAreUnobservable: two states that differ in the high bits of I, of pc and of a saved pc. -/
theorem witness_high_bits : SameButHighBits
    (((start [] 0x0300).setPc 0x0200).setStack [0x0206]) (((start [] 0xF300).setPc 0x1200).setStack [0x8206]) where
  i := rfl
  pc := rfl
  stack := .cons rfl .nil
  rest := rfl

/-- LoadCopiesTheProgram and OtherLoadsStop: the longest program, one byte more, and a late load. -/
theorem witness_load : (start []).MemoryCanonical ∧ (start []).phase = .constructed ∧
    (List.replicate 3584 (0x70 : Byte)).length ≤ 3584 ∧ 3584 < (List.replicate 3585 (0x70 : Byte)).length ∧
    stopped.phase ≠ .constructed :=
  ⟨rfl, rfl, by rw [List.length_replicate], by rw [List.length_replicate]; decide, by decide⟩

end Sys2Proof.Tests
end

/-! PROOF. Draw on a grid of any size (43_display.md R120-R124): what a plot does to each cell and to the
collision when it may toggle a cell twice, and what Draw leaves of the state. -/

namespace Sys2Proof.Machine

/-! ### The bytes and the flag of Draw -/

theorem flagByte_eq_zero_or_one (c : Bool) : flagByte c = 0 ∨ flagByte c = 1 := by
  cases c <;> simp [flagByte]

theorem flagByte_eq_one_iff (c : Bool) : flagByte c = 1 ↔ c = true := by
  cases c <;> simp [flagByte]

/-- The n bytes at I, I + 1, ..., each address masked, are the rows that Draw plots (R124). -/
theorem eq_spriteRows {s : State} {n : Nibble} {rows : List Byte} (hl : rows.length = n.toNat)
    (hr : ∀ r, (h : r < rows.length) → rows[r] = s.byteAt ((s.i.toNat + r) % 4096)) :
    rows = s.spriteRows n :=
  List.ext_getElem (hl.trans (length_spriteRows s n).symm) fun r h h' => by
    rw [hr r h, getElem_spriteRows s n r h']

/-- What Draw leaves: the registers and the display only, the plot in the display and its collision in VF (R124). -/
theorem exec_draw_spec (x y n : Nibble) (s : State) : ∃ t, exec (.draw x y n) s = .next t ∧
    t = { s with v := t.v, disp := t.disp } ∧ (∀ r, r ≠ 0xF → t.reg r = s.reg r) ∧
    t.disp = (s.drawn x y n).2 ∧ t.reg 0xF = flagByte (s.drawn x y n).1 := by
  refine ⟨(s.setDisp (s.drawn x y n).2).setReg 0xF (flagByte (s.drawn x y n).1), rfl, rfl, fun r hr => ?_, rfl, ?_⟩
  · rw [reg_setReg, if_neg hr, State.setDisp_reg]
  · rw [reg_setReg, if_pos rfl]

/-! ### A plot on a grid of any size -/

section
variable {w h : Nat} {g : Display} (ox oy : Nat) (rows : List Byte)

/-- plot_sprite does the toggles of the listed cells one by one (R120). -/
theorem plotSprite_eq_foldl_toggledCells :
    plotSprite w h ox oy rows g = (toggledCells w h ox oy rows).foldl toggleStep (false, g) := by
  rw [plotSprite_eq, spriteToggles_eq]

/-- The toggles of a sprite fall on the grid, if it has a cell (R121). -/
theorem toggledCells_lt (hw : 0 < w) (hh : 0 < h) : ∀ c ∈ toggledCells w h ox oy rows, c.1 < w ∧ c.2 < h := by
  rw [← spriteToggles_eq]
  exact fun c hc => spriteToggles_lt hw hh hc

/-- After a plot each cell is what it was, exclusive or the parity of its toggles. -/
theorem cell_plotSprite_eq_parity (hg : Display.Shaped w h g) (hw : 0 < w) (hh : 0 < h) (cx cy : Nat) :
    (plotSprite w h ox oy rows g).2.cell cx cy =
      (g.cell cx cy ^^ decide ((toggledCells w h ox oy rows).count (cx, cy) % 2 = 1)) := by
  rw [plotSprite_eq_foldl_toggledCells, cell_foldl_toggle hg (toggledCells_lt ox oy rows hw hh)]

/-- The collision of a plot is that some toggle, taken one by one, turns a set cell clear (R122). -/
theorem collision_plotSprite_iff_turnsACellClear (hg : Display.Shaped w h g) (hw : 0 < w) (hh : 0 < h) :
    (plotSprite w h ox oy rows g).1 = true ↔ TurnsACellClear g (toggledCells w h ox oy rows) := by
  rw [plotSprite_eq_foldl_toggledCells, collision_foldl_toggle_iff _ hg (toggledCells_lt ox oy rows hw hh)]
  exact or_iff_right Bool.false_ne_true

/-- On a grid without a column or a row a plot changes nothing and reports no collision. -/
theorem plotSprite_of_no_cell (hg : Display.Shaped w h g) (hz : w = 0 ∨ h = 0) :
    plotSprite w h ox oy rows g = (false, g) := by
  rw [plotSprite_eq, foldl_toggle_empty hz _ hg]

end

/-- Settles O29, from what Draw leaves of the state and what a plot, a list of toggles, does on a grid with a
cell and on one without. -/
theorem drawTogglesOneByOneOnAnyGrid : Obligations.DrawTogglesOneByOneOnAnyGrid := by
  unfold Obligations.DrawTogglesOneByOneOnAnyGrid
  rintro x y n s _ _ rows _ hs rfl rfl hl hr rfl
  obtain ⟨t, ht, hframe, hregs, hdisp, hVF⟩ := exec_draw_spec x y n s
  have hcfg : t.cfg = s.cfg := (exec_untouched ht).cfg
  rw [drawn_eq, ← eq_spriteRows hl hr] at hdisp hVF
  refine ⟨t, ht, hframe, hregs, ?_, hdisp, ?_, fun hw hh => ⟨fun cx cy => ?_, ?_⟩, fun hz => ?_⟩
  · rw [displayShaped_iff, hcfg, hdisp]
    exact Display.shaped_plot _ _ rows hs
  · rw [hVF]
    exact flagByte_eq_zero_or_one _
  · rw [hdisp]
    exact cell_plotSprite_eq_parity _ _ rows hs hw hh cx cy
  · rw [hVF, flagByte_eq_one_iff]
    exact collision_plotSprite_iff_turnsACellClear _ _ rows hs hw hh
  · rw [hdisp, hVF, plotSprite_of_no_cell _ _ rows hs hz]
    exact ⟨rfl, rfl⟩

end Sys2Proof.Machine

/-! PROOF. Return, Jump and the register skips (41_control_flow.md R94, R95, R98-R101): the state each goes on
to, and how far a skip on an equality or a difference moves pc. -/

namespace Sys2Proof.Machine

/-! ### Return and Jump -/

@[simp] theorem toNat_zextAddr (nnn : Addr) : (zextAddr nnn).toNat = nnn.toNat :=
  BitVec.toNat_setWidth_of_le (by decide)

theorem exec_ret_of_stack_eq_cons {s : State} {a : Word} {rest : List Word} (h : s.stack = a :: rest) :
    exec .ret s = .next ((s.setPc a).setStack rest) := by
  simp only [exec, execRet, h]

theorem exec_ret_of_stack_eq_nil {s : State} (h : s.stack = []) :
    exec .ret s = takeHalt .stackUnderflow s := by
  simp only [exec, execRet, h]

@[simp] theorem exec_jump (nnn : Addr) (s : State) : exec (.jump nnn) s = .next (s.setPc (zextAddr nnn)) := rfl

/-! ### The register skips -/

@[simp] theorem exec_skipEqByte (x : Nibble) (kk : Byte) (s : State) :
    exec (.skipEqByte x kk) s = .next (s.skipIf (s.reg x == kk)) := rfl

@[simp] theorem exec_skipNotEqByte (x : Nibble) (kk : Byte) (s : State) :
    exec (.skipNotEqByte x kk) s = .next (s.skipIf (s.reg x != kk)) := rfl

@[simp] theorem exec_skipEqReg (x y : Nibble) (s : State) :
    exec (.skipEqReg x y) s = .next (s.skipIf (s.reg x == s.reg y)) := rfl

@[simp] theorem exec_skipNotEqReg (x y : Nibble) (s : State) :
    exec (.skipNotEqReg x y) s = .next (s.skipIf (s.reg x != s.reg y)) := rfl

@[simp] theorem skipIf_true (s : State) : s.skipIf true = s.advance := rfl
@[simp] theorem skipIf_false (s : State) : s.skipIf false = s := rfl

/-- A skip on equality passes over 2 bytes exactly when the bytes are the same number (R98, R100). -/
theorem skipIf_beq_spec (s : State) (a b : Byte) :
    s.skipIf (a == b) = { s with pc := (s.skipIf (a == b)).pc } ∧
    (s.skipIf (a == b)).pc.toNat = (s.pc.toNat + if a.toNat = b.toNat then 2 else 0) % 65536 := by
  simpa only [beq_iff_eq, BitVec.toNat_inj] using skipIf_eq s (a == b)

/-- A skip on difference passes over 2 bytes unless the bytes are the same number (R99, R101). -/
theorem skipIf_bne_spec (s : State) (a b : Byte) :
    s.skipIf (a != b) = { s with pc := (s.skipIf (a != b)).pc } ∧
    (s.skipIf (a != b)).pc.toNat = (s.pc.toNat + if a.toNat = b.toNat then 0 else 2) % 65536 := by
  simpa only [bne_iff_ne, ne_eq, ite_not, BitVec.toNat_inj] using skipIf_eq s (a != b)

/-! ### The statements -/

/-- Settles O11, by the two cases of the stack. -/
theorem returnPopsOrHalts : Obligations.ReturnPopsOrHalts := by
  unfold Obligations.ReturnPopsOrHalts
  refine ⟨fun s a rest hheld => ?_, fun s hempty => ?_⟩
  · rw [exec_ret_of_stack_eq_cons hheld, State.setStack, State.setPc]
  · rw [exec_ret_of_stack_eq_nil hempty, takeHalt_eq]

/-- Settles O12: zero-extending nnn keeps its number. -/
theorem jumpSetsOnlyPc : Obligations.JumpSetsOnlyPc := by
  unfold Obligations.JumpSetsOnlyPc
  exact fun nnn s => ⟨s.setPc (zextAddr nnn), exec_jump nnn s, toNat_zextAddr nnn, rfl⟩

/-- Settles O15, from what a skip on an equality and on a difference does. -/
theorem byteSkipsMoveOnlyPc : Obligations.ByteSkipsMoveOnlyPc := by
  unfold Obligations.ByteSkipsMoveOnlyPc
  intro x kk s
  exact ⟨⟨_, exec_skipEqByte x kk s, skipIf_beq_spec s _ _⟩,
    ⟨_, exec_skipNotEqByte x kk s, skipIf_bne_spec s _ _⟩⟩

/-- Settles O16, from what a skip on an equality and on a difference does; with x = y the first condition is
true and the second false. -/
theorem registerSkipsMoveOnlyPc : Obligations.RegisterSkipsMoveOnlyPc := by
  unfold Obligations.RegisterSkipsMoveOnlyPc
  intro x y s
  refine ⟨⟨_, exec_skipEqReg x y s, skipIf_beq_spec s _ _⟩,
    ⟨_, exec_skipNotEqReg x y s, skipIf_bne_spec s _ _⟩, ?_, ?_⟩
  · rw [exec_skipEqReg, beq_self_eq_true, skipIf_true, State.advance, State.setPc]
  · rw [exec_skipNotEqReg, bne_self_eq_false, skipIf_false]

end Sys2Proof.Machine

/-! PROOF. The loads, Add, Sub, the shifts and AddToPointer (42_register_alu.md R104-R108, R113, R114, R116): the
state each goes on to, and the numbers the flag writers leave. -/

namespace Sys2Proof.Machine

/-! ### The state each instruction goes on to -/

section
variable (x y : Nibble) (s : State)

@[simp] theorem exec_loadByte (kk : Byte) : exec (.loadByte x kk) s = .next (s.setReg x kk) := rfl

@[simp] theorem exec_loadReg : exec (.loadReg x y) s = .next (s.setReg x (s.reg y)) := rfl

@[simp] theorem exec_loadPointer (nnn : Addr) : exec (.loadPointer nnn) s = .next (s.setI (zextAddr nnn)) := rfl

@[simp] theorem exec_addToPointer :
    exec (.addToPointer x) s = .next (s.setI (s.i + zextByte (s.reg x))) := rfl

@[simp] theorem exec_add :
    exec (.add x y) s = .next (s.writeFlagged x (addCarry (s.reg x) (s.reg y))) := rfl

@[simp] theorem exec_sub :
    exec (.sub x y) s = .next (s.writeFlagged x (subNoBorrow (s.reg x) (s.reg y))) := rfl

@[simp] theorem exec_shiftRight :
    exec (.shiftRight x y) s = .next (s.writeFlagged x (shiftRightOut (s.shiftOperand x y))) := rfl

@[simp] theorem exec_shiftLeft :
    exec (.shiftLeft x y) s = .next (s.writeFlagged x (shiftLeftOut (s.shiftOperand x y))) := rfl

end

/-! ### What the writes leave -/

/-- A register write leaves the byte in its register, and every other register and field. -/
theorem setReg_spec (s : State) (x : Nibble) (b : Byte) :
    s.setReg x b = { s with v := (s.setReg x b).v } ∧ (s.setReg x b).reg x = b ∧
    ∀ r, r ≠ x → (s.setReg x b).reg r = s.reg r :=
  ⟨rfl, by rw [reg_setReg, if_pos rfl], fun r hr => by rw [reg_setReg, if_neg hr]⟩

/-- The flagged write with its result and flag as numbers: registers only, as FLAG_ORDER says (R103). -/
theorem writeFlagged_wrote (s : State) (x : Nibble) {r : Flagged} {result : Nat} {flag : Bool}
    (hresult : r.result.toNat = result) (hflag : r.flag = flag) :
    s.writeFlagged x r = { s with v := (s.writeFlagged x r).v } ∧
    WroteFlagged s (s.writeFlagged x r) x result flag := by
  subst hresult hflag
  exact ⟨(writeFlagged_spec s x r).1, wroteFlagged_writeFlagged s x r⟩

/-! ### The operands and results as numbers -/

@[simp] theorem toNat_zextByte (b : Byte) : (zextByte b).toNat = b.toNat :=
  BitVec.toNat_setWidth_of_le (by decide)

/-- The shifts read V[x] or V[y] as SHIFT_SOURCE says (R113, R114). -/
theorem shiftOperand_eq_ite (s : State) (x y : Nibble) :
    s.shiftOperand x y = if s.cfg.shiftSource = .x then s.reg x else s.reg y := by
  unfold State.shiftOperand
  cases s.cfg.shiftSource
  · rw [if_pos rfl]
  · rw [if_neg (by decide)]

theorem toNat_subNoBorrow_result (a b : Byte) :
    (subNoBorrow a b).result.toNat = (a.toNat + 256 - b.toNat) % 256 := by
  have hb := b.isLt
  rw [(subNoBorrow_spec a b).1]
  omega

/-- Bit 7 of a byte is its quotient by 128. -/
theorem shiftLeftOut_flag (a : Byte) : (shiftLeftOut a).flag = decide (a.toNat / 128 = 1) := by
  have ha := a.isLt
  rw [(shiftLeftOut_spec a).2, decide_eq_decide]
  omega

/-! ### The statements -/

/-- Settles O18, from the flagged write of the sum and its carry. -/
theorem addSetsSumAndCarry : Obligations.AddSetsSumAndCarry := by
  unfold Obligations.AddSetsSumAndCarry
  intro x y s
  obtain ⟨hsum, hcarry⟩ := addCarry_spec (s.reg x) (s.reg y)
  exact ⟨_, exec_add x y s, writeFlagged_wrote s x hsum hcarry⟩

/-- Settles O19, from the flagged write of the difference and its no-borrow flag. -/
theorem subSetsNoBorrow : Obligations.SubSetsNoBorrow := by
  unfold Obligations.SubSetsNoBorrow
  intro x y s
  exact ⟨_, exec_sub x y s, writeFlagged_wrote s x (toNat_subNoBorrow_result _ _) (subNoBorrow_spec _ _).2⟩

/-- Settles O21, from the flagged writes of the two shifts of the operand that SHIFT_SOURCE names. -/
theorem shiftsSetTheBitShiftedOut : Obligations.ShiftsSetTheBitShiftedOut := by
  unfold Obligations.ShiftsSetTheBitShiftedOut
  intro x y s a ha
  rw [← shiftOperand_eq_ite] at ha
  subst ha
  obtain ⟨hhalf, hlow⟩ := shiftRightOut_spec (s.shiftOperand x y)
  exact ⟨⟨_, exec_shiftRight x y s, writeFlagged_wrote s x hhalf hlow⟩,
    ⟨_, exec_shiftLeft x y s, writeFlagged_wrote s x (shiftLeftOut_spec _).1 (shiftLeftOut_flag _)⟩⟩

/-- Settles O17: two register writes, and zero-extending nnn keeps its number. -/
theorem loadsWriteTheirDestination : Obligations.LoadsWriteTheirDestination := by
  unfold Obligations.LoadsWriteTheirDestination
  intro x y kk nnn s
  exact ⟨⟨_, exec_loadByte x s kk, setReg_spec s x kk⟩, ⟨_, exec_loadReg x y s, setReg_spec s x _⟩,
    ⟨_, exec_loadPointer s nnn, rfl, toNat_zextAddr nnn⟩⟩

/-- Settles O25: the 16-bit sum with the zero-extended V[x] wraps at 2^16. -/
theorem addToPointerWraps : Obligations.AddToPointerWraps := by
  unfold Obligations.AddToPointerWraps
  intro x s
  refine ⟨_, exec_addToPointer x s, rfl, ?_⟩
  rw [State.setI_i, BitVec.toNat_add, toNat_zextByte]

end Sys2Proof.Machine

/-! PROOF. Clear (43_display.md R119, R123): the state it goes on to, and that this state's display is empty. -/

namespace Sys2Proof.Machine

@[simp] theorem exec_clear (s : State) :
    exec .clear s = .next (s.setDisp (Display.cleared s.cfg.displayW s.cfg.displayH)) := rfl

/-- A cleared grid of the configured dimensions is a well-shaped display in any state it is put in (R34). -/
theorem displayShaped_setDisp_cleared (s : State) :
    (s.setDisp (Display.cleared s.cfg.displayW s.cfg.displayH)).DisplayShaped := by
  rw [displayShaped_iff, State.setDisp_cfg, State.setDisp_disp]
  exact Display.shaped_cleared _ _

/-- Settles O27: Clear is one display write, of a grid that has the dimensions and no cell set. -/
theorem clearEmptiesTheDisplay : Obligations.ClearEmptiesTheDisplay := by
  unfold Obligations.ClearEmptiesTheDisplay
  intro s
  refine ⟨_, exec_clear s, rfl, displayShaped_setDisp_cleared s, fun cx cy => ?_⟩
  rw [State.setDisp_disp]
  exact Display.cell_cleared _ _ cx cy

end Sys2Proof.Machine

/-! PROOF. The timer copies, LoadKeyboard and the host's key moves (44_keypad_timers.md R127, R128, R135-R138;
60_exceptions.md R161-R163): the state each goes on to, and what it leaves as it was. -/

namespace Sys2Proof.Machine

/-! ### The state each instruction and host move goes on to -/

section
variable (x k : Nibble) (s : State)

@[simp] theorem exec_loadFromDT : exec (.loadFromDT x) s = .next (s.setReg x s.dt) := rfl

@[simp] theorem exec_loadIntoDT : exec (.loadIntoDT x) s = .next (s.setDT (s.reg x)) := rfl

@[simp] theorem exec_loadIntoST : exec (.loadIntoST x) s = .next (s.setST (s.reg x)) := rfl

@[simp] theorem exec_loadKeyboard :
    exec (.loadKeyboard x) s = .next (s.registerWait.setRun (.awaitingKey x)) := rfl

@[simp] theorem hostMove_setDown : hostMove (.setDown k) s = .next (setDown k s) := rfl

@[simp] theorem hostMove_setUp : hostMove (.setUp k) s = .next (setUp k s) := rfl

@[simp] theorem hostMove_readDisplay : hostMove .readDisplay s = .next s := rfl

end

/-! ### Keys and the registration -/

@[simp] theorem deliver_pending (k : Nibble) : KeyWait.pending.deliver k = .delivered k := rfl

/-- A registration that is not pending takes no key: there is none, or it holds one already (R127). -/
theorem deliver_of_ne_pending {w : KeyWait} (hw : w ≠ .pending) (k : Nibble) : w.deliver k = w := by
  cases w with
  | none => rfl
  | pending => exact absurd rfl hw
  | delivered j => rfl

/-- A key write leaves the value at its key, and every other key and field. -/
theorem setKey_spec (s : State) (k : Nibble) (b : Bool) :
    s.setKey k b = { s with keys := (s.setKey k b).keys } ∧ (s.setKey k b).keyDown k = b ∧
    ∀ j, j ≠ k → (s.setKey k b).keyDown j = s.keyDown j :=
  ⟨rfl, by rw [keyDown_setKey, if_pos rfl], fun j hj => by rw [keyDown_setKey, if_neg hj]⟩

@[simp] theorem setDown_kw (k : Nibble) (s : State) : (setDown k s).kw = s.kw.deliver k := rfl

/-- Delivering a key leaves the keys as the key write left them (R127). -/
theorem setDown_keyDown (k : Nibble) (s : State) (j : Nibble) :
    (setDown k s).keyDown j = (s.setKey k true).keyDown j := rfl

/-- The display that the host reads has the engine's cells (R163). -/
theorem cell_readDisplay (s : State) (cx cy : Nat) : (readDisplay s).cell cx cy = s.disp.cell cx cy := rfl

/-! ### The statements -/

/-- Settles O33: one register write of DT, and one write of each timer. -/
theorem timerInstructionsCopy : Obligations.TimerInstructionsCopy := by
  unfold Obligations.TimerInstructionsCopy
  intro x s
  refine ⟨⟨_, exec_loadFromDT x s, setReg_spec s x s.dt⟩, ?_, ?_⟩
  · rw [exec_loadIntoDT, State.setDT]
  · rw [exec_loadIntoST, State.setST]

/-- Settles O34: the registration and the run state are the two writes of LoadKeyboard. -/
theorem loadKeyboardBlocks : Obligations.LoadKeyboardBlocks := by
  unfold Obligations.LoadKeyboardBlocks
  intro x s
  rw [exec_loadKeyboard, State.registerWait, State.setKw, State.setRun]

/-- Settles O58: set_down and set_up are one key write each, and set_down also delivers its key, which only a
pending registration takes. -/
theorem hostTouchesOnlyTheKeys : Obligations.HostTouchesOnlyTheKeys := by
  unfold Obligations.HostTouchesOnlyTheKeys
  intro k s
  obtain ⟨-, hdown, hdownRest⟩ := setKey_spec s k true
  obtain ⟨hframe, hup, hupRest⟩ := setKey_spec s k false
  refine ⟨⟨setDown k s, hostMove_setDown k s, ?_, fun j hj => ?_, fun hpending => ?_, fun hother => ?_,
      setDown_eq k s⟩,
    ⟨setUp k s, hostMove_setUp k s, hup, hupRest, hframe⟩, hostMove_readDisplay s, cell_readDisplay s⟩
  · rw [setDown_keyDown, hdown]
  · rw [setDown_keyDown, hdownRest j hj]
  · rw [setDown_kw, hpending, deliver_pending]
  · rw [setDown_kw, deliver_of_ne_pending hother]

end Sys2Proof.Machine

/-! PROOF. LoadFont (45_memory_block.md R140): the state it goes on to, and the number of the glyph's address. -/

namespace Sys2Proof.Machine

@[simp] theorem exec_loadFont (x : Nibble) (s : State) :
    exec (.loadFont x) s = .next (s.setI (zextByte (s.reg x) * 5)) := rfl

/-- Five times a zero-extended byte is at most 255 * 5 = 1275, so the 16-bit product never wraps (R140). -/
theorem toNat_zextByte_mul_five (b : Byte) : (zextByte b * 5).toNat = b.toNat * 5 := by
  have hsmall : b.toNat * 5 < 2 ^ 16 := by have := b.isLt; omega
  calc (zextByte b * 5).toNat = b.toNat * 5 % 2 ^ 16 := by rw [BitVec.toNat_mul, toNat_zextByte]; rfl
    _ = b.toNat * 5 := Nat.mod_eq_of_lt hsmall

/-- Settles O37: LoadFont is one write of I, and the product it writes does not wrap. -/
theorem loadFontPointsAtTheGlyph : Obligations.LoadFontPointsAtTheGlyph := by
  unfold Obligations.LoadFontPointsAtTheGlyph
  intro x s
  exact ⟨_, exec_loadFont x s, rfl, toNat_zextByte_mul_five (s.reg x)⟩

end Sys2Proof.Machine

/-! PROOF. The opcode map (30_encoding.md R68-R74): the pattern of every operation decodes to it, and decoding and
encoding are inverse. -/

namespace Sys2Proof

/-! ### The patterns of R68, field by field from the left -/

section
variable (m : SysMode) (x y n : Nibble) (kk : Byte) (nnn : Addr)

theorem decodeWord_append_jump : decodeWord m ((0x1 : Nibble) ++ nnn) = .ok (.jump nnn) := by
  obtain ⟨hg, hnnn⟩ := fields_nnn 0x1 nnn
  rw [decodeWord_group1 hg, hnnn]

theorem decodeWord_append_call : decodeWord m ((0x2 : Nibble) ++ nnn) = .ok (.call nnn) := by
  obtain ⟨hg, hnnn⟩ := fields_nnn 0x2 nnn
  rw [decodeWord_group2 hg, hnnn]

theorem decodeWord_append_loadPointer : decodeWord m ((0xA : Nibble) ++ nnn) = .ok (.loadPointer nnn) := by
  obtain ⟨hg, hnnn⟩ := fields_nnn 0xA nnn
  rw [decodeWord_groupA hg, hnnn]

theorem decodeWord_append_jumpOffset : decodeWord m ((0xB : Nibble) ++ nnn) = .ok (.jumpOffset nnn) := by
  obtain ⟨hg, hnnn⟩ := fields_nnn 0xB nnn
  rw [decodeWord_groupB hg, hnnn]

theorem decodeWord_append_skipEqByte :
    decodeWord m ((0x3 : Nibble) ++ x ++ kk) = .ok (.skipEqByte x kk) := by
  obtain ⟨hg, hx, hkk⟩ := fields_xkk 0x3 x kk
  rw [decodeWord_group3 hg, hx, hkk]

theorem decodeWord_append_skipNotEqByte :
    decodeWord m ((0x4 : Nibble) ++ x ++ kk) = .ok (.skipNotEqByte x kk) := by
  obtain ⟨hg, hx, hkk⟩ := fields_xkk 0x4 x kk
  rw [decodeWord_group4 hg, hx, hkk]

theorem decodeWord_append_loadByte : decodeWord m ((0x6 : Nibble) ++ x ++ kk) = .ok (.loadByte x kk) := by
  obtain ⟨hg, hx, hkk⟩ := fields_xkk 0x6 x kk
  rw [decodeWord_group6 hg, hx, hkk]

theorem decodeWord_append_addByte : decodeWord m ((0x7 : Nibble) ++ x ++ kk) = .ok (.addByte x kk) := by
  obtain ⟨hg, hx, hkk⟩ := fields_xkk 0x7 x kk
  rw [decodeWord_group7 hg, hx, hkk]

theorem decodeWord_append_random : decodeWord m ((0xC : Nibble) ++ x ++ kk) = .ok (.random x kk) := by
  obtain ⟨hg, hx, hkk⟩ := fields_xkk 0xC x kk
  rw [decodeWord_groupC hg, hx, hkk]

theorem decodeWord_append_skipEqReg :
    decodeWord m ((0x5 : Nibble) ++ x ++ y ++ (0x0 : Nibble)) = .ok (.skipEqReg x y) := by
  obtain ⟨hg, hx, hy, hn⟩ := fields_xyn 0x5 x y 0x0
  rw [decodeWord_group5 hg, hx, hy, if_pos hn]

theorem decodeWord_append_skipNotEqReg :
    decodeWord m ((0x9 : Nibble) ++ x ++ y ++ (0x0 : Nibble)) = .ok (.skipNotEqReg x y) := by
  obtain ⟨hg, hx, hy, hn⟩ := fields_xyn 0x9 x y 0x0
  rw [decodeWord_group9 hg, hx, hy, if_pos hn]

theorem decodeWord_append_draw :
    decodeWord m ((0xD : Nibble) ++ x ++ y ++ n) = .ok (.draw x y n) := by
  obtain ⟨hg, hx, hy, hn⟩ := fields_xyn 0xD x y n
  rw [decodeWord_groupD hg, hx, hy, hn]

theorem decodeWord_append_loadReg :
    decodeWord m ((0x8 : Nibble) ++ x ++ y ++ (0x0 : Nibble)) = .ok (.loadReg x y) := by
  obtain ⟨hg, hx, hy, hn⟩ := fields_xyn 0x8 x y 0x0
  rw [decodeWord_group8 hg, decodeGroup8, hx, hy, hn]; rfl

theorem decodeWord_append_or :
    decodeWord m ((0x8 : Nibble) ++ x ++ y ++ (0x1 : Nibble)) = .ok (.or x y) := by
  obtain ⟨hg, hx, hy, hn⟩ := fields_xyn 0x8 x y 0x1
  rw [decodeWord_group8 hg, decodeGroup8, hx, hy, hn]; rfl

theorem decodeWord_append_and :
    decodeWord m ((0x8 : Nibble) ++ x ++ y ++ (0x2 : Nibble)) = .ok (.and x y) := by
  obtain ⟨hg, hx, hy, hn⟩ := fields_xyn 0x8 x y 0x2
  rw [decodeWord_group8 hg, decodeGroup8, hx, hy, hn]; rfl

theorem decodeWord_append_xor :
    decodeWord m ((0x8 : Nibble) ++ x ++ y ++ (0x3 : Nibble)) = .ok (.xor x y) := by
  obtain ⟨hg, hx, hy, hn⟩ := fields_xyn 0x8 x y 0x3
  rw [decodeWord_group8 hg, decodeGroup8, hx, hy, hn]; rfl

theorem decodeWord_append_add :
    decodeWord m ((0x8 : Nibble) ++ x ++ y ++ (0x4 : Nibble)) = .ok (.add x y) := by
  obtain ⟨hg, hx, hy, hn⟩ := fields_xyn 0x8 x y 0x4
  rw [decodeWord_group8 hg, decodeGroup8, hx, hy, hn]; rfl

theorem decodeWord_append_sub :
    decodeWord m ((0x8 : Nibble) ++ x ++ y ++ (0x5 : Nibble)) = .ok (.sub x y) := by
  obtain ⟨hg, hx, hy, hn⟩ := fields_xyn 0x8 x y 0x5
  rw [decodeWord_group8 hg, decodeGroup8, hx, hy, hn]; rfl

theorem decodeWord_append_shiftRight :
    decodeWord m ((0x8 : Nibble) ++ x ++ y ++ (0x6 : Nibble)) = .ok (.shiftRight x y) := by
  obtain ⟨hg, hx, hy, hn⟩ := fields_xyn 0x8 x y 0x6
  rw [decodeWord_group8 hg, decodeGroup8, hx, hy, hn]; rfl

theorem decodeWord_append_subNeg :
    decodeWord m ((0x8 : Nibble) ++ x ++ y ++ (0x7 : Nibble)) = .ok (.subNeg x y) := by
  obtain ⟨hg, hx, hy, hn⟩ := fields_xyn 0x8 x y 0x7
  rw [decodeWord_group8 hg, decodeGroup8, hx, hy, hn]; rfl

theorem decodeWord_append_shiftLeft :
    decodeWord m ((0x8 : Nibble) ++ x ++ y ++ (0xE : Nibble)) = .ok (.shiftLeft x y) := by
  obtain ⟨hg, hx, hy, hn⟩ := fields_xyn 0x8 x y 0xE
  rw [decodeWord_group8 hg, decodeGroup8, hx, hy, hn]; rfl

theorem decodeWord_append_skipPressed :
    decodeWord m ((0xE : Nibble) ++ x ++ (0x9E : Byte)) = .ok (.skipPressed x) := by
  obtain ⟨hg, hx, hkk⟩ := fields_xkk 0xE x 0x9E
  rw [decodeWord_groupE hg, decodeGroupE, hx, hkk]; rfl

theorem decodeWord_append_skipNotPressed :
    decodeWord m ((0xE : Nibble) ++ x ++ (0xA1 : Byte)) = .ok (.skipNotPressed x) := by
  obtain ⟨hg, hx, hkk⟩ := fields_xkk 0xE x 0xA1
  rw [decodeWord_groupE hg, decodeGroupE, hx, hkk]; rfl

theorem decodeWord_append_loadFromDT :
    decodeWord m ((0xF : Nibble) ++ x ++ (0x07 : Byte)) = .ok (.loadFromDT x) := by
  obtain ⟨hg, hx, hkk⟩ := fields_xkk 0xF x 0x07
  rw [decodeWord_groupF hg, decodeGroupF, hx, hkk]; rfl

theorem decodeWord_append_loadKeyboard :
    decodeWord m ((0xF : Nibble) ++ x ++ (0x0A : Byte)) = .ok (.loadKeyboard x) := by
  obtain ⟨hg, hx, hkk⟩ := fields_xkk 0xF x 0x0A
  rw [decodeWord_groupF hg, decodeGroupF, hx, hkk]; rfl

theorem decodeWord_append_loadIntoDT :
    decodeWord m ((0xF : Nibble) ++ x ++ (0x15 : Byte)) = .ok (.loadIntoDT x) := by
  obtain ⟨hg, hx, hkk⟩ := fields_xkk 0xF x 0x15
  rw [decodeWord_groupF hg, decodeGroupF, hx, hkk]; rfl

theorem decodeWord_append_loadIntoST :
    decodeWord m ((0xF : Nibble) ++ x ++ (0x18 : Byte)) = .ok (.loadIntoST x) := by
  obtain ⟨hg, hx, hkk⟩ := fields_xkk 0xF x 0x18
  rw [decodeWord_groupF hg, decodeGroupF, hx, hkk]; rfl

theorem decodeWord_append_addToPointer :
    decodeWord m ((0xF : Nibble) ++ x ++ (0x1E : Byte)) = .ok (.addToPointer x) := by
  obtain ⟨hg, hx, hkk⟩ := fields_xkk 0xF x 0x1E
  rw [decodeWord_groupF hg, decodeGroupF, hx, hkk]; rfl

theorem decodeWord_append_loadFont :
    decodeWord m ((0xF : Nibble) ++ x ++ (0x29 : Byte)) = .ok (.loadFont x) := by
  obtain ⟨hg, hx, hkk⟩ := fields_xkk 0xF x 0x29
  rw [decodeWord_groupF hg, decodeGroupF, hx, hkk]; rfl

theorem decodeWord_append_loadDigits :
    decodeWord m ((0xF : Nibble) ++ x ++ (0x33 : Byte)) = .ok (.loadDigits x) := by
  obtain ⟨hg, hx, hkk⟩ := fields_xkk 0xF x 0x33
  rw [decodeWord_groupF hg, decodeGroupF, hx, hkk]; rfl

theorem decodeWord_append_loadFromRegs :
    decodeWord m ((0xF : Nibble) ++ x ++ (0x55 : Byte)) = .ok (.loadFromRegs x) := by
  obtain ⟨hg, hx, hkk⟩ := fields_xkk 0xF x 0x55
  rw [decodeWord_groupF hg, decodeGroupF, hx, hkk]; rfl

theorem decodeWord_append_loadIntoRegs :
    decodeWord m ((0xF : Nibble) ++ x ++ (0x65 : Byte)) = .ok (.loadIntoRegs x) := by
  obtain ⟨hg, hx, hkk⟩ := fields_xkk 0xF x 0x65
  rw [decodeWord_groupF hg, decodeGroupF, hx, hkk]; rfl

end

/-! ### Group 0 (R70, R71) -/

/-- The words that decode to Sys: those of group 0 that are not Clear's or Return's, under SYS_MODE = Nop. -/
theorem decodeGroup0_eq_sys_iff {m : SysMode} {w : Word} {nnn : Addr} :
    decodeGroup0 m w = .ok (.sys nnn) ↔ m = .nop ∧ w ≠ 0x00E0 ∧ w ≠ 0x00EE ∧ fieldNNN w = nnn := by
  unfold decodeGroup0
  split
  · rename_i hw; simp [hw]
  split
  · rename_i hw; simp [hw]
  rename_i hclear hret
  cases m
  · exact ⟨fun h => by cases h; exact ⟨rfl, hclear, hret, rfl⟩, fun ⟨_, _, _, h⟩ => by rw [h]⟩
  · exact ⟨nofun, nofun⟩

theorem encode_sys (nnn : Addr) : encode (.sys nnn) = encodeAddr 0x0000 nnn := rfl

theorem fieldNNN_encode_sys (nnn : Addr) : fieldNNN (encode (.sys nnn)) = nnn := by
  rw [encode_sys, fieldNNN_encodeAddr, show fieldNNN 0x0000 = 0#12 from rfl, BitVec.zero_or]

theorem fieldGroup_encode_sys (nnn : Addr) : fieldGroup (encode (.sys nnn)) = 0x0 := by
  rw [encode_sys, fieldGroup_encodeAddr]; rfl

/-- The word of Sys nnn is 0nnn: a word of group 0 with that field (R73). -/
theorem encode_sys_eq_iff (nnn : Addr) {w : Word} (hw : fieldGroup w = 0x0) :
    encode (.sys nnn) = w ↔ nnn = fieldNNN w := by
  constructor
  · rintro rfl
    exact (fieldNNN_encode_sys nnn).symm
  · rintro rfl
    exact encodeAddr_fields hw rfl

/-- The word of Sys decodes to it exactly when Sys is well formed (R70, R74). -/
theorem decodeWord_encode_sys_iff (m : SysMode) (nnn : Addr) :
    decodeWord m (encode (.sys nnn)) = .ok (.sys nnn) ↔ (Instr.sys nnn).wf m = true := by
  rw [decodeWord_group0 (fieldGroup_encode_sys nnn), decodeGroup0_eq_sys_iff, fieldNNN_encode_sys, ne_eq, ne_eq,
    encode_sys_eq_iff nnn rfl, encode_sys_eq_iff nnn rfl]
  simp only [Instr.wf, Bool.and_eq_true, beq_iff_eq, bne_iff_ne, and_true, and_assoc]
  exact Iff.rfl

/-! ### Every word that decodes is the encoding of what it decodes to (30_encoding.md section 4) -/

section
variable {m : SysMode} {w : Word} {i : Instr}

theorem encode_of_decodeGroup0 (hg : fieldGroup w = 0x0) (h : decodeGroup0 m w = .ok i) : encode i = w := by
  unfold decodeGroup0 at h
  split at h
  · rename_i hw; cases h; exact hw.symm
  split at h
  · rename_i hw; cases h; exact hw.symm
  split at h
  · cases h; exact (encode_sys_eq_iff _ hg).2 rfl
  · cases h

theorem encode_of_decodeGroup8 (hg : fieldGroup w = 0x8) (h : decodeGroup8 w = .ok i) : encode i = w := by
  unfold decodeGroup8 at h
  split at h
  case h_10 => cases h
  all_goals
    rename_i hn
    cases h
    exact encodeXY_fields hg rfl rfl (BitVec.eq_of_toNat_eq hn)

theorem encode_of_decodeGroupE (hg : fieldGroup w = 0xE) (h : decodeGroupE w = .ok i) : encode i = w := by
  unfold decodeGroupE at h
  split_ifs at h <;> cases h <;> exact encodeX_fields hg rfl (by assumption)

theorem encode_of_decodeGroupF (hg : fieldGroup w = 0xF) (h : decodeGroupF w = .ok i) : encode i = w := by
  unfold decodeGroupF at h
  split_ifs at h <;> cases h <;> exact encodeX_fields hg rfl (by assumption)

theorem encode_of_decodeWord (h : decodeWord m w = .ok i) : encode i = w := by
  rcases nibble_cases (fieldGroup w) with hg | hg | hg | hg | hg | hg | hg | hg | hg | hg | hg | hg | hg | hg | hg | hg
  · exact encode_of_decodeGroup0 hg (decodeWord_group0 hg ▸ h)
  · rw [decodeWord_group1 hg] at h; cases h; exact encodeAddr_fields hg rfl
  · rw [decodeWord_group2 hg] at h; cases h; exact encodeAddr_fields hg rfl
  · rw [decodeWord_group3 hg] at h; cases h; exact encodeXKK_fields hg rfl rfl
  · rw [decodeWord_group4 hg] at h; cases h; exact encodeXKK_fields hg rfl rfl
  · rw [decodeWord_group5 hg] at h
    split_ifs at h with hn; cases h; exact encodeXY_fields hg rfl rfl hn
  · rw [decodeWord_group6 hg] at h; cases h; exact encodeXKK_fields hg rfl rfl
  · rw [decodeWord_group7 hg] at h; cases h; exact encodeXKK_fields hg rfl rfl
  · exact encode_of_decodeGroup8 hg (decodeWord_group8 hg ▸ h)
  · rw [decodeWord_group9 hg] at h
    split_ifs at h with hn; cases h; exact encodeXY_fields hg rfl rfl hn
  · rw [decodeWord_groupA hg] at h; cases h; exact encodeAddr_fields hg rfl
  · rw [decodeWord_groupB hg] at h; cases h; exact encodeAddr_fields hg rfl
  · rw [decodeWord_groupC hg] at h; cases h; exact encodeXKK_fields hg rfl rfl
  · rw [decodeWord_groupD hg] at h; cases h; exact encodeXYN_fields hg rfl rfl rfl
  · exact encode_of_decodeGroupE hg (decodeWord_groupE hg ▸ h)
  · exact encode_of_decodeGroupF hg (decodeWord_groupF hg ▸ h)

/-- An operation that some word decodes to is what its own word decodes to. -/
theorem decodeWord_encode_of_decodes (h : decodeWord m w = .ok i) : decodeWord m (encode i) = .ok i := by
  rw [encode_of_decodeWord h, h]

end

/-- The word of every operation but Sys decodes to it. -/
theorem decodeWord_encode_of_ne_sys (m : SysMode) {i : Instr} (hi : ∀ nnn, i ≠ .sys nnn) :
    decodeWord m (encode i) = .ok i := by
  cases i with
  | sys nnn => exact absurd rfl (hi nnn)
  | clear => exact decodeWord_group0 rfl
  | ret => exact decodeWord_group0 rfl
  | jump nnn => exact decodeWord_encode_of_decodes (decodeWord_append_jump m nnn)
  | call nnn => exact decodeWord_encode_of_decodes (decodeWord_append_call m nnn)
  | loadPointer nnn => exact decodeWord_encode_of_decodes (decodeWord_append_loadPointer m nnn)
  | jumpOffset nnn => exact decodeWord_encode_of_decodes (decodeWord_append_jumpOffset m nnn)
  | skipEqByte x kk => exact decodeWord_encode_of_decodes (decodeWord_append_skipEqByte m x kk)
  | skipNotEqByte x kk => exact decodeWord_encode_of_decodes (decodeWord_append_skipNotEqByte m x kk)
  | loadByte x kk => exact decodeWord_encode_of_decodes (decodeWord_append_loadByte m x kk)
  | addByte x kk => exact decodeWord_encode_of_decodes (decodeWord_append_addByte m x kk)
  | random x kk => exact decodeWord_encode_of_decodes (decodeWord_append_random m x kk)
  | skipEqReg x y => exact decodeWord_encode_of_decodes (decodeWord_append_skipEqReg m x y)
  | skipNotEqReg x y => exact decodeWord_encode_of_decodes (decodeWord_append_skipNotEqReg m x y)
  | loadReg x y => exact decodeWord_encode_of_decodes (decodeWord_append_loadReg m x y)
  | or x y => exact decodeWord_encode_of_decodes (decodeWord_append_or m x y)
  | and x y => exact decodeWord_encode_of_decodes (decodeWord_append_and m x y)
  | xor x y => exact decodeWord_encode_of_decodes (decodeWord_append_xor m x y)
  | add x y => exact decodeWord_encode_of_decodes (decodeWord_append_add m x y)
  | sub x y => exact decodeWord_encode_of_decodes (decodeWord_append_sub m x y)
  | shiftRight x y => exact decodeWord_encode_of_decodes (decodeWord_append_shiftRight m x y)
  | subNeg x y => exact decodeWord_encode_of_decodes (decodeWord_append_subNeg m x y)
  | shiftLeft x y => exact decodeWord_encode_of_decodes (decodeWord_append_shiftLeft m x y)
  | draw x y n => exact decodeWord_encode_of_decodes (decodeWord_append_draw m x y n)
  | skipPressed x => exact decodeWord_encode_of_decodes (decodeWord_append_skipPressed m x)
  | skipNotPressed x => exact decodeWord_encode_of_decodes (decodeWord_append_skipNotPressed m x)
  | loadFromDT x => exact decodeWord_encode_of_decodes (decodeWord_append_loadFromDT m x)
  | loadKeyboard x => exact decodeWord_encode_of_decodes (decodeWord_append_loadKeyboard m x)
  | loadIntoDT x => exact decodeWord_encode_of_decodes (decodeWord_append_loadIntoDT m x)
  | loadIntoST x => exact decodeWord_encode_of_decodes (decodeWord_append_loadIntoST m x)
  | addToPointer x => exact decodeWord_encode_of_decodes (decodeWord_append_addToPointer m x)
  | loadFont x => exact decodeWord_encode_of_decodes (decodeWord_append_loadFont m x)
  | loadDigits x => exact decodeWord_encode_of_decodes (decodeWord_append_loadDigits m x)
  | loadFromRegs x => exact decodeWord_encode_of_decodes (decodeWord_append_loadFromRegs m x)
  | loadIntoRegs x => exact decodeWord_encode_of_decodes (decodeWord_append_loadIntoRegs m x)

theorem wf_of_ne_sys (m : SysMode) {i : Instr} (hi : ∀ nnn, i ≠ .sys nnn) : i.wf m = true := by
  cases i
  case sys nnn => exact absurd rfl (hi nnn)
  all_goals rfl

/-- The word of an operation decodes to it exactly when the operation is well formed (30_encoding.md section 4). -/
theorem decodeWord_encode_iff_wf (m : SysMode) (i : Instr) :
    decodeWord m (encode i) = .ok i ↔ i.wf m = true := by
  by_cases hi : ∃ nnn, i = .sys nnn
  · obtain ⟨nnn, rfl⟩ := hi
    exact decodeWord_encode_sys_iff m nnn
  · rw [not_exists] at hi
    exact iff_of_true (decodeWord_encode_of_ne_sys m hi) (wf_of_ne_sys m hi)

theorem wf_sys_nop_iff (nnn : Addr) : (Instr.sys nnn).wf .nop = true ↔ nnn ≠ 0x0E0 ∧ nnn ≠ 0x0EE := by
  simp only [Instr.wf, beq_self_eq_true, Bool.true_and, Bool.and_eq_true, bne_iff_ne]

/-- Settles O4: one lemma for each pattern. -/
theorem patternsDecodeToTheirOperations : Obligations.PatternsDecodeToTheirOperations := by
  unfold Obligations.PatternsDecodeToTheirOperations
  intro m x y n kk nnn
  exact ⟨⟨decodeWord_append_jump m nnn, decodeWord_append_call m nnn, decodeWord_append_loadPointer m nnn,
      decodeWord_append_jumpOffset m nnn⟩,
    ⟨decodeWord_append_skipEqByte m x kk, decodeWord_append_skipNotEqByte m x kk,
      decodeWord_append_loadByte m x kk, decodeWord_append_addByte m x kk, decodeWord_append_random m x kk⟩,
    ⟨decodeWord_append_skipEqReg m x y, decodeWord_append_skipNotEqReg m x y, decodeWord_append_draw m x y n⟩,
    ⟨decodeWord_append_loadReg m x y, decodeWord_append_or m x y, decodeWord_append_and m x y,
      decodeWord_append_xor m x y, decodeWord_append_add m x y, decodeWord_append_sub m x y,
      decodeWord_append_shiftRight m x y, decodeWord_append_subNeg m x y, decodeWord_append_shiftLeft m x y⟩,
    ⟨decodeWord_append_skipPressed m x, decodeWord_append_skipNotPressed m x⟩,
    ⟨decodeWord_append_loadFromDT m x, decodeWord_append_loadKeyboard m x, decodeWord_append_loadIntoDT m x,
      decodeWord_append_loadIntoST m x, decodeWord_append_addToPointer m x, decodeWord_append_loadFont m x,
      decodeWord_append_loadDigits m x, decodeWord_append_loadFromRegs m x, decodeWord_append_loadIntoRegs m x⟩⟩

/-- Settles O1: a word that decodes is its fields put together again, and so is the word of each operation but
Sys, whose pattern decodes to it; Sys meets the decoder's two exceptions. -/
theorem encodeDecodeRoundTrip : Obligations.EncodeDecodeRoundTrip := by
  unfold Obligations.EncodeDecodeRoundTrip
  exact ⟨fun m w i h => encode_of_decodeWord h, decodeWord_encode_iff_wf, wf_sys_nop_iff,
    fun i hi => wf_of_ne_sys .nop hi, rfl, decodeWord_group0 rfl, rfl, decodeWord_group0 rfl⟩

/-- Settles O5: the five words are their operations' encodings. -/
theorem writtenWordsDecode : Obligations.WrittenWordsDecode := by
  unfold Obligations.WrittenWordsDecode
  exact ⟨decodeWord_append_call .nop 0xABC, decodeWord_append_shiftRight .nop 0x1 0x2,
    decodeWord_append_draw .nop 0x1 0x2 0x5, decodeWord_append_skipPressed .nop 0x4,
    decodeWord_append_loadIntoRegs .nop 0xF⟩

end Sys2Proof

/-! PROOF. The illegal words and the rows of the opcode map (30_encoding.md R68-R71): where the decoder refuses,
how many words it refuses, and which row a word selects. -/

namespace Sys2Proof

open Machine

/-! ### The illegal words, one opcode group at a time (R71) -/

section
variable {m : SysMode} {w : Word}

theorem decodeGroup0_error_iff :
    decodeGroup0 m w = .error (.unknownInstruction w) ↔ m = .decodeError ∧ w ≠ 0x00E0 ∧ w ≠ 0x00EE := by
  unfold decodeGroup0
  split
  · rename_i hw; simp [hw]
  split
  · rename_i hw; simp [hw]
  rename_i hclear hret
  cases m
  · exact ⟨nofun, nofun⟩
  · exact ⟨fun _ => ⟨rfl, hclear, hret⟩, fun _ => rfl⟩

theorem decodeGroup8_error_iff : decodeGroup8 w = .error (.unknownInstruction w) ↔
    fieldN w ∈ ([0x8, 0x9, 0xA, 0xB, 0xC, 0xD, 0xF] : List Nibble) := by
  unfold decodeGroup8
  rcases nibble_cases (fieldN w) with hn | hn | hn | hn | hn | hn | hn | hn | hn | hn | hn | hn | hn | hn | hn | hn <;>
    simp [hn]

theorem decodeGroupE_error_iff : decodeGroupE w = .error (.unknownInstruction w) ↔
    fieldKK w ∉ ([0x9E, 0xA1] : List Byte) := by
  unfold decodeGroupE
  split_ifs <;> simp_all

theorem decodeGroupF_error_iff : decodeGroupF w = .error (.unknownInstruction w) ↔
    fieldKK w ∉ ([0x07, 0x0A, 0x15, 0x18, 0x1E, 0x29, 0x33, 0x55, 0x65] : List Byte) := by
  unfold decodeGroupF
  split_ifs <;> simp_all

/-- The decoder refuses exactly the words that R71 lists. -/
theorem decodeWord_error_iff : decodeWord m w = .error (.unknownInstruction w) ↔ IllegalWord m w := by
  unfold IllegalWord
  rcases nibble_cases (fieldGroup w) with hg | hg | hg | hg | hg | hg | hg | hg | hg | hg | hg | hg | hg | hg | hg | hg
  · rw [decodeWord_group0 hg, decodeGroup0_error_iff]; simp [hg]
  · rw [decodeWord_group1 hg]; simp [hg]
  · rw [decodeWord_group2 hg]; simp [hg]
  · rw [decodeWord_group3 hg]; simp [hg]
  · rw [decodeWord_group4 hg]; simp [hg]
  · rw [decodeWord_group5 hg]; simp [hg]
  · rw [decodeWord_group6 hg]; simp [hg]
  · rw [decodeWord_group7 hg]; simp [hg]
  · rw [decodeWord_group8 hg, decodeGroup8_error_iff]; simp [hg]
  · rw [decodeWord_group9 hg]; simp [hg]
  · rw [decodeWord_groupA hg]; simp [hg]
  · rw [decodeWord_groupB hg]; simp [hg]
  · rw [decodeWord_groupC hg]; simp [hg]
  · rw [decodeWord_groupD hg]; simp [hg]
  · rw [decodeWord_groupE hg, decodeGroupE_error_iff]; simp [hg]
  · rw [decodeWord_groupF hg, decodeGroupF_error_iff]; simp [hg]

/-- Every word that is not listed decodes. -/
theorem decodeWord_ok_of_not_illegal (h : ¬ IllegalWord m w) : ∃ i, decodeWord m w = .ok i := by
  cases hd : decodeWord m w with
  | ok i => exact ⟨i, rfl⟩
  | error e => exact absurd (decodeWord_error_iff.1 (decodeWord_error hd ▸ hd)) h

/-- The decoder's refusals are those of the list, whatever the refusal names. -/
theorem undecodable_iff : undecodable m w = true ↔ IllegalWord m w := by
  unfold undecodable
  cases hd : decodeWord m w with
  | ok i => simp [← decodeWord_error_iff, hd]
  | error e =>
    have he := decodeWord_error hd
    subst he
    simp [← decodeWord_error_iff, hd]

end

/-- A word that does not decode halts with pc past it, and nothing else changes (R148). -/
theorem fetchExecute_of_error {s : State} {e : DecodeError}
    (h : decodeWord s.cfg.sysMode s.fetchWord = .error e) :
    fetchExecute s = .next { s with pc := s.pc + 2, run := .halted (.decodeError s.fetchWord) } := by
  unfold fetchExecute
  rw [h]
  exact takeHalt_eq _ _

theorem fetchExecute_of_illegal {s : State} (h : IllegalWord s.cfg.sysMode s.fetchWord) :
    fetchExecute s = .next { s with pc := s.pc + 2, run := .halted (.decodeError s.fetchWord) } :=
  fetchExecute_of_error (decodeWord_error_iff.2 h)

/-! ### How many words are illegal (R71) -/

/-- A predicate of the residue modulo `n` holds as often below `q * n` as `q` times below `n`. -/
theorem countP_range_mul (q n : Nat) (p : Nat → Bool) :
    (List.range (q * n)).countP (fun k => p (k % n)) = q * (List.range n).countP p := by
  induction q with
  | zero => simp
  | succ q ih =>
    rw [Nat.succ_mul, List.range_add, List.countP_append, ih, List.countP_map, Nat.succ_mul]
    congr 1
    refine List.countP_congr fun k hk => ?_
    rw [List.mem_range] at hk
    simp [Nat.add_mod, Nat.mod_eq_of_lt hk]

/-- Of the numbers below `n` all but those of a list are outside it. -/
theorem countP_range_not_mem {n : Nat} {l : List Nat} (hl : l.Nodup) (hlt : ∀ a ∈ l, a < n) :
    (List.range n).countP (fun k => decide (k ∉ l)) = n - l.length := by
  have hsub : l.toFinset ⊆ Finset.range n := fun a ha => Finset.mem_range.2 (hlt a (List.mem_toFinset.1 ha))
  calc (List.range n).countP (fun k => decide (k ∉ l))
      = ((List.range n).filter fun k => decide (k ∉ l)).length := List.countP_eq_length_filter
    _ = ((Finset.range n).filter (· ∉ l)).card := rfl
    _ = (Finset.range n \ l.toFinset).card := by congr 1; ext a; simp
    _ = n - l.length := by
      rw [Finset.card_sdiff_of_subset hsub, Finset.card_range, List.toFinset_card_of_nodup hl]

section
variable {m : SysMode} {g : Nat}

/-- If the words of a group are illegal by their residue modulo `n`, a divisor of 4096, being none of a list, then
their number is that of the other residues, once for every multiple of `n`. -/
theorem illegalCount_eq {q n : Nat} {legal : List Nat} (hg : g < 16) (hq : q * n = 4096)
    (hl : legal.Nodup) (hlt : ∀ a ∈ legal, a < n)
    (h : ∀ w : Word, fieldGroup w = BitVec.ofNat 4 g → (IllegalWord m w ↔ w.toNat % n ∉ legal)) :
    illegalCount m g = q * (n - legal.length) := by
  rw [← countP_range_not_mem hl hlt, ← countP_range_mul, hq]
  refine List.countP_congr fun k hk => ?_
  rw [List.mem_range] at hk
  have hw : (BitVec.ofNat 16 (g * 4096 + k)).toNat = g * 4096 + k := by rw [BitVec.toNat_ofNat]; omega
  have hgroup : fieldGroup (BitVec.ofNat 16 (g * 4096 + k)) = BitVec.ofNat 4 g :=
    BitVec.eq_of_toNat_eq (by rw [toNat_fieldGroup, hw, BitVec.toNat_ofNat]; omega)
  have hmod : (g * 4096 + k) % n = k % n := by
    rw [← hq, show g * (q * n) + k = k + n * (g * q) by ring, Nat.add_mul_mod_self_left]
  rw [undecodable_iff, h _ hgroup, hw, hmod, decide_eq_true_iff]

/-- A group without an illegal word. -/
theorem illegalCount_eq_zero (hg : g < 16)
    (h : ∀ w : Word, fieldGroup w = BitVec.ofNat 4 g → ¬ IllegalWord m w) : illegalCount m g = 0 :=
  illegalCount_eq (q := 4096) (n := 1) (legal := [0]) hg rfl (by decide) (by decide) fun w hw =>
    iff_of_false (h w hw) (by simp [Nat.mod_one])

theorem illegalCount_group5 (m : SysMode) : illegalCount m 0x5 = 3840 :=
  illegalCount_eq (q := 256) (n := 16) (legal := [0]) (by decide) rfl (by decide) (by decide) fun w hw => by
    simp [IllegalWord, hw, ← BitVec.toNat_inj, toNat_fieldN]

theorem illegalCount_group8 (m : SysMode) : illegalCount m 0x8 = 1792 :=
  illegalCount_eq (q := 256) (n := 16) (legal := [0x0, 0x1, 0x2, 0x3, 0x4, 0x5, 0x6, 0x7, 0xE]) (by decide) rfl
    (by decide) (by decide) fun w hw => by
      simp [IllegalWord, hw, ← BitVec.toNat_inj, toNat_fieldN]; omega

theorem illegalCount_group9 (m : SysMode) : illegalCount m 0x9 = 3840 :=
  illegalCount_eq (q := 256) (n := 16) (legal := [0]) (by decide) rfl (by decide) (by decide) fun w hw => by
    simp [IllegalWord, hw, ← BitVec.toNat_inj, toNat_fieldN]

theorem illegalCount_groupE (m : SysMode) : illegalCount m 0xE = 4064 :=
  illegalCount_eq (q := 16) (n := 256) (legal := [0x9E, 0xA1]) (by decide) rfl (by decide) (by decide)
    fun w hw => by simp [IllegalWord, hw, ← BitVec.toNat_inj, toNat_fieldKK]

theorem illegalCount_groupF (m : SysMode) : illegalCount m 0xF = 3952 :=
  illegalCount_eq (q := 16) (n := 256) (legal := [0x07, 0x0A, 0x15, 0x18, 0x1E, 0x29, 0x33, 0x55, 0x65])
    (by decide) rfl (by decide) (by decide)
    fun w hw => by simp [IllegalWord, hw, ← BitVec.toNat_inj, toNat_fieldKK]

theorem illegalCount_group0_decodeError : illegalCount .decodeError 0x0 = 4094 :=
  illegalCount_eq (q := 1) (n := 4096) (legal := [0xE0, 0xEE]) (by decide) rfl (by decide) (by decide)
    fun w hw => by
      have hlt : w.toNat < 4096 := by
        have hg : w.toNat / 4096 = 0 := by rw [← toNat_fieldGroup, hw]; rfl
        omega
      simp [IllegalWord, hw, ← BitVec.toNat_inj, Nat.mod_eq_of_lt hlt]

theorem illegalCount_group0_nop : illegalCount .nop 0x0 = 0 :=
  illegalCount_eq_zero (by decide) fun w hw => by simp [IllegalWord, hw]

/-- The groups whose every word decodes. -/
theorem illegalCount_of_full_group (m : SysMode)
    (hg : g ∈ [0x1, 0x2, 0x3, 0x4, 0x6, 0x7, 0xA, 0xB, 0xC, 0xD]) : illegalCount m g = 0 := by
  refine illegalCount_eq_zero ?_ fun w hw => ?_
  · revert g; decide
  · simp only [List.mem_cons, List.not_mem_nil, or_false] at hg
    rcases hg with rfl | rfl | rfl | rfl | rfl | rfl | rfl | rfl | rfl | rfl <;> simp [IllegalWord, hw]

/-- The illegal words of all groups are those of group 0 and 17488 more. -/
theorem sum_illegalCount (m : SysMode) :
    ((List.range 16).map (illegalCount m)).sum = illegalCount m 0x0 + 17488 := by
  have hfull := fun g hg => illegalCount_of_full_group (g := g) m hg
  simp only [List.mem_cons, List.not_mem_nil, or_false, forall_eq_or_imp, forall_eq] at hfull
  rw [show List.range 16 = [0x0, 0x1, 0x2, 0x3, 0x4, 0x5, 0x6, 0x7, 0x8, 0x9, 0xA, 0xB, 0xC, 0xD, 0xE, 0xF] from rfl]
  simp only [List.map_cons, List.map_nil, List.sum_cons, List.sum_nil, hfull, illegalCount_group5,
    illegalCount_group8, illegalCount_group9, illegalCount_groupE, illegalCount_groupF, Nat.reduceAdd]

end

/-- Settles O3: the decoder refuses a word exactly when its group's list has it, and each group's count is that
of the residues that its list leaves out. -/
theorem illegalWordsAreThoseListed : Obligations.IllegalWordsAreThoseListed := by
  unfold Obligations.IllegalWordsAreThoseListed
  refine ⟨fun m w => decodeWord_error_iff, fun m w => decodeWord_ok_of_not_illegal,
    fun s => fetchExecute_of_illegal, illegalCount_group5 _, illegalCount_group8 _, illegalCount_group9 _,
    illegalCount_groupE _, illegalCount_groupF _, illegalCount_group0_decodeError, ?_, ?_⟩
  · rw [sum_illegalCount, illegalCount_group0_nop]
  · rw [sum_illegalCount, illegalCount_group0_decodeError]

/-! ### The rows of the opcode map (R68) -/

/-- The word of every operation selects the operation's row. -/
theorem encode_selects_row (i : Instr) : Laws.OpcodeRow.Statement i := by
  cases i with
  | sys nnn => exact Laws.OpcodeRow.sys nnn
  | clear => exact Laws.OpcodeRow.clear
  | ret => exact Laws.OpcodeRow.ret
  | jump nnn => exact Laws.OpcodeRow.jump nnn
  | call nnn => exact Laws.OpcodeRow.call nnn
  | skipEqByte x kk => exact Laws.OpcodeRow.skipEqByte x kk
  | skipNotEqByte x kk => exact Laws.OpcodeRow.skipNotEqByte x kk
  | skipEqReg x y => exact Laws.OpcodeRow.skipEqReg x y
  | loadByte x kk => exact Laws.OpcodeRow.loadByte x kk
  | addByte x kk => exact Laws.OpcodeRow.addByte x kk
  | loadReg x y => exact Laws.OpcodeRow.loadReg x y
  | or x y => exact Laws.OpcodeRow.or x y
  | and x y => exact Laws.OpcodeRow.and x y
  | xor x y => exact Laws.OpcodeRow.xor x y
  | add x y => exact Laws.OpcodeRow.add x y
  | sub x y => exact Laws.OpcodeRow.sub x y
  | shiftRight x y => exact Laws.OpcodeRow.shiftRight x y
  | subNeg x y => exact Laws.OpcodeRow.subNeg x y
  | shiftLeft x y => exact Laws.OpcodeRow.shiftLeft x y
  | skipNotEqReg x y => exact Laws.OpcodeRow.skipNotEqReg x y
  | loadPointer nnn => exact Laws.OpcodeRow.loadPointer nnn
  | jumpOffset nnn => exact Laws.OpcodeRow.jumpOffset nnn
  | random x kk => exact Laws.OpcodeRow.random x kk
  | draw x y n => exact Laws.OpcodeRow.draw x y n
  | skipPressed x => exact Laws.OpcodeRow.skipPressed x
  | skipNotPressed x => exact Laws.OpcodeRow.skipNotPressed x
  | loadFromDT x => exact Laws.OpcodeRow.loadFromDT x
  | loadKeyboard x => exact Laws.OpcodeRow.loadKeyboard x
  | loadIntoDT x => exact Laws.OpcodeRow.loadIntoDT x
  | loadIntoST x => exact Laws.OpcodeRow.loadIntoST x
  | addToPointer x => exact Laws.OpcodeRow.addToPointer x
  | loadFont x => exact Laws.OpcodeRow.loadFont x
  | loadDigits x => exact Laws.OpcodeRow.loadDigits x
  | loadFromRegs x => exact Laws.OpcodeRow.loadFromRegs x
  | loadIntoRegs x => exact Laws.OpcodeRow.loadIntoRegs x

/-- A word that two rows select: each row's match agrees with the word on the other row's mask. -/
theorem matchBits_and_mask_of_selects {r r' : OpcodeRow} {w : Word} (h : r.selects w = true)
    (h' : r'.selects w = true) : r.matchBits &&& r'.mask = r'.matchBits &&& r.mask := by
  simp only [OpcodeRow.selects, beq_iff_eq] at h h'
  rw [← h, ← h', BitVec.and_assoc, BitVec.and_assoc, BitVec.and_comm r.mask]

/-- A row that fixes the group nibble selects words of its group only. -/
theorem fieldGroup_of_selects {r : OpcodeRow} {w : Word} (h : r.selects w = true)
    (hmask : fieldGroup r.mask = BitVec.allOnes 4) : fieldGroup w = fieldGroup r.matchBits := by
  simp only [OpcodeRow.selects, beq_iff_eq] at h
  rw [← h, fieldGroup, fieldGroup, BitVec.extractLsb'_and, ← fieldGroup, ← fieldGroup, hmask, BitVec.and_allOnes]

theorem fieldN_of_selects {r : OpcodeRow} {w : Word} (h : r.selects w = true)
    (hmask : fieldN r.mask = BitVec.allOnes 4) : fieldN w = fieldN r.matchBits := by
  simp only [OpcodeRow.selects, beq_iff_eq] at h
  rw [← h, fieldN, fieldN, BitVec.extractLsb'_and, ← fieldN, ← fieldN, hmask, BitVec.and_allOnes]

theorem fieldKK_of_selects {r : OpcodeRow} {w : Word} (h : r.selects w = true)
    (hmask : fieldKK r.mask = BitVec.allOnes 8) : fieldKK w = fieldKK r.matchBits := by
  simp only [OpcodeRow.selects, beq_iff_eq] at h
  rw [← h, fieldKK, fieldKK, BitVec.extractLsb'_and, ← fieldKK, ← fieldKK, hmask, BitVec.and_allOnes]

/-- Every row fixes the group nibble. -/
theorem fieldGroup_mask : ∀ r ∈ opcodeRows, fieldGroup r.mask = BitVec.allOnes 4 := by decide

/-- The rows of the groups 5, 8 and 9 fix the function code. -/
theorem fieldN_mask : ∀ r ∈ opcodeRows, fieldGroup r.matchBits ∈ ([0x5, 0x8, 0x9] : List Nibble) →
    fieldN r.mask = BitVec.allOnes 4 := by decide

/-- The rows of the groups E and F fix the low byte. -/
theorem fieldKK_mask : ∀ r ∈ opcodeRows, fieldGroup r.matchBits ∈ ([0xE, 0xF] : List Nibble) →
    fieldKK r.mask = BitVec.allOnes 8 := by decide

theorem matchBits_decodes : ∀ r ∈ opcodeRows, undecodable .nop r.matchBits = false := by decide

/-- An illegal word of SYS_MODE = Nop has the fields that make it illegal in the match of any row that selects it. -/
theorem illegalWord_matchBits {r : OpcodeRow} (hr : r ∈ opcodeRows) {w : Word} (h : r.selects w = true)
    (hw : IllegalWord .nop w) : IllegalWord .nop r.matchBits := by
  have hg := fieldGroup_of_selects h (fieldGroup_mask r hr)
  have hn := fun hm => fieldN_of_selects h (fieldN_mask r hr hm)
  have hkk := fun hm => fieldKK_of_selects h (fieldKK_mask r hr hm)
  unfold IllegalWord at hw ⊢
  rw [hg] at hw
  rcases hw with ⟨g5, hw⟩ | ⟨g8, hw⟩ | ⟨g9, hw⟩ | ⟨gE, hw⟩ | ⟨gF, hw⟩ | ⟨hm, -⟩
  · exact .inl ⟨g5, hn (by simp [g5]) ▸ hw⟩
  · exact .inr (.inl ⟨g8, hn (by simp [g8]) ▸ hw⟩)
  · exact .inr (.inr (.inl ⟨g9, hn (by simp [g9]) ▸ hw⟩))
  · exact .inr (.inr (.inr (.inl ⟨gE, hkk (by simp [gE]) ▸ hw⟩)))
  · exact .inr (.inr (.inr (.inr (.inl ⟨gF, hkk (by simp [gF]) ▸ hw⟩))))
  · cases hm

/-- A word that a row selects is legal under SYS_MODE = Nop. -/
theorem not_illegalWord_of_selects {r : OpcodeRow} (hr : r ∈ opcodeRows) {w : Word} (h : r.selects w = true) :
    ¬ IllegalWord .nop w := by
  intro hw
  have hlegal := matchBits_decodes r hr
  rw [undecodable_iff.2 (illegalWord_matchBits hr h hw)] at hlegal
  cases hlegal

/-- Rows outside group 0 whose matches agree on both masks are the same row. -/
theorem opcodeRows_disjoint : ∀ r ∈ opcodeRows, ∀ r' ∈ opcodeRows, fieldGroup r.matchBits ≠ 0 →
    r.matchBits &&& r'.mask = r'.matchBits &&& r.mask → r = r' := by
  decide

theorem decodeWord_nop_sys {w : Word} (hg : fieldGroup w = 0) (hclear : w ≠ 0x00E0) (hret : w ≠ 0x00EE) :
    decodeWord .nop w = .ok (.sys (fieldNNN w)) := by
  rw [decodeWord_group0 hg]
  exact decodeGroup0_eq_sys_iff.2 ⟨rfl, hclear, hret, rfl⟩

/-- Settles O2: a word that decodes is its operation's encoding, which that operation's row selects; a word that a
row selects is no illegal word; and two rows that select a word agree on both masks, which outside group 0 only
equal rows do. -/
theorem decodeFollowsOpcodeMap : Obligations.DecodeFollowsOpcodeMap := by
  unfold Obligations.DecodeFollowsOpcodeMap
  refine ⟨fun m w i h => ?_, fun w r hr h => decodeWord_ok_of_not_illegal (not_illegalWord_of_selects hr h),
    fun w r hr r' hr' hg h h' => ?_, decodeWord_group0 rfl, decodeWord_group0 rfl, fun w => decodeWord_nop_sys⟩
  · rw [← encode_of_decodeWord h]
    exact encode_selects_row i
  · rw [fieldGroup_of_selects h (fieldGroup_mask r hr)] at hg
    exact opcodeRows_disjoint r hr r' hr' hg (matchBits_and_mask_of_selects h h')

end Sys2Proof

/-! PROOF. The remaining per-instruction results: JumpOffset, Call, SubNeg, the flag order, the logic operations,
AddByte, Random, Draw, the key skips, the block copies and the decimal store (41_control_flow.md to
45_memory_block.md). -/

namespace Sys2Proof.Machine

/-! ### The state each instruction goes on to -/

section
variable (x y n : Nibble) (kk : Byte) (nnn : Addr) (s : State)

theorem exec_sys_of_nop {s : State} (h : s.cfg.sysMode = .nop) : exec (.sys nnn) s = .next s := by
  simp only [exec, execSys, h]

theorem exec_sys_of_decodeError {s : State} (h : s.cfg.sysMode = .decodeError) :
    exec (.sys nnn) s = takeHalt (.decodeError (zextAddr nnn)) s := by
  simp only [exec, execSys, h]

@[simp] theorem exec_jumpOffset :
    exec (.jumpOffset nnn) s = .next (s.setPc (zextAddr nnn + zextByte (s.reg 0))) := rfl

theorem exec_call_of_full {s : State} (h : s.cfg.stackDepth = some s.stack.length) :
    exec (.call nnn) s = takeHalt .stackOverflow s := if_pos h

theorem exec_call_of_not_full {s : State} (h : s.cfg.stackDepth ≠ some s.stack.length) :
    exec (.call nnn) s = .next ((s.setStack (s.pc :: s.stack)).setPc (zextAddr nnn)) := if_neg h

@[simp] theorem exec_addByte : exec (.addByte x kk) s = .next (s.setReg x (s.reg x + kk)) := rfl

@[simp] theorem exec_or : exec (.or x y) s = .next (s.setReg x (s.reg x ||| s.reg y)) := rfl

@[simp] theorem exec_and : exec (.and x y) s = .next (s.setReg x (s.reg x &&& s.reg y)) := rfl

@[simp] theorem exec_xor : exec (.xor x y) s = .next (s.setReg x (s.reg x ^^^ s.reg y)) := rfl

@[simp] theorem exec_subNeg :
    exec (.subNeg x y) s = .next (s.writeFlagged x (subNoBorrow (s.reg y) (s.reg x))) := rfl

@[simp] theorem exec_random :
    exec (.random x kk) s = .next (s.setReg x (Config.rand8 s.draws &&& kk)).countDraw := rfl

@[simp] theorem exec_draw : exec (.draw x y n) s =
    .next ((s.setDisp (s.drawn x y n).2).setReg 0xF (flagByte (s.drawn x y n).1)) := rfl

theorem exec_skipPressed_of_keyTest {x : Nibble} {s : State} {down : Bool}
    (h : s.keyTest (s.reg x) = some down) : exec (.skipPressed x) s = .next (s.skipIf down) := by
  simp only [exec, execSkipPressed, h]

theorem exec_skipNotPressed_of_keyTest {x : Nibble} {s : State} {down : Bool}
    (h : s.keyTest (s.reg x) = some down) : exec (.skipNotPressed x) s = .next (s.skipIf !down) := by
  simp only [exec, execSkipNotPressed, h]

theorem exec_skipPressed_of_keyTest_none {x : Nibble} {s : State} (h : s.keyTest (s.reg x) = none) :
    exec (.skipPressed x) s = .refused .keyIndexRefused := by
  simp only [exec, execSkipPressed, h]

theorem exec_skipNotPressed_of_keyTest_none {x : Nibble} {s : State} (h : s.keyTest (s.reg x) = none) :
    exec (.skipNotPressed x) s = .refused .keyIndexRefused := by
  simp only [exec, execSkipNotPressed, h]

@[simp] theorem exec_loadDigits : exec (.loadDigits x) s =
    .next (((s.storeAtI 0 (decimalDigit (s.reg x) 0)).storeAtI 1 (decimalDigit (s.reg x) 1)).storeAtI 2
      (decimalDigit (s.reg x) 2)) := rfl

@[simp] theorem exec_loadFromRegs : exec (.loadFromRegs x) s =
    .next ((List.range (blockCount s.cfg.blockCopyBound x)).foldl State.storeReg s) := rfl

@[simp] theorem exec_loadIntoRegs : exec (.loadIntoRegs x) s =
    .next ((List.range (blockCount s.cfg.blockCopyBound x)).foldl State.loadReg s) := rfl

end

/-! ### Control flow -/

/-- Settles O10: under Nop Sys answers its state, and under DecodeError its words are illegal. -/
theorem sysDoesNothing : Obligations.SysDoesNothing := by
  unfold Obligations.SysDoesNothing
  refine ⟨fun nnn s hm => exec_sys_of_nop nnn hm, fun s hm hg hclear hret => ?_⟩
  exact fetchExecute_of_illegal (.inr (.inr (.inr (.inr (.inr ⟨hm, hg, hclear, hret⟩)))))

/-- Settles O13: neither summand reaches 2^15, so the 16-bit sum does not wrap. -/
theorem jumpOffsetAddsV0 : Obligations.JumpOffsetAddsV0 := by
  unfold Obligations.JumpOffsetAddsV0
  intro nnn s
  refine ⟨_, exec_jumpOffset nnn s, ?_, rfl⟩
  have haddr := nnn.isLt
  have hbyte := (s.reg 0).isLt
  rw [State.setPc_pc, BitVec.toNat_add, toNat_zextAddr, toNat_zextByte, Nat.mod_eq_of_lt (by omega)]

/-- Settles O14, by the two cases of the stack. -/
theorem callPushesOrHalts : Obligations.CallPushesOrHalts := by
  unfold Obligations.CallPushesOrHalts
  refine fun nnn s => ⟨fun hroom => ?_, fun hfull => ?_⟩
  · rw [exec_call_of_not_full nnn hroom, State.setStack, State.setPc, zextAddr]
  · rw [exec_call_of_full nnn hfull, takeHalt_eq]

/-! ### Arithmetic and logic -/

theorem reg_setReg_same (s : State) (x : Nibble) (b : Byte) : (s.setReg x b).reg x = b := by
  rw [reg_setReg, if_pos rfl]

theorem reg_setReg_of_ne (s : State) (b : Byte) {x r : Nibble} (h : r ≠ x) : (s.setReg x b).reg r = s.reg r := by
  rw [reg_setReg, if_neg h]

/-- Settles O20, from the flagged write of the difference and its no-borrow flag. -/
theorem subNegSetsNoBorrow : Obligations.SubNegSetsNoBorrow := by
  unfold Obligations.SubNegSetsNoBorrow
  intro x y s
  exact ⟨_, exec_subNeg x y s, writeFlagged_wrote s x (toNat_subNoBorrow_result _ _) (subNoBorrow_spec _ _).2⟩

/-- The flagged write to VF itself: under FlagLast VF ends with the flag, under ResultLast with the result, and
every other register is as it was (R103, D7). -/
theorem writeFlagged_VF (s : State) {r : Flagged} {result : Nat} {p : Prop} [Decidable p]
    (hresult : r.result.toNat = result) (hflag : r.flag = decide p) :
    (s.cfg.flagOrder = .flagLast → ((s.writeFlagged 0xF r).reg 0xF).toNat = if p then 1 else 0) ∧
    (s.cfg.flagOrder = .resultLast → ((s.writeFlagged 0xF r).reg 0xF).toNat = result) ∧
    ∀ q, q ≠ 0xF → (s.writeFlagged 0xF r).reg q = s.reg q := by
  obtain ⟨hflagLast, hresultLast, hrest⟩ := (writeFlagged_wrote s 0xF hresult hflag).2
  refine ⟨fun ho => ?_, fun ho => (hresultLast ho).1, fun q hq => hrest q hq hq⟩
  rw [(hflagLast ho).1]
  by_cases hp : p <;> simp [hp]

theorem toNat_mod_two_eq_ite (c : Nat) : (if c % 2 = 1 then 1 else 0) = c % 2 := by
  split <;> omega

theorem div_128_eq_ite {c : Nat} (hc : c < 256) : (if c / 128 = 1 then 1 else 0) = c / 128 := by
  split <;> omega

/-- Settles O22: the five flagged writes, each to VF. -/
theorem flagOrderDecidesVF : Obligations.FlagOrderDecidesVF := by
  unfold Obligations.FlagOrderDecidesVF
  rintro y s a b c rfl rfl hc
  rw [← shiftOperand_eq_ite] at hc
  subst hc
  obtain ⟨hsum, hcarry⟩ := addCarry_spec (s.reg 0xF) (s.reg y)
  obtain ⟨hhalf, hlow⟩ := shiftRightOut_spec (s.shiftOperand 0xF y)
  obtain ⟨addFlag, addResult, addRest⟩ := writeFlagged_VF s hsum hcarry
  obtain ⟨subFlag, subResult, subRest⟩ := writeFlagged_VF s
    (toNat_subNoBorrow_result (s.reg 0xF) (s.reg y)) (subNoBorrow_spec _ _).2
  obtain ⟨subNegFlag, subNegResult, subNegRest⟩ := writeFlagged_VF s
    (toNat_subNoBorrow_result (s.reg y) (s.reg 0xF)) (subNoBorrow_spec _ _).2
  obtain ⟨shrFlag, shrResult, shrRest⟩ := writeFlagged_VF s hhalf hlow
  obtain ⟨shlFlag, shlResult, shlRest⟩ := writeFlagged_VF s
    (shiftLeftOut_spec (s.shiftOperand 0xF y)).1 (shiftLeftOut_flag _)
  rw [toNat_mod_two_eq_ite] at shrFlag
  rw [div_128_eq_ite (BitVec.isLt _)] at shlFlag
  refine ⟨_, _, _, _, _, exec_add _ _ s, exec_sub _ _ s, exec_subNeg _ _ s, exec_shiftRight _ _ s,
    exec_shiftLeft _ _ s,
    fun ho => ⟨addFlag ho, subFlag ho, subNegFlag ho, shrFlag ho, shlFlag ho⟩,
    fun ho => ⟨addResult ho, subResult ho, subNegResult ho, shrResult ho, shlResult ho⟩, ?_⟩
  simp only [List.forall_mem_cons, List.not_mem_nil, false_imp_iff, implies_true, and_true]
  exact ⟨addRest, subRest, subNegRest, shrRest, shlRest⟩

/-- Settles O23: one register write each, of the bitwise operation. -/
theorem logicWritesOnlyVx : Obligations.LogicWritesOnlyVx := by
  unfold Obligations.LogicWritesOnlyVx
  intro x y s
  have hrest : ∀ b r, r ≠ x → (s.setReg x b).reg r = s.reg r := fun b r => reg_setReg_of_ne s b
  refine ⟨⟨_, exec_or x y s, rfl, hrest _, fun b => ?_⟩, ⟨_, exec_and x y s, rfl, hrest _, fun b => ?_⟩,
    ⟨_, exec_xor x y s, rfl, hrest _, fun b => ?_⟩⟩
  · rw [reg_setReg_same, BitVec.getLsbD_or]
  · rw [reg_setReg_same, BitVec.getLsbD_and]
  · rw [reg_setReg_same, BitVec.getLsbD_xor]

/-- Settles O24: one register write, of the 8-bit sum. -/
theorem addByteWrapsWithoutFlag : Obligations.AddByteWrapsWithoutFlag := by
  unfold Obligations.AddByteWrapsWithoutFlag
  intro x kk s
  obtain ⟨hframe, hwrite, hrest⟩ := setReg_spec s x (s.reg x + kk)
  exact ⟨_, exec_addByte x kk s, hframe, by rw [hwrite, BitVec.toNat_add], hrest⟩

/-- Settles O26: one register write, of the next drawn byte masked by kk, and the draw counted. -/
theorem randomMasksAFreshDraw : Obligations.RandomMasksAFreshDraw := by
  unfold Obligations.RandomMasksAFreshDraw
  intro x kk s
  obtain ⟨-, hwrite, hrest⟩ := setReg_spec s x (Config.rand8 s.draws &&& kk)
  refine ⟨_, exec_random x kk s, hwrite, fun b hb => ?_, hrest, rfl⟩
  rw [State.countDraw_reg, hwrite, BitVec.getLsbD_and, hb, Bool.and_false]

/-! ### Keys -/

theorem skipIf_eq_ite (s : State) (c : Bool) : s.skipIf c = { s with pc := if c then s.pc + 2 else s.pc } := by
  cases c <;> rfl

/-- The key test with a meaning: the named key up to 0xF, and above it what KEY_INDEX_MODE says (R131). -/
theorem keyTest_eq_some {s : State} {v : Byte} {down : Bool}
    (h : (v.toNat ≤ 15 ∧ down = s.keyDown (v.setWidth 4)) ∨
      (15 < v.toNat ∧ s.cfg.keyIndexMode = .notPressed ∧ down = false) ∨
      (15 < v.toNat ∧ s.cfg.keyIndexMode = .lowNibble ∧ down = s.keyDown (v.setWidth 4))) :
    s.keyTest v = some down := by
  unfold State.keyTest
  rcases h with ⟨hv, rfl⟩ | ⟨hv, hm, rfl⟩ | ⟨hv, hm, rfl⟩
  · rw [if_pos hv]
  · rw [if_neg (by omega), hm]
  · rw [if_neg (by omega), hm]

theorem keyTest_eq_none {s : State} {v : Byte} (hv : 15 < v.toNat) (hm : s.cfg.keyIndexMode = .refuse) :
    s.keyTest v = none := by
  unfold State.keyTest
  rw [if_neg (by omega), hm]

/-- Settles O32, from what the key test answers in each case. -/
theorem keySkipsTestTheNamedKey : Obligations.KeySkipsTestTheNamedKey := by
  unfold Obligations.KeySkipsTestTheNamedKey
  refine fun x s => ⟨fun down h => ?_, fun hv hm => ?_⟩
  · have htest := keyTest_eq_some h
    rw [exec_skipPressed_of_keyTest htest, exec_skipNotPressed_of_keyTest htest, skipIf_eq_ite, skipIf_eq_ite]
    cases down <;> exact ⟨rfl, rfl⟩
  · have htest := keyTest_eq_none hv hm
    exact ⟨exec_skipPressed_of_keyTest_none htest, exec_skipNotPressed_of_keyTest_none htest⟩

end Sys2Proof.Machine

/-! PROOF. Memory and the display in numbers (20_memory.md, 43_display.md, 45_memory_block.md): stores read back,
block copies, and what one and two Draws leave on a grid of the hardware's kind. -/

namespace Sys2Proof.Machine

/-! ### The display -/

/-- The set bits of a sprite that fall on a cell, counted row by row, are the cell's toggles (R120). -/
theorem count_toggledCells (w h ox oy : Nat) (rows : List Byte) (cx cy : Nat) :
    (toggledCells w h ox oy rows).count (cx, cy) =
      ((List.range rows.length).flatMap fun r => (List.range 8).filter fun b =>
        (rows.getD r 0).getLsbD (7 - b) && cx == (ox + b) % w && cy == (oy + r) % h).length := by
  unfold toggledCells
  rw [List.count_flatMap, List.length_flatMap]
  refine congrArg List.sum (List.map_congr_left fun r _ => ?_)
  rw [Function.comp_apply, List.count, List.countP_map, List.countP_filter, List.countP_eq_length_filter]
  refine congrArg List.length (List.filter_congr fun b _ => ?_)
  rw [Bool.eq_iff_iff]
  simp only [Function.comp_apply, Bool.and_eq_true, beq_iff_eq, Prod.mk.injEq]
  tauto

/-- Settles O30: a plot leaves each cell XOR the parity of its toggles, which are the set bits that fall on it. -/
theorem plotTogglesByParity : Obligations.PlotTogglesByParity := by
  unfold Obligations.PlotTogglesByParity
  intro w h ox oy rows g hw hh hlen hrows cx cy
  rw [cell_plotSprite_eq_parity ox oy rows ⟨hlen, hrows⟩ hw hh, count_toggledCells]

/-- What Draw does on a grid of at least 8 columns and 15 rows (R120-R124): VF is the collision with the cells of
the sprite, and these are toggled. -/
theorem exec_draw_large_grid (x y n : Nibble) {s : State} (hs : s.DisplayShaped) (hw : 8 ≤ s.cfg.displayW)
    (hh : 15 ≤ s.cfg.displayH) :
    ∃ t, exec (.draw x y n) s = .next t ∧ t = { s with v := t.v, disp := t.disp } ∧
      (∀ r, r ≠ 0xF → t.reg r = s.reg r) ∧ t.DisplayShaped ∧
      (∀ cx cy, t.disp.cell cx cy = true ↔ (s.disp.cell cx cy = true ↔
        ¬ SpriteHits s.cfg.displayW s.cfg.displayH (s.reg x).toNat (s.reg y).toNat (s.spriteRows n) cx cy)) ∧
      (t.reg 0xF = 0 ∨ t.reg 0xF = 1) ∧
      (t.reg 0xF = 1 ↔ ∃ cx cy, s.disp.cell cx cy = true ∧
        SpriteHits s.cfg.displayW s.cfg.displayH (s.reg x).toNat (s.reg y).toNat (s.spriteRows n) cx cy) := by
  obtain ⟨t, ht, hframe, hregs, hdisp, hVF⟩ := exec_draw_spec x y n s
  have hcfg : t.cfg = s.cfg := (exec_untouched ht).cfg
  have hrows : (s.spriteRows n).length ≤ s.cfg.displayH := by
    have := n.isLt
    rw [length_spriteRows]; omega
  rw [drawn_eq] at hdisp hVF
  refine ⟨t, ht, hframe, hregs, ?_, fun cx cy => ?_, ?_, ?_⟩
  · rw [displayShaped_iff, hcfg, hdisp]
    exact Display.shaped_plot _ _ _ hs
  · rw [hdisp]
    exact cell_plotSprite hs hw hrows (by omega) cx cy
  · rw [hVF]
    exact flagByte_eq_zero_or_one _
  · rw [hVF, flagByte_eq_one_iff, collision_plotSprite hs hw hrows (by omega)]
    simp only [and_comm]

/-- Settles O28: the rows named are those that Draw plots. -/
theorem drawTogglesTheSpritesCells : Obligations.DrawTogglesTheSpritesCells := by
  unfold Obligations.DrawTogglesTheSpritesCells
  intro x y n s hs hw hh rows hl hr
  rw [eq_spriteRows hl hr]
  exact exec_draw_large_grid x y n hs hw hh

/-- The sprite's rows depend on I, the memory and the parameters only (R124). -/
theorem spriteRows_of_frame {s t : State} (h : t = { s with v := t.v, disp := t.disp }) (n : Nibble) :
    t.spriteRows n = s.spriteRows n := by
  rw [h]; rfl

/-- Some cell is hit exactly when the sprite has a set bit. -/
theorem exists_spriteHits_iff (w h ox oy : Nat) (s : State) (n : Nibble) :
    (∃ cx cy, SpriteHits w h ox oy (s.spriteRows n) cx cy) ↔
      ∃ r b, r < n.toNat ∧ b < 8 ∧ (s.byteAt ((s.i.toNat + r) % 4096)).getLsbD b = true := by
  constructor
  · rintro ⟨cx, cy, r, b, hr, hb, hbit, -, -⟩
    rw [getElem_spriteRows] at hbit
    exact ⟨r, 7 - b, length_spriteRows s n ▸ hr, by omega, hbit⟩
  · rintro ⟨r, b, hr, hb, hbit⟩
    rw [← length_spriteRows s n] at hr
    refine ⟨_, _, r, 7 - b, hr, by omega, ?_, rfl, rfl⟩
    rwa [getElem_spriteRows, show 7 - (7 - b) = b by omega]

/-- Settles O31: the second Draw has the first one's origin and rows, so it toggles the same cells back; on an
empty display the first leaves exactly the sprite's cells set. -/
theorem doubleDrawRestoresTheDisplay : Obligations.DoubleDrawRestoresTheDisplay := by
  unfold Obligations.DoubleDrawRestoresTheDisplay
  intro x y n s t u hs hw hh hx hy ht hu
  obtain ⟨t', ht', tframe, tregs, tshaped, tcell, tflag, tVF⟩ := exec_draw_large_grid x y n hs hw hh
  obtain rfl : t' = t := by rw [ht] at ht'; cases ht'; rfl
  have hcfg : t'.cfg = s.cfg := (exec_untouched ht).cfg
  rw [← hcfg] at hw hh
  obtain ⟨u', hu', uframe, -, ushaped, ucell, -, uVF⟩ := exec_draw_large_grid x y n tshaped hw hh
  obtain rfl : u' = u := by rw [hu] at hu'; cases hu'; rfl
  rw [hcfg, spriteRows_of_frame tframe, tregs x hx, tregs y hy] at ucell uVF
  refine ⟨Display.ext_cells ?_ hs fun cx cy => ?_, fun hempty => ⟨tflag.resolve_right fun h1 => ?_, ?_⟩⟩
  · rwa [displayShaped_iff, (exec_untouched hu).cfg, hcfg] at ushaped
  · rw [Bool.eq_iff_iff, ucell, tcell]
    tauto
  · obtain ⟨cx, cy, hset, -⟩ := tVF.1 h1
    rw [hempty] at hset
    cases hset
  · rw [uVF, ← exists_spriteHits_iff s.cfg.displayW s.cfg.displayH (s.reg x).toNat (s.reg y).toNat]
    simp only [tcell, hempty, Bool.false_eq_true, false_iff, not_not, and_self]

/-! ### Memory -/

/-- Settles O6: the two bytes side by side are a base-256 number. -/
theorem fetchIsBigEndianAndMasked : Obligations.FetchIsBigEndianAndMasked := by
  unfold Obligations.FetchIsBigEndianAndMasked
  intro s
  have hnext : maskAddr (s.pc + 1) = (s.pc.toNat + 1) % 4096 := maskAddr_add s.pc 1
  have happend : s.fetchWord.toNat = (s.memRead s.pc).toNat * 256 + (s.memRead (s.pc + 1)).toNat :=
    toNat_append (s.memRead s.pc) (s.memRead (s.pc + 1))
  rw [happend, State.memRead, State.memRead, maskAddr_eq, hnext, Nat.mul_comm]

/-- Only addresses below 0x200 are protected, and only under FONT_WRITE_PROTECT (R52). -/
theorem writeIgnored_eq_false {p : Params} {a : Nat} (h : p.fontWriteProtect = false ∨ 0x200 ≤ a) :
    writeIgnored p a = false := by
  unfold writeIgnored
  rcases h with h | h
  · rw [h, Bool.false_and]
  · rw [decide_eq_false (show ¬ a < progBase from Nat.not_lt.2 h), Bool.and_false]

theorem writeIgnored_eq_true {p : Params} {a : Nat} (hp : p.fontWriteProtect = true) (ha : a < 0x200) :
    writeIgnored p a = true := by
  unfold writeIgnored
  rw [hp, decide_eq_true (show a < progBase from ha), Bool.and_self]

/-- A store to a protected address changes nothing (R52). -/
theorem memWrite_of_writeIgnored {s : State} {a : Word} (b : Byte) (h : writeIgnored s.cfg (maskAddr a) = true) :
    s.memWrite a b = s := if_pos h

theorem memWrite_canonical {s : State} (a : Word) (b : Byte) (h : s.MemoryCanonical) :
    (s.memWrite a b).MemoryCanonical := by
  obtain ⟨m, hm, hcanonical⟩ := memWrite_eq (s := s) a b
  rw [hm]
  exact hcanonical h

theorem memWrite_frame (s : State) (a : Word) (b : Byte) :
    s.memWrite a b = { s with mem := (s.memWrite a b).mem } := by
  obtain ⟨m, hm, -⟩ := memWrite_eq (s := s) a b
  rw [hm]

/-- Settles O36, from what one store to the canonical memory does. -/
theorem memoryReadsBackItsLastWrite : Obligations.MemoryReadsBackItsLastWrite := by
  unfold Obligations.MemoryReadsBackItsLastWrite
  refine fun s a c b hs => ⟨fun hopen => ?_, fun hp ha => ?_, memWrite_canonical a b hs, memWrite_frame s a b⟩
  · rw [State.memRead, byteAt_memWrite a b _ hs, maskAddr_eq, maskAddr_eq, writeIgnored_eq_false hopen,
      State.memRead, maskAddr_eq]
    simp only [and_true]
  · exact memWrite_of_writeIgnored b (writeIgnored_eq_true hp (by rwa [maskAddr_eq]))

/-! ### The decimal store and the block copies -/

@[simp] theorem storeAtI_i (s : State) (k : Nat) (b : Byte) : (s.storeAtI k b).i = s.i := by
  rw [storeAtI_eq]

@[simp] theorem storeAtI_cfg (s : State) (k : Nat) (b : Byte) : (s.storeAtI k b).cfg = s.cfg := by
  rw [storeAtI_eq]

/-- Settles O38: three stores at I + 0, I + 1 and I + 2, which are different bytes. -/
theorem loadDigitsStoresThreeDigits : Obligations.LoadDigitsStoresThreeDigits := by
  unfold Obligations.LoadDigitsStoresThreeDigits
  intro x s hs
  have h0 := storeAtI_canonical 0 (decimalDigit (s.reg x) 0) hs
  have h1 := storeAtI_canonical 1 (decimalDigit (s.reg x) 1) h0
  refine ⟨_, exec_loadDigits x s, ?_, fun k hk hopen => ?_, fun a hprotected => ?_⟩
  · rw [storeAtI_eq, storeAtI_eq, storeAtI_eq]
  · rw [byteAt_storeAtI _ _ _ h1, byteAt_storeAtI _ _ _ h0, byteAt_storeAtI _ _ _ hs, ← toNat_decimalDigit]
    simp only [storeAtI_i, storeAtI_cfg]
    congr 1
    obtain rfl | rfl | rfl : k = 0 ∨ k = 1 ∨ k = 2 := by omega
    · rw [if_neg (by omega), if_neg (by omega), if_pos ⟨rfl, hopen⟩]
    · rw [if_neg (by omega), if_pos ⟨rfl, hopen⟩]
    · rw [if_pos ⟨rfl, hopen⟩]
  · have hmiss : ∀ k, k < 3 →
        ¬ (a = (s.i.toNat + k) % 4096 ∧ writeIgnored s.cfg ((s.i.toNat + k) % 4096) = false) := by
      rintro k hk ⟨rfl, hopen⟩
      rw [hprotected k hk rfl] at hopen
      cases hopen
    rw [byteAt_storeAtI _ _ _ h1, byteAt_storeAtI _ _ _ h0, byteAt_storeAtI _ _ _ hs]
    simp only [storeAtI_i, storeAtI_cfg]
    rw [if_neg (hmiss 2 (by decide)), if_neg (hmiss 1 (by decide)), if_neg (hmiss 0 (by decide))]

theorem blockCount_eq_ite (b : BlockCopyBound) (x : Nibble) :
    blockCount b x = if b = .inclusive then x.toNat + 1 else x.toNat := by
  cases b <;> rfl

/-- Settles O39, from what the loop of LoadFromRegs leaves. -/
theorem loadFromRegsStoresTheBlock : Obligations.LoadFromRegsStoresTheBlock := by
  unfold Obligations.LoadFromRegsStoresTheBlock
  rintro x s _ hs hcount
  rw [← blockCount_eq_ite] at hcount
  subst hcount
  obtain ⟨hstored, hother⟩ := byteAt_storeRegs (blockCount_le s.cfg.blockCopyBound x) hs
  refine ⟨_, exec_loadFromRegs x s, storeRegs_eq _ s, fun r hr hopen => ?_, hother⟩
  rw [hstored r.toNat hr hopen, BitVec.ofNat_toNat, BitVec.setWidth_eq]

/-- Settles O40, from what the loop of LoadIntoRegs leaves. -/
theorem loadIntoRegsLoadsTheBlock : Obligations.LoadIntoRegsLoadsTheBlock := by
  unfold Obligations.LoadIntoRegsLoadsTheBlock
  rintro x s _ hcount
  rw [← blockCount_eq_ite] at hcount
  subst hcount
  exact ⟨_, exec_loadIntoRegs x s, loadRegs_spec (blockCount_le _ x) s⟩

/-- Settles O41: with I = pc the loop stores V0 and V1 at the two addresses of the next fetch. -/
theorem nextFetchSeesTheStore : Obligations.NextFetchSeesTheStore := by
  unfold Obligations.NextFetchSeesTheStore
  intro x s t hs hbound hx hi hopen ht
  obtain ⟨hstored, -⟩ := byteAt_storeRegs (blockCount_le s.cfg.blockCopyBound x) hs
  replace ht := Host.Outcome.next.inj ht
  have hpc : t.pc = s.pc := by rw [← ht, storeRegs_eq]
  rw [ht, hbound] at hstored
  have htwo : 2 ≤ blockCount .inclusive x := by
    have : x.toNat ≠ 0 := fun h => hx (BitVec.eq_of_toNat_eq h)
    simp only [blockCount]; omega
  have hbyte : ∀ k, k < 2 → t.memRead (s.pc + BitVec.ofNat 16 k) = s.reg (BitVec.ofNat 4 k) := by
    intro k hk
    rw [State.memRead, maskAddr_add, ← hi]
    refine hstored k (by omega) (writeIgnored_eq_false (hopen.imp_right fun ⟨hlo, hhi⟩ => ?_))
    rw [hi]; omega
  have hhigh := hbyte 0 (by decide)
  rw [BitVec.add_zero] at hhigh
  rw [State.fetchWord, hpc, hhigh]
  exact congrArg _ (hbyte 1 (by decide))

end Sys2Proof.Machine

/-! PROOF. The host's part (44_keypad_timers.md section 1, 70_reset_and_hazards.md section 2, 10_state.md section 9):
key events in a row, the load, the error codes and construction. -/

namespace Sys2Proof.Machine

/-! ### Key events in a row -/

/-- With no registration pending key events leave the registration (R127, R128). -/
theorem foldl_keyEvent_kw_of_ne_pending (evs : List KeyEvent) {s : State} (h : s.kw ≠ .pending) :
    (evs.foldl keyEvent s).kw = s.kw := by
  induction evs generalizing s with
  | nil => rfl
  | cons e evs ih =>
    have he : (keyEvent s e).kw = s.kw := by
      cases e with
      | setDown k => exact deliver_of_ne_pending h k
      | setUp k => rfl
    rw [List.foldl_cons, ih (he ▸ h), he]

/-- A set_down on a pending registration delivers its key. -/
theorem keyEvent_setDown_kw_of_pending {s : State} (h : s.kw = .pending) (k : Nibble) :
    (keyEvent s (.setDown k)).kw = .delivered k := by
  rw [keyEvent, setDown_kw, h, deliver_pending]

theorem keyEvent_setDown_keyDown (s : State) (j k : Nibble) :
    (keyEvent s (.setDown j)).keyDown k = if k = j then true else s.keyDown k := by
  rw [keyEvent, setDown_keyDown, keyDown_setKey]

theorem keyEvent_setUp_keyDown (s : State) (j k : Nibble) :
    (keyEvent s (.setUp j)).keyDown k = if k = j then false else s.keyDown k :=
  keyDown_setKey s j false k

theorem deliverInbox_cons {s : State} {evs : List KeyEvent} {rest : List (List KeyEvent)}
    (h : s.inbox = evs :: rest) : deliverInbox s = evs.foldl keyEvent { s with inbox := rest } := by
  unfold deliverInbox
  rw [h]
  rfl

/-- Settles O35: for the registration by induction from the first event on, as the first set_down decides it; for
the keys from the last event back, as the last event of a key decides it. -/
theorem firstKeyPressedIsDelivered : Obligations.FirstKeyPressedIsDelivered := by
  unfold Obligations.FirstKeyPressedIsDelivered
  refine ⟨fun s => deliverInbox_nil, fun s evs rest => deliverInbox_cons, fun s evs => ⟨fun hpending => ?_,
    foldl_keyEvent_kw_of_ne_pending evs, fun k => ?_, foldl_keyEvent_eq evs s⟩⟩
  · induction evs generalizing s with
    | nil => exact hpending
    | cons e evs ih =>
      cases e with
      | setDown k =>
        have hkw := keyEvent_setDown_kw_of_pending hpending k
        rw [List.foldl_cons, foldl_keyEvent_kw_of_ne_pending evs (by rw [hkw]; exact nofun), hkw]
        rfl
      | setUp k => exact ih (keyEvent s (.setUp k)) hpending
  · induction evs using List.reverseRecOn with
    | nil => rfl
    | append_singleton evs e ih =>
      rw [List.foldl_append, List.foldl_cons, List.foldl_nil, List.reverse_append, List.reverse_singleton,
        List.singleton_append, List.findSome?_cons]
      cases e with
      | setDown j =>
        rw [keyEvent_setDown_keyDown]
        by_cases hj : j = k
        · simp [hj]
        · simpa [hj, Ne.symm hj] using ih
      | setUp j =>
        rw [keyEvent_setUp_keyDown]
        by_cases hj : j = k
        · simp [hj]
        · simpa [hj, Ne.symm hj] using ih

/-! ### The load -/

theorem load_of_fits {s : State} (bs : List Byte) (hphase : s.phase = .constructed) (hfit : bs.length ≤ progCap) :
    load bs s = .next (s.pokeAll progBase bs).markLoaded := by
  simp only [load, hphase, if_pos hfit]

/-- Settles O56: the program's bytes are consecutive writes, which end below the memory's size. -/
theorem loadCopiesTheProgram : Obligations.LoadCopiesTheProgram := by
  unfold Obligations.LoadCopiesTheProgram
  intro bs s hs hphase hfit
  have hend : progBase + bs.length ≤ memSize := by simp only [progBase, memSize]; omega
  exact ⟨_, load_of_fits bs hphase hfit, rfl, Memory.wf_writeAll hend hs,
    fun k hk => Memory.read_writeAll_at hend hs hk, fun a ha => Memory.read_writeAll_other ha⟩

/-- Settles O57, by the life cycle's cases. -/
theorem otherLoadsStop : Obligations.OtherLoadsStop := by
  unfold Obligations.OtherLoadsStop
  refine fun bs s => ⟨fun hphase hlong => ?_, fun hphase => ?_⟩
  · simp only [load, hphase, if_neg (show ¬ bs.length ≤ progCap from Nat.not_le.2 hlong)]
  · unfold load
    split
    · exact absurd (by assumption) hphase
    · rfl
    · rfl

/-- Settles O45: the table of R147. -/
theorem errorCodesAsListed : Obligations.ErrorCodesAsListed := by
  unfold Obligations.ErrorCodesAsListed
  exact ⟨fun w => ⟨rfl, rfl⟩, rfl, rfl, rfl, rfl, fun n => rfl⟩

/-! ### Construction -/

section
variable (p : Params)

theorem construct_reg (r : Nibble) : (State.construct p).reg r = 0 :=
  Vector.getElem_replicate r.isLt

theorem construct_keyDown (k : Nibble) : (State.construct p).keyDown k = false :=
  Vector.getElem_replicate k.isLt

theorem construct_byteAt (a : Nat) : (State.construct p).byteAt a = initialByte p a := rfl

theorem initialByte_font {a : Nat} (h : a < 80) : initialByte p a = p.fontRom[a] := dif_pos h

theorem initialByte_above {a : Nat} (h : 80 ≤ a) : initialByte p a = 0 := dif_neg (Nat.not_lt.2 h)

theorem construct_displayShaped : (State.construct p).DisplayShaped :=
  Display.shaped_cleared p.displayW p.displayH

theorem construct_cell (cx cy : Nat) : (State.construct p).disp.cell cx cy = false :=
  Display.cell_cleared p.displayW p.displayH cx cy

/-- After construction nothing has run, so the invariant's clauses on the wait, the tick and the halt speak of a
running engine between two ticks. -/
theorem construct_inv : (State.construct p).Inv where
  memory := rfl
  display := construct_displayShaped p
  wait := iff_of_false (fun h => h rfl) nofun
  depth _ _ := Nat.zero_le _
  progress := .inl rfl
  between _ := rfl
  halt _ := iff_of_false nofun nofun
  haltBetween _ _ := rfl
  fresh _ := ⟨rfl, rfl, rfl⟩

end

/-- Settles O49: construction meets the invariant with any parameters, this hardware's among them. -/
theorem invHoldsAtConstruction : Obligations.InvHoldsAtConstruction := by
  unfold Obligations.InvHoldsAtConstruction
  exact ⟨construct_inv, construct_inv Params.hardware⟩

/-- Settles O55: the fields as construction sets them; the memory lists no byte, so it reads as the font and 0. -/
theorem constructionLeavesResetValues : Obligations.ConstructionLeavesResetValues := by
  unfold Obligations.ConstructionLeavesResetValues
  refine ⟨?_, by decide, by decide, rfl, rfl⟩
  rintro p _ rfl
  refine ⟨construct_reg p, rfl, rfl, rfl, rfl, rfl, fun a h => ?_, fun a h _ => ?_, construct_displayShaped p,
    construct_cell p, construct_keyDown p, rfl, rfl, rfl, rfl⟩
  · rw [construct_byteAt, initialByte_font p h]
  · rw [construct_byteAt, initialByte_above p h]

end Sys2Proof.Machine

/-! PROOF. What each instruction may change (10_state.md sections 1 to 8): one equation per instruction, from which
the frame of every field follows. -/

namespace Sys2Proof.Machine

/-! ### The frame of each instruction -/

/-- The fields that an instruction may change, as an equation between the state it starts from and the one it goes
on to. -/
def ExecFrame (i : Instr) (s t : State) : Prop :=
  match i with
  | .sys _ => t = { s with run := t.run }
  | .ret | .call _ => t = { s with pc := t.pc, stack := t.stack, run := t.run }
  | .jump _ | .jumpOffset _ | .skipEqByte _ _ | .skipNotEqByte _ _ | .skipEqReg _ _ | .skipNotEqReg _ _
  | .skipPressed _ | .skipNotPressed _ => t = { s with pc := t.pc }
  | .loadByte _ _ | .addByte _ _ | .loadReg _ _ | .or _ _ | .and _ _ | .xor _ _ | .add _ _ | .sub _ _
  | .shiftRight _ _ | .subNeg _ _ | .shiftLeft _ _ | .loadFromDT _ | .loadIntoRegs _ => t = { s with v := t.v }
  | .random _ _ => t = { s with v := t.v, draws := t.draws }
  | .clear => t = { s with disp := t.disp }
  | .draw _ _ _ => t = { s with v := t.v, disp := t.disp }
  | .loadPointer _ | .addToPointer _ | .loadFont _ => t = { s with i := t.i }
  | .loadIntoDT _ => t = { s with dt := t.dt }
  | .loadIntoST _ => t = { s with st := t.st }
  | .loadKeyboard x => t = { s with kw := .pending, run := .awaitingKey x }
  | .loadDigits _ | .loadFromRegs _ => t = { s with mem := t.mem }

section
variable {i : Instr} {s t : State}

theorem exec_frame (h : exec i s = .next t) : ExecFrame i s t := by
  have hskip : ∀ c, exec i s = .next (s.skipIf c) → t = { s with pc := t.pc } := by
    intro c hc
    rw [hc] at h
    cases h
    exact (skipIf_eq s c).1
  have hflagged : ∀ x r, exec i s = .next (s.writeFlagged x r) → t = { s with v := t.v } := by
    intro x r hr
    rw [hr] at h
    cases h
    exact (writeFlagged_spec s x r).1
  cases i
  case sys nnn =>
    simp only [exec, execSys] at h
    split at h <;> cases h <;> rfl
  case ret =>
    simp only [exec, execRet] at h
    split at h <;> cases h <;> rfl
  case call nnn =>
    simp only [exec, execCall] at h
    split at h <;> cases h <;> rfl
  case skipEqByte | skipNotEqByte | skipEqReg | skipNotEqReg => exact hskip _ rfl
  case skipPressed x =>
    simp only [exec, execSkipPressed] at h
    split at h <;> cases h
    exact (skipIf_eq s _).1
  case skipNotPressed x =>
    simp only [exec, execSkipNotPressed] at h
    split at h <;> cases h
    exact (skipIf_eq s _).1
  case add | sub | subNeg | shiftRight | shiftLeft => exact hflagged _ _ rfl
  case loadDigits x =>
    cases h
    simp only [ExecFrame]
    rw [storeAtI_eq, storeAtI_eq, storeAtI_eq]
  case loadFromRegs x => cases h; exact storeRegs_eq _ s
  case loadIntoRegs x => cases h; exact (loadRegs_spec (blockCount_le _ _) s).1
  all_goals cases h; rfl

/-! ### Who changes each field (10_state.md) -/

theorem exec_i_changed (h : exec i s = .next t) (hne : t.i ≠ s.i) :
    (∃ nnn, i = .loadPointer nnn) ∨ (∃ x, i = .addToPointer x) ∨ ∃ x, i = .loadFont x := by
  have hf := exec_frame h
  cases i
  case loadPointer nnn => exact .inl ⟨nnn, rfl⟩
  case addToPointer x => exact .inr (.inl ⟨x, rfl⟩)
  case loadFont x => exact .inr (.inr ⟨x, rfl⟩)
  all_goals exact absurd (congrArg State.i hf) hne

theorem exec_stack_changed (h : exec i s = .next t) (hne : t.stack ≠ s.stack) :
    i = .ret ∨ ∃ nnn, i = .call nnn := by
  have hf := exec_frame h
  cases i
  case ret => exact .inl rfl
  case call nnn => exact .inr ⟨nnn, rfl⟩
  all_goals exact absurd (congrArg State.stack hf) hne

theorem exec_disp_changed (h : exec i s = .next t) (hne : t.disp ≠ s.disp) :
    i = .clear ∨ ∃ x y n, i = .draw x y n := by
  have hf := exec_frame h
  cases i
  case clear => exact .inl rfl
  case draw x y n => exact .inr ⟨x, y, n, rfl⟩
  all_goals exact absurd (congrArg State.disp hf) hne

theorem exec_mem_changed (h : exec i s = .next t) (hne : t.mem ≠ s.mem) :
    (∃ x, i = .loadDigits x) ∨ ∃ x, i = .loadFromRegs x := by
  have hf := exec_frame h
  cases i
  case loadDigits x => exact .inl ⟨x, rfl⟩
  case loadFromRegs x => exact .inr ⟨x, rfl⟩
  all_goals exact absurd (congrArg State.mem hf) hne

theorem exec_kw_changed (h : exec i s = .next t) (hne : t.kw ≠ s.kw) : ∃ x, i = .loadKeyboard x := by
  have hf := exec_frame h
  cases i
  case loadKeyboard x => exact ⟨x, rfl⟩
  all_goals exact absurd (congrArg State.kw hf) hne

theorem exec_dt_changed (h : exec i s = .next t) (hne : t.dt ≠ s.dt) : ∃ x, i = .loadIntoDT x := by
  have hf := exec_frame h
  cases i
  case loadIntoDT x => exact ⟨x, rfl⟩
  all_goals exact absurd (congrArg State.dt hf) hne

theorem exec_st_changed (h : exec i s = .next t) (hne : t.st ≠ s.st) : ∃ x, i = .loadIntoST x := by
  have hf := exec_frame h
  cases i
  case loadIntoST x => exact ⟨x, rfl⟩
  all_goals exact absurd (congrArg State.st hf) hne

theorem exec_draws_changed (h : exec i s = .next t) (hne : t.draws ≠ s.draws) : ∃ x kk, i = .random x kk := by
  have hf := exec_frame h
  cases i
  case random x kk => exact ⟨x, kk, rfl⟩
  all_goals exact absurd (congrArg State.draws hf) hne

/-- How an instruction can change the run state: a wait by LoadKeyboard, a halt by Sys under DecodeError, by Return
on an empty stack or by Call on a full one, and then nothing else changes (R93, R94, R97, R138). -/
theorem exec_run_cases (h : exec i s = .next t) : t.run = s.run ∨
    (∃ x, i = .loadKeyboard x ∧ t.run = .awaitingKey x) ∨
    ∃ e, t = { s with run := .halted e } ∧
      ((i = .ret ∧ s.stack = [] ∧ e = .stackUnderflow) ∨
       (∃ nnn, i = .call nnn ∧ s.cfg.stackDepth = some s.stack.length ∧ e = .stackOverflow) ∨
       (s.cfg.sysMode = .decodeError ∧ ∃ nnn, i = .sys nnn)) := by
  have hf := exec_frame h
  cases i
  case sys nnn =>
    obtain hm | hm : s.cfg.sysMode = .nop ∨ s.cfg.sysMode = .decodeError := by cases s.cfg.sysMode <;> simp
    · rw [exec_sys_of_nop nnn hm] at h; cases h; exact .inl rfl
    · rw [exec_sys_of_decodeError nnn hm] at h; cases h
      exact .inr (.inr ⟨_, rfl, .inr (.inr ⟨hm, nnn, rfl⟩)⟩)
  case ret =>
    by_cases hstack : s.stack = []
    · rw [exec_ret_of_stack_eq_nil hstack] at h; cases h
      exact .inr (.inr ⟨_, rfl, .inl ⟨rfl, hstack, rfl⟩⟩)
    · obtain ⟨a, rest, hcons⟩ := List.exists_cons_of_ne_nil hstack
      rw [exec_ret_of_stack_eq_cons hcons] at h; cases h
      exact .inl rfl
  case call nnn =>
    by_cases hfull : s.cfg.stackDepth = some s.stack.length
    · rw [exec_call_of_full nnn hfull] at h; cases h
      exact .inr (.inr ⟨_, rfl, .inr (.inl ⟨nnn, rfl, hfull, rfl⟩)⟩)
    · rw [exec_call_of_not_full nnn hfull] at h; cases h; exact .inl rfl
  case loadKeyboard x => cases h; exact .inr (.inl ⟨x, rfl, rfl⟩)
  all_goals exact .inl (congrArg State.run hf :)

end

/-- Settles O53, field by field from the frames of the instructions. -/
theorem whoChangesWhat : Obligations.WhoChangesWhat := by
  unfold Obligations.WhoChangesWhat
  intro i s t h
  obtain ⟨hcfg, hkeys, hdone, hstalled, hreport, hphase, hinbox⟩ := exec_untouched h
  refine ⟨exec_i_changed h, exec_stack_changed h, exec_disp_changed h, exec_mem_changed h, exec_kw_changed h,
    fun x hx hne => ?_, fun e he hne => ?_, exec_draws_changed h, hkeys, hcfg, hphase, hinbox, hreport, hdone,
    hstalled⟩
  · rcases exec_run_cases h with hrun | ⟨y, rfl, hrun⟩ | ⟨e, rfl, -⟩
    · exact absurd (hrun ▸ hx) hne
    · rw [hrun] at hx; cases hx; rfl
    · cases hx
  · rcases exec_run_cases h with hrun | ⟨y, -, hrun⟩ | ⟨e', rfl, hcause⟩
    · exact absurd (hrun ▸ he) hne
    · rw [hrun] at he; cases he
    · rcases hcause with ⟨hi, -, -⟩ | ⟨nnn, hi, -, -⟩ | ⟨hm, hi⟩
      · exact .inl hi
      · exact .inr (.inl ⟨nnn, hi⟩)
      · exact .inr (.inr ⟨hm, hi⟩)

/-! ### What every instruction keeps of the memory, the display, the stack and the wait -/

section
variable {i : Instr} {s t : State}

/-- A store to a byte below 0x200 is ignored under FONT_WRITE_PROTECT (R52). -/
theorem byteAt_storeAtI_of_protected {s : State} (k : Nat) (b : Byte) (hp : s.cfg.fontWriteProtect = true) {a : Nat}
    (ha : a < 0x200) : (s.storeAtI k b).byteAt a = s.byteAt a := by
  unfold State.storeAtI
  by_cases hmask : a = maskAddr (s.i + BitVec.ofNat 16 k)
  · rw [memWrite_of_writeIgnored b (writeIgnored_eq_true hp (hmask ▸ ha))]
  · exact byteAt_memWrite_other _ b hmask

theorem byteAt_storeRegs_of_protected (n : Nat) (hp : s.cfg.fontWriteProtect = true) {a : Nat} (ha : a < 0x200) :
    ((List.range n).foldl State.storeReg s).byteAt a = s.byteAt a := by
  induction n with
  | zero => rfl
  | succ n ih =>
    have hcfg : ((List.range n).foldl State.storeReg s).cfg = s.cfg := by rw [storeRegs_eq]
    rw [List.range_succ, List.foldl_append, List.foldl_cons, List.foldl_nil, State.storeReg,
      byteAt_storeAtI_of_protected _ _ (hcfg ▸ hp) ha, ih]

theorem byteAt_congr {s t : State} (hcfg : t.cfg = s.cfg) (hmem : t.mem = s.mem) (a : Nat) :
    t.byteAt a = s.byteAt a := by
  unfold State.byteAt
  rw [hcfg, hmem]

/-- Under FONT_WRITE_PROTECT no instruction changes a byte below 0x200 (R52). -/
theorem exec_byteAt_of_protected (h : exec i s = .next t) (hp : s.cfg.fontWriteProtect = true) {a : Nat}
    (ha : a < 0x200) : t.byteAt a = s.byteAt a := by
  by_cases hmem : t.mem = s.mem
  · exact byteAt_congr (exec_untouched h).cfg hmem a
  rcases exec_mem_changed h hmem with ⟨x, rfl⟩ | ⟨x, rfl⟩
  · cases h
    rw [byteAt_storeAtI_of_protected _ _ (by simpa using hp) ha,
      byteAt_storeAtI_of_protected _ _ (by simpa using hp) ha, byteAt_storeAtI_of_protected _ _ hp ha]
  · cases h
    exact byteAt_storeRegs_of_protected _ hp ha

theorem memoryCanonical_congr {s t : State} (hcfg : t.cfg = s.cfg) (hmem : t.mem = s.mem) (h : s.MemoryCanonical) :
    t.MemoryCanonical := by
  unfold State.MemoryCanonical
  rw [hcfg, hmem]
  exact h

theorem exec_memoryCanonical (h : exec i s = .next t) (hs : s.MemoryCanonical) : t.MemoryCanonical := by
  by_cases hmem : t.mem = s.mem
  · exact memoryCanonical_congr (exec_untouched h).cfg hmem hs
  rcases exec_mem_changed h hmem with ⟨x, rfl⟩ | ⟨x, rfl⟩
  · cases h
    exact storeAtI_canonical _ _ (storeAtI_canonical _ _ (storeAtI_canonical _ _ hs))
  · cases h
    exact storeRegs_canonical _ hs

theorem displayShaped_congr {s t : State} (hcfg : t.cfg = s.cfg) (hdisp : t.disp = s.disp) (h : s.DisplayShaped) :
    t.DisplayShaped := by
  rw [displayShaped_iff, hcfg, hdisp]
  exact h

theorem exec_displayShaped (h : exec i s = .next t) (hs : s.DisplayShaped) : t.DisplayShaped := by
  by_cases hdisp : t.disp = s.disp
  · exact displayShaped_congr (exec_untouched h).cfg hdisp hs
  rcases exec_disp_changed h hdisp with rfl | ⟨x, y, n, rfl⟩
  · cases h
    exact displayShaped_setDisp_cleared s
  · cases h
    exact Display.shaped_plot _ _ _ hs

/-- Call pushes only below STACK_DEPTH, so the stack stays within it (R29, R97). -/
theorem exec_depth (h : exec i s = .next t) {d : Nat} (hd : s.cfg.stackDepth = some d) (hs : s.stack.length ≤ d) :
    t.stack.length ≤ d := by
  by_cases hstack : t.stack = s.stack
  · rwa [hstack]
  rcases exec_stack_changed h hstack with rfl | ⟨nnn, rfl⟩
  · cases hs' : s.stack with
    | nil => rw [exec_ret_of_stack_eq_nil hs'] at h; cases h; exact hs
    | cons a rest =>
      rw [exec_ret_of_stack_eq_cons hs'] at h; cases h
      rw [hs', List.length_cons] at hs
      exact Nat.le_of_succ_le hs
  · by_cases hfull : s.cfg.stackDepth = some s.stack.length
    · rw [exec_call_of_full nnn hfull] at h; cases h; exact hs
    · rw [exec_call_of_not_full nnn hfull] at h; cases h
      have : s.stack.length ≠ d := fun e => hfull (e ▸ hd)
      exact Nat.lt_of_le_of_ne hs this

/-- A running engine without a registration has one after an instruction exactly if it then awaits a key (R138). -/
theorem exec_wait (h : exec i s = .next t) (hrun : s.run = .running) (hkw : s.kw = .none) :
    t.kw ≠ .none ↔ ∃ x, t.run = .awaitingKey x := by
  by_cases hi : ∃ x, i = .loadKeyboard x
  · obtain ⟨x, rfl⟩ := hi
    cases h
    exact iff_of_true nofun ⟨x, rfl⟩
  · have hkw' : t.kw = .none := by
      by_contra hne
      exact hi (exec_kw_changed h (hkw ▸ hne))
    refine iff_of_false (fun hne => hne hkw') ?_
    rintro ⟨x, hx⟩
    rcases exec_run_cases h with hr | ⟨y, hy, -⟩ | ⟨e, rfl, -⟩
    · rw [hr, hrun] at hx; cases hx
    · exact hi ⟨y, hy⟩
    · cases hx

end

end Sys2Proof.Machine

/-! PROOF. The sub-step, the step and the tick (40_execution_cycle.md R80-R91, 60_exceptions.md): what each does in
each run state, the invariant, the halts and the timers. -/

namespace Sys2Proof.Machine

/-! ### Fetch and execute (R80) -/

section
variable {s t : State} {i : Instr}

theorem fetchExecute_of_ok (h : decodeWord s.cfg.sysMode s.fetchWord = .ok i) :
    fetchExecute s = exec i s.advance := by
  unfold fetchExecute
  rw [h]

/-- No word decodes to Sys under SYS_MODE = DecodeError (R71, R93). -/
theorem sysMode_eq_nop_of_decodes_sys {m : SysMode} {w : Word} {nnn : Addr} (h : decodeWord m w = .ok (.sys nnn)) :
    m = .nop := by
  have hwf := (decodeWord_encode_iff_wf m (.sys nnn)).1 (decodeWord_encode_of_decodes h)
  simp only [Instr.wf, Bool.and_eq_true, beq_iff_eq] at hwf
  obtain ⟨⟨hm, -⟩, -⟩ := hwf
  exact hm

/-- The halt of a decoded instruction: Return on an empty stack and Call on a full one (R94, R97). -/
theorem haltCause_eq_some_iff (hd : decodeWord s.cfg.sysMode s.fetchWord = .ok i) (h : Halt) :
    s.haltCause = some h ↔ (i = .ret ∧ s.stack = [] ∧ h = .stackUnderflow) ∨
      ∃ nnn, i = .call nnn ∧ s.cfg.stackDepth = some s.stack.length ∧ h = .stackOverflow := by
  unfold State.haltCause
  rw [hd]
  cases i
  case ret => by_cases hempty : s.stack = [] <;> simp [hempty, eq_comm]
  case call nnn => by_cases hfull : s.cfg.stackDepth = some s.stack.length <;> simp [hfull, eq_comm]
  all_goals simp

theorem haltCause_of_error {e : DecodeError} (hd : decodeWord s.cfg.sysMode s.fetchWord = .error e) :
    s.haltCause = some (.decodeError s.fetchWord) := by
  unfold State.haltCause
  rw [hd]

/-- FetchExecute of a running engine halts exactly on the listed causes, and then only pc and the run state are new
(R148-R150, R154). -/
theorem fetchExecute_halt_iff (hrun : s.run = .running) (ht : fetchExecute s = .next t) (h : Halt) :
    (t.run = .halted h ↔ s.haltCause = some h) ∧
    (t.run = .halted h → t = { s with pc := s.pc + 2, run := .halted h }) := by
  rcases fetchExecute_cases ht with ⟨i, hd, hexec⟩ | ⟨e, hd, rfl⟩
  · rw [haltCause_eq_some_iff hd]
    have hcases := exec_run_cases hexec
    refine ⟨⟨fun hh => ?_, ?_⟩, fun hh => ?_⟩
    · rcases hcases with hr | ⟨x, -, hr⟩ | ⟨e, rfl, ⟨hi, hempty, he⟩ | ⟨nnn, hi, hfull, he⟩ | ⟨hm, nnn, rfl⟩⟩
      · rw [hh, State.advance_run, hrun] at hr; cases hr
      · rw [hh] at hr; cases hr
      · cases hh; exact .inl ⟨hi, hempty, he⟩
      · cases hh; exact .inr ⟨nnn, hi, hfull, he⟩
      · rw [State.advance_cfg, sysMode_eq_nop_of_decodes_sys hd] at hm; cases hm
    · rintro (⟨rfl, hempty, rfl⟩ | ⟨nnn, rfl, hfull, rfl⟩)
      · rw [exec_ret_of_stack_eq_nil (s := s.advance) hempty] at hexec; cases hexec; rfl
      · rw [exec_call_of_full nnn (s := s.advance) hfull] at hexec; cases hexec; rfl
    · rcases hcases with hr | ⟨x, -, hr⟩ | ⟨e, rfl, -⟩
      · rw [hh, State.advance_run, hrun] at hr; cases hr
      · rw [hh] at hr; cases hr
      · cases hh; rfl
  · rw [haltCause_of_error hd]
    refine ⟨⟨fun hh => ?_, fun hh => ?_⟩, fun hh => ?_⟩ <;> cases hh <;> rfl

/-- FetchExecute goes on unless KEY_INDEX_MODE is Refuse (R131, R146). -/
theorem fetchExecute_goes_on (h : s.cfg.keyIndexMode ≠ .refuse) : ∃ t, fetchExecute s = .next t := by
  cases hd : decodeWord s.cfg.sysMode s.fetchWord with
  | ok i =>
    rw [fetchExecute_of_ok hd]
    exact (exec_outcome i s.advance).resolve_right fun ⟨_, hrefuse, _⟩ => h hrefuse
  | error e => exact ⟨_, fetchExecute_of_error hd⟩

/-! ### The sub-step in each run state (R81-R83) -/

theorem subStep_of_running (h : s.run = .running) : subStep s = fetchExecute s := by
  unfold subStep
  rw [h]

theorem subStep_of_delivered {x k : Nibble} (hrun : s.run = .awaitingKey x) (hkw : s.kw = .delivered k) :
    subStep s = fetchExecute (takeKey x k s) := by
  unfold subStep
  rw [hrun, hkw]

theorem subStep_of_pending {x : Nibble} (hrun : s.run = .awaitingKey x) (hkw : s.kw = .pending) :
    subStep s = .next s := by
  unfold subStep
  rw [hrun, hkw]

theorem stalls_of_running (h : s.run = .running) : s.stalls = false := by
  unfold State.stalls
  rw [h]

theorem stalls_of_delivered {x k : Nibble} (hrun : s.run = .awaitingKey x) (hkw : s.kw = .delivered k) :
    s.stalls = false := by
  unfold State.stalls
  rw [hrun, hkw]

theorem stalls_of_pending {x : Nibble} (hrun : s.run = .awaitingKey x) (hkw : s.kw = .pending) :
    s.stalls = true := by
  unfold State.stalls
  rw [hrun, hkw]

/-- A sub-step executes, takes its key and executes, or leaves the state (R81-R83). -/
theorem subStep_cases (h : subStep s = .next t) :
    (s.run = .running ∧ fetchExecute s = .next t) ∨
    (∃ x k, s.run = .awaitingKey x ∧ s.kw = .delivered k ∧ fetchExecute (takeKey x k s) = .next t) ∨ t = s := by
  unfold subStep at h
  split at h
  · exact .inl ⟨by assumption, h⟩
  · exact .inr (.inl ⟨_, _, by assumption, by assumption, h⟩)
  all_goals cases h; exact .inr (.inr rfl)

theorem subStep_goes_on (h : s.cfg.keyIndexMode ≠ .refuse) : ∃ t, subStep s = .next t := by
  unfold subStep
  split
  · exact fetchExecute_goes_on h
  · exact fetchExecute_goes_on (s := takeKey _ _ s) h
  all_goals exact ⟨s, rfl⟩

theorem safe_of_running (h : s.run = .running) : s.Safe := fun e he => by rw [h] at he; cases he

theorem safe_of_awaitingKey {x : Nibble} (h : s.run = .awaitingKey x) : s.Safe := fun e he => by
  rw [h] at he; cases he

theorem safe_or_halted (s : State) : s.Safe ∨ ∃ h, s.run = .halted h := by
  by_cases h : ∃ e, s.run = .halted e
  · exact .inr h
  · exact .inl (not_exists.1 h)

/-! ### After a sub-step (R84, R89) -/

theorem afterSubStep_of_halted {h : Halt} (stalled : Bool) (ht : t.run = .halted h) :
    afterSubStep stalled t = failTick h t := by
  unfold afterSubStep
  rw [ht]

theorem afterSubStep_of_safe (stalled : Bool) (ht : t.Safe) : afterSubStep stalled t =
    if t.subStepsDone + 1 < t.cfg.speed then t.countSubStep stalled else endTick (t.countSubStep stalled) := by
  unfold afterSubStep
  split
  · exact absurd (by assumption) (ht _)
  · rfl
  · rfl

theorem endTick_cfg (s : State) : (endTick s).cfg = s.cfg := by rw [endTick_eq]

/-- What follows a sub-step changes the timers, the tick's variables and the report only. -/
theorem afterSubStep_frame (stalled : Bool) (t : State) : afterSubStep stalled t =
    { t with dt := (afterSubStep stalled t).dt, st := (afterSubStep stalled t).st,
             subStepsDone := (afterSubStep stalled t).subStepsDone,
             stalledAll := (afterSubStep stalled t).stalledAll, report := (afterSubStep stalled t).report } := by
  rcases safe_or_halted t with ht | ⟨h, ht⟩
  · rw [afterSubStep_of_safe stalled ht]
    split
    · rfl
    · rw [endTick_eq]; rfl
  · rw [afterSubStep_of_halted stalled ht]; rfl

theorem afterSubStep_run (stalled : Bool) (t : State) : (afterSubStep stalled t).run = t.run := by
  rw [afterSubStep_frame]

/-- Before the tick's last sub-step the timers are left alone. -/
theorem afterSubStep_timers (stalled : Bool) (h : t.subStepsDone + 1 < t.cfg.speed) :
    (afterSubStep stalled t).dt = t.dt ∧ (afterSubStep stalled t).st = t.st := by
  rcases safe_or_halted t with ht | ⟨e, ht⟩
  · rw [afterSubStep_of_safe stalled ht, if_pos h]; exact ⟨rfl, rfl⟩
  · rw [afterSubStep_of_halted stalled ht]; exact ⟨rfl, rfl⟩

/-! ### The core's part of a step -/

theorem step_eq_coreStep (s : State) : step s = coreStep (deliverInbox s) := rfl

theorem coreStep_of_halted {h : Halt} (hs : s.run = .halted h) : coreStep s = .next (failTick h s) := by
  unfold coreStep
  rw [hs]

theorem coreStep_of_safe (hs : s.Safe) : coreStep s =
    if s.subStepsDone < s.cfg.speed then onNext (afterSubStep s.stalls) (subStep s.markStarted)
    else .next (endTick s.markStarted) := by
  unfold coreStep
  split
  · exact absurd (by assumption) (hs _)
  · rfl
  · rfl

/-- What a step that goes on does, after the key events: it repeats the error of a halted engine, it runs a sub-step
and what follows one, or it ends a tick without a sub-step (R84-R90). -/
theorem step_cases {s t : State} (h : step s = .next t) :
    (∃ e, (deliverInbox s).run = .halted e ∧ t = failTick e (deliverInbox s)) ∨
    ((deliverInbox s).Safe ∧ (deliverInbox s).subStepsDone < (deliverInbox s).cfg.speed ∧
      ∃ w, subStep (deliverInbox s).markStarted = .next w ∧ t = afterSubStep (deliverInbox s).stalls w) ∨
    ((deliverInbox s).Safe ∧ t = endTick (deliverInbox s).markStarted) := by
  rw [step_eq_coreStep] at h
  rcases safe_or_halted (deliverInbox s) with hs | ⟨e, hs⟩
  · rw [coreStep_of_safe hs] at h
    split at h
    · obtain ⟨w, hw, rfl⟩ := onNext_eq_next.1 h
      exact .inr (.inl ⟨hs, by assumption, w, hw, rfl⟩)
    · cases h
      exact .inr (.inr ⟨hs, rfl⟩)
  · rw [coreStep_of_halted hs] at h
    cases h
    exact .inl ⟨e, hs, rfl⟩

/-- A step of a running engine with a sub-step left is FetchExecute and what follows a sub-step. -/
theorem step_of_running {s u : State} (hu : deliverInbox s = u) (hrun : u.run = .running)
    (hlt : u.subStepsDone < u.cfg.speed) :
    step s = onNext (afterSubStep false) (fetchExecute u.markStarted) := by
  rw [step_eq_coreStep, hu, coreStep_of_safe (safe_of_running hrun), if_pos hlt, stalls_of_running hrun,
    subStep_of_running (s := u.markStarted) hrun]

theorem deliverInbox_cfg (s : State) : (deliverInbox s).cfg = s.cfg := by rw [deliverInbox_eq]

theorem deliverInbox_run (s : State) : (deliverInbox s).run = s.run := by rw [deliverInbox_eq]

end

/-- Settles O7: a running engine's sub-step is FetchExecute, which is exec of the decoded instruction or the halt of
an illegal word, and a halt ends the tick. -/
theorem stepRunsTheDecodedInstruction : Obligations.StepRunsTheDecodedInstruction := by
  unfold Obligations.StepRunsTheDecodedInstruction
  refine ⟨fun s i hd => fetchExecute_of_ok hd, fun s u hu hrun hlt => ⟨fun i hd => ?_, fun e hd => ?_⟩⟩
  · rw [step_of_running hu hrun hlt, fetchExecute_of_ok (s := u.markStarted) hd]
    rfl
  · rw [step_of_running hu hrun hlt, fetchExecute_of_error (s := u.markStarted) hd, onNext_next,
      afterSubStep_of_halted _ rfl]
    rfl

/-- Settles O8: the sub-step is FetchExecute of the state with the key taken. -/
theorem deliveredKeyIsTakenAndFetchGoesOn : Obligations.DeliveredKeyIsTakenAndFetchGoesOn := by
  unfold Obligations.DeliveredKeyIsTakenAndFetchGoesOn
  intro s u x k hu hrun hkw hlt
  obtain ⟨-, hkey, hrest⟩ := setReg_spec u x (k.setWidth 8)
  refine ⟨takeKey x k u.markStarted, ?_, ?_, hrest, rfl⟩
  · rw [step_eq_coreStep, hu, coreStep_of_safe (safe_of_awaitingKey hrun), if_pos hlt,
      stalls_of_delivered hrun hkw, subStep_of_delivered (s := u.markStarted) hrun hkw]
  · have hval : (takeKey x k u.markStarted).reg x = k.setWidth 8 := hkey
    rw [hval, BitVec.toNat_setWidth_of_le (by decide)]

/-- Settles O9: the sub-step leaves the state, so the step is what follows a sub-step, or the end of a tick without
one. -/
theorem waitingStepChangesOnlyTheTick : Obligations.WaitingStepChangesOnlyTheTick := by
  unfold Obligations.WaitingStepChangesOnlyTheTick
  intro s u x hu hrun hkw
  have hsafe := safe_of_awaitingKey hrun
  by_cases hlt : u.subStepsDone < u.cfg.speed
  · refine ⟨afterSubStep true u.markStarted, ?_, afterSubStep_frame true _, fun hinside => ?_⟩
    · rw [step_eq_coreStep, hu, coreStep_of_safe hsafe, if_pos hlt, stalls_of_pending hrun hkw,
        subStep_of_pending (s := u.markStarted) hrun hkw, onNext_next]
    · rw [afterSubStep_of_safe (t := u.markStarted) true hsafe, State.markStarted_subStepsDone, State.markStarted_cfg,
        if_pos hinside]
      exact ⟨rfl, rfl, rfl, rfl, Bool.and_true _⟩
  · refine ⟨endTick u.markStarted, ?_, endTick_eq _, fun hinside => absurd (Nat.lt_of_succ_lt hinside) hlt⟩
    rw [step_eq_coreStep, hu, coreStep_of_safe hsafe, if_neg hlt]

/-! ### Halts and the protected region -/

/-- Settles O43, from the causes on which FetchExecute halts. -/
theorem haltsArePrecise : Obligations.HaltsArePrecise := by
  unfold Obligations.HaltsArePrecise
  intro s u t hu hrun hlt hstep h
  rw [step_of_running hu hrun hlt] at hstep
  obtain ⟨w, hw, rfl⟩ := onNext_eq_next.1 hstep
  obtain ⟨hiff, hprecise⟩ := fetchExecute_halt_iff (s := u.markStarted) hrun hw h
  rw [afterSubStep_run]
  refine ⟨hiff, fun hh => ?_⟩
  rw [afterSubStep_of_halted _ hh, hprecise hh]
  rfl

/-- Under FONT_WRITE_PROTECT a sub-step changes no byte below 0x200 (R52). -/
theorem subStep_byteAt_of_protected {s t : State} (h : subStep s = .next t) (hp : s.cfg.fontWriteProtect = true)
    {a : Nat} (ha : a < 0x200) : t.byteAt a = s.byteAt a := by
  have hfetch : ∀ {s : State}, fetchExecute s = .next t → s.cfg.fontWriteProtect = true →
      t.byteAt a = s.byteAt a := by
    intro s h hp
    rcases fetchExecute_cases h with ⟨i, -, hexec⟩ | ⟨e, -, rfl⟩
    · exact exec_byteAt_of_protected hexec hp ha
    · rfl
  rcases subStep_cases h with ⟨-, h⟩ | ⟨x, k, -, -, h⟩ | rfl
  · exact hfetch h hp
  · exact hfetch (s := takeKey x k s) h hp
  · rfl

theorem deliverInbox_byteAt (s : State) (a : Nat) : (deliverInbox s).byteAt a = s.byteAt a := by
  rw [deliverInbox_eq]; rfl

/-- Settles O42: only the sub-step's instruction can store, and its stores below 0x200 are ignored. -/
theorem protectedRegionNeverChanges : Obligations.ProtectedRegionNeverChanges := by
  unfold Obligations.ProtectedRegionNeverChanges
  intro s t hp h a ha
  rw [← deliverInbox_byteAt s a]
  rw [← deliverInbox_cfg s] at hp
  rcases step_cases h with ⟨e, -, rfl⟩ | ⟨-, -, w, hw, rfl⟩ | ⟨-, rfl⟩
  · rfl
  · rw [afterSubStep_frame]
    exact subStep_byteAt_of_protected hw hp ha
  · rw [endTick_eq]
    rfl

/-! ### Every instruction and every step goes on -/

/-- Settles O51, from the outcomes that exec can have. -/
theorem everyInstructionGoesOn : Obligations.EveryInstructionGoesOn := by
  unfold Obligations.EveryInstructionGoesOn
  refine ⟨fun i s hm => ?_, fun s hm => ?_, fun i s f h => ?_, fun i s r h => ?_⟩
  · exact (exec_outcome i s).resolve_right fun ⟨_, hrefuse, _⟩ => hm hrefuse
  · rw [step_eq_coreStep]
    rw [← deliverInbox_cfg s] at hm
    rcases safe_or_halted (deliverInbox s) with hs | ⟨e, hs⟩
    · rw [coreStep_of_safe hs]
      split
      · obtain ⟨w, hw⟩ := subStep_goes_on (s := (deliverInbox s).markStarted) hm
        exact ⟨_, by rw [hw, onNext_next]⟩
      · exact ⟨_, rfl⟩
    · exact ⟨_, coreStep_of_halted hs⟩
  · rcases exec_outcome i s with ⟨t, ht⟩ | ⟨ht, -⟩ <;> rw [h] at ht <;> cases ht
  · rcases exec_outcome i s with ⟨t, ht⟩ | ⟨ht, -, htest⟩ <;> rw [h] at ht <;> cases ht
    exact ⟨rfl, htest⟩

/-! ### The timers and the end of a tick (R86-R88) -/

/-- Settles O48, from who changes a timer and what follows a sub-step that is not the tick's last. -/
theorem timersChangeOnlyAtTickEnds : Obligations.TimersChangeOnlyAtTickEnds := by
  unfold Obligations.TimersChangeOnlyAtTickEnds
  refine ⟨fun i s t h => ⟨exec_dt_changed h, exec_st_changed h⟩, fun s u t hu hrun hstep hinside => ?_⟩
  rw [step_of_running hu hrun (by omega)] at hstep
  obtain ⟨w, hw, rfl⟩ := onNext_eq_next.1 hstep
  have hwork : Untouched u.markStarted w :=
    subStep_untouched ((subStep_of_running (s := u.markStarted) hrun).trans hw)
  obtain ⟨hdt, hst⟩ := afterSubStep_timers (t := w) false (by rw [hwork.subStepsDone, hwork.cfg]; exact hinside)
  rw [hdt, hst]
  rcases fetchExecute_cases hw with ⟨i, hd, hexec⟩ | ⟨e, -, rfl⟩
  · refine ⟨fun hne => ?_, fun hne => ?_⟩
    · obtain ⟨x, rfl⟩ := exec_dt_changed hexec hne
      exact ⟨x, hd⟩
    · obtain ⟨x, rfl⟩ := exec_st_changed hexec hne
      exact ⟨x, hd⟩
  · exact ⟨fun hne => absurd rfl hne, fun hne => absurd rfl hne⟩

theorem endTick_timers (s : State) :
    (endTick s).dt = (decayTimers s).dt ∧ (endTick s).st = (decayTimers s).st := ⟨rfl, rfl⟩

/-- The end of a tick as R86 to R88 say it. -/
theorem endTick_tickEnded (s : State) :
    TickEnded (s.cfg.decayWhenFullyStalled || !s.stalledAll) s (endTick s) := by
  refine ⟨fun hdecays => ?_, fun hkeeps => ?_, rfl, endTick_eq s⟩
  · have hd : decayTimers s = s.setTimers (decayed s.dt) (decayed s.st) := if_pos hdecays
    rw [(endTick_timers s).1, (endTick_timers s).2, hd]
    exact ⟨decayed_spec s.dt, decayed_spec s.st⟩
  · have hd : decayTimers s = s := if_neg (by rw [hkeeps]; exact Bool.false_ne_true)
    rw [(endTick_timers s).1, (endTick_timers s).2, hd]
    exact ⟨rfl, rfl⟩

/-- The count of the last sub-step is over when the tick is, so it is the tick's end of the state before it. -/
theorem tickEnded_of_countSubStep {decays stalled : Bool} {w t : State}
    (h : TickEnded decays (w.countSubStep stalled) t) : TickEnded decays w t := h

/-- A sub-step that ran, as the statements write it, is the model's sub-step and its result (R81, R82). -/
theorem subStep_of_ran {u w : State} {stalled : Bool} (h : SubStepRan u w stalled) :
    subStep u = .next w ∧ u.stalls = stalled ∧ u.Safe := by
  rcases h with ⟨rfl, hrun, hw⟩ | ⟨rfl, x, k, hrun, hkw, hw⟩ | ⟨rfl, x, hrun, hkw, rfl⟩
  · exact ⟨(subStep_of_running hrun).trans hw, stalls_of_running hrun, safe_of_running hrun⟩
  · exact ⟨(subStep_of_delivered hrun hkw).trans hw, stalls_of_delivered hrun hkw, safe_of_awaitingKey hrun⟩
  · exact ⟨subStep_of_pending hrun hkw, stalls_of_pending hrun hkw, safe_of_awaitingKey hrun⟩

/-- A step whose sub-step ran is what follows that sub-step. -/
theorem step_of_ran {s u w : State} {stalled : Bool} (hu : deliverInbox s = u) (hlt : u.subStepsDone < u.cfg.speed)
    (h : SubStepRan u.markStarted w stalled) : step s = .next (afterSubStep stalled w) := by
  obtain ⟨hw, hstalls, hsafe⟩ := subStep_of_ran h
  have hstalls' : u.stalls = stalled := hstalls
  rw [step_eq_coreStep, hu, coreStep_of_safe (s := u) hsafe, if_pos hlt, hw, hstalls', onNext_next]

/-- Settles O46: the end of a tick, and what follows the SPEED-th and an earlier sub-step. -/
theorem tickEndDecaysOnceAndReportsTheTone : Obligations.TickEndDecaysOnceAndReportsTheTone := by
  unfold Obligations.TickEndDecaysOnceAndReportsTheTone
  refine ⟨endTick_tickEnded, fun s u w stalled hu hlast hran hsafe => ?_,
    fun s u w stalled hu hinside hran hsafe => ?_, fun s u hu hnone hsafe => ?_⟩
  · have hwork : Untouched u.markStarted w := subStep_untouched (subStep_of_ran hran).1
    refine ⟨endTick (w.countSubStep stalled), ?_, tickEnded_of_countSubStep (stalled := stalled) ?_⟩
    · rw [step_of_ran hu (by omega) hran, afterSubStep_of_safe stalled hsafe, if_neg]
      rw [hwork.subStepsDone, hwork.cfg]
      exact Nat.not_lt.2 hlast.ge
    · have hended := endTick_tickEnded (w.countSubStep stalled)
      rwa [State.countSubStep_cfg, State.countSubStep_stalledAll, hwork.cfg, hwork.stalledAll] at hended
  · have hwork : Untouched u.markStarted w := subStep_untouched (subStep_of_ran hran).1
    rw [step_of_ran hu (by omega) hran, afterSubStep_of_safe stalled hsafe, if_pos, State.countSubStep,
      hwork.subStepsDone, hwork.stalledAll]
    · rfl
    · rw [hwork.subStepsDone, hwork.cfg]
      exact hinside
  · refine ⟨endTick u.markStarted, ?_, endTick_tickEnded u.markStarted⟩
    rw [step_eq_coreStep, hu, coreStep_of_safe hsafe, if_neg (Nat.not_lt.2 hnone)]

end Sys2Proof.Machine

/-! PROOF. What holds along every run (10_state.md section 7, 40_execution_cycle.md section 4): every step keeps the
invariant, Halted is absorbing, and a tick is its steps. -/

namespace Sys2Proof.Machine

/-! ### The invariant of the state that instructions work on -/

/-- The clauses of the invariant that a sub-step keeps by itself: those that do not speak of the tick. -/
structure State.WorkInv (s : State) : Prop where
  memory : s.MemoryCanonical
  display : s.DisplayShaped
  wait : s.kw ≠ .none ↔ ∃ x, s.run = .awaitingKey x
  depth : ∀ d, s.cfg.stackDepth = some d → s.stack.length ≤ d

theorem State.Inv.work {s : State} (h : s.Inv) : s.WorkInv := ⟨h.memory, h.display, h.wait, h.depth⟩

section
variable {i : Instr} {s t : State}

theorem kw_eq_none_of_wait (h : s.WorkInv) (hrun : ∀ x, s.run ≠ .awaitingKey x) : s.kw = .none := by
  by_contra hne
  obtain ⟨x, hx⟩ := h.wait.1 hne
  exact hrun x hx

theorem exec_workInv (h : exec i s = .next t) (hs : s.WorkInv) (hrun : s.run = .running) : t.WorkInv where
  memory := exec_memoryCanonical h hs.memory
  display := exec_displayShaped h hs.display
  wait := exec_wait h hrun (kw_eq_none_of_wait hs (by rw [hrun]; exact fun _ => nofun))
  depth d hd := by
    rw [(exec_untouched h).cfg] at hd
    exact exec_depth h hd (hs.depth d hd)

theorem fetchExecute_workInv (h : fetchExecute s = .next t) (hs : s.WorkInv) (hrun : s.run = .running) :
    t.WorkInv := by
  rcases fetchExecute_cases h with ⟨i, -, hexec⟩ | ⟨e, -, rfl⟩
  · exact exec_workInv hexec ⟨hs.memory, hs.display, hs.wait, hs.depth⟩ hrun
  · have hkw := kw_eq_none_of_wait hs (by rw [hrun]; exact fun _ => nofun)
    exact ⟨hs.memory, hs.display, iff_of_false (fun hne => hne hkw) nofun, hs.depth⟩

theorem takeKey_workInv (x k : Nibble) (hs : s.WorkInv) : (takeKey x k s).WorkInv :=
  ⟨hs.memory, hs.display, iff_of_false (fun hne => hne rfl) nofun, hs.depth⟩

theorem subStep_workInv (h : subStep s = .next t) (hs : s.WorkInv) : t.WorkInv := by
  rcases subStep_cases h with ⟨hrun, h⟩ | ⟨x, k, -, -, h⟩ | rfl
  · exact fetchExecute_workInv h hs hrun
  · exact fetchExecute_workInv h (takeKey_workInv x k hs) rfl
  · exact hs

/-! ### The invariant of the engine -/

/-- The key events due keep the invariant, as they neither make nor remove a registration (R127, R128). -/
theorem deliverInbox_inv (hs : s.Inv) : (deliverInbox s).Inv := by
  have hkw := deliverInbox_kw_none s
  rw [deliverInbox_eq]
  exact ⟨hs.memory, hs.display, (not_congr hkw).trans hs.wait, hs.depth, hs.progress, hs.between, hs.halt,
    hs.haltBetween, hs.fresh⟩

/-- The end of a tick of an engine that has not halted. -/
theorem endTick_inv (hs : s.WorkInv) (hsafe : s.Safe) (hphase : s.phase = .started) : (endTick s).Inv := by
  have hreport : ∀ h, (endTick s).report ≠ some (.err h) := fun _ => nofun
  rw [endTick_eq]
  exact ⟨hs.memory, hs.display, hs.wait, hs.depth, .inl rfl, fun _ => rfl,
    fun h => iff_of_false (hsafe h) (hreport h), fun _ _ => rfl,
    fun hne => absurd hphase hne⟩

/-- What follows a sub-step of a tick in progress. -/
theorem afterSubStep_inv (stalled : Bool) (hs : s.WorkInv) (hphase : s.phase = .started)
    (hreport : ∀ h, s.report ≠ some (.err h)) : (afterSubStep stalled s).Inv := by
  rcases safe_or_halted s with hsafe | ⟨e, he⟩
  · rw [afterSubStep_of_safe stalled hsafe]
    split
    · exact ⟨hs.memory, hs.display, hs.wait, hs.depth, .inr (by assumption), nofun,
        fun h => iff_of_false (hsafe h) (hreport h), fun h hh => absurd hh (hsafe h),
        fun hne => absurd hphase hne⟩
    · exact endTick_inv ⟨hs.memory, hs.display, hs.wait, hs.depth⟩ hsafe hphase
  · rw [afterSubStep_of_halted stalled he]
    refine ⟨hs.memory, hs.display, hs.wait, hs.depth, .inl rfl, fun _ => rfl, fun h => ?_, fun _ _ => rfl,
      fun hne => absurd hphase hne⟩
    show s.run = .halted h ↔ some (TickResult.err e) = some (.err h)
    rw [he]
    exact ⟨fun hh => by cases hh; rfl, fun hh => by cases hh; rfl⟩

/-- A tick of a halted engine changes nothing (R90): the tick is over and the error is the one reported. -/
theorem failTick_eq_self {h : Halt} (hs : s.Inv) (hrun : s.run = .halted h) : failTick h s = s := by
  have hdone := hs.haltBetween h hrun
  rw [failTick_eq, ← hdone, ← hs.between hdone, ← (hs.halt h).1 hrun]

theorem step_inv (h : step s = .next t) (hs : s.Inv) : t.Inv := by
  have hu := deliverInbox_inv hs
  rcases step_cases h with ⟨e, he, rfl⟩ | ⟨hsafe, -, w, hw, rfl⟩ | ⟨hsafe, rfl⟩
  · rw [failTick_eq_self hu he]
    exact hu
  · have hwork := subStep_untouched hw
    have hmarked : (deliverInbox s).markStarted.WorkInv := ⟨hu.memory, hu.display, hu.wait, hu.depth⟩
    refine afterSubStep_inv _ (subStep_workInv hw hmarked) hwork.phase fun e he => ?_
    rw [hwork.report] at he
    exact hsafe e ((hu.halt e).2 he)
  · exact endTick_inv ⟨hu.memory, hu.display, hu.wait, hu.depth⟩ hsafe rfl

/-- No step writes the parameters (D22). -/
theorem step_cfg (h : step s = .next t) : t.cfg = s.cfg := by
  rw [← deliverInbox_cfg s]
  rcases step_cases h with ⟨e, -, rfl⟩ | ⟨-, -, w, hw, rfl⟩ | ⟨-, rfl⟩
  · rfl
  · rw [afterSubStep_frame]
    exact (subStep_untouched hw).cfg
  · exact endTick_cfg _

/-- A step of a halted engine takes the key events due and changes nothing else (R90). -/
theorem step_of_halted {h : Halt} (hs : s.Inv) (hrun : s.run = .halted h) :
    step s = .next { s with keys := (deliverInbox s).keys, inbox := (deliverInbox s).inbox } := by
  have hrun' : (deliverInbox s).run = .halted h := (deliverInbox_run s).trans hrun
  have hnowait : ∀ x, s.run ≠ .awaitingKey x := by rw [hrun]; exact fun _ => nofun
  have hkw : s.kw = .none := kw_eq_none_of_wait hs.work hnowait
  rw [step_eq_coreStep, coreStep_of_halted hrun', failTick_eq_self (deliverInbox_inv hs) hrun']
  conv_lhs => rw [deliverInbox_eq, (deliverInbox_kw_none s).2 hkw, ← hkw]

end

/-- Settles O50: a sub-step keeps the clauses on the memory, the display, the wait and the stack, and what follows it
sets the tick's variables and the report as the other clauses say. -/
theorem stepKeepsInv : Obligations.StepKeepsInv := by
  unfold Obligations.StepKeepsInv
  exact fun s t hs h => ⟨step_inv h hs, step_cfg h⟩

/-- Settles O44, by induction on the number of steps: each takes key events and keeps the invariant. -/
theorem haltedIsAbsorbing : Obligations.HaltedIsAbsorbing := by
  unfold Obligations.HaltedIsAbsorbing
  intro n
  induction n with
  | zero => intro s t h hs hrun ht; cases ht; rfl
  | succ n ih =>
    intro s t h hs hrun ht
    have hstep := step_of_halted hs hrun
    rw [core_run_succ n hstep] at ht
    rw [ih _ t h (step_inv hstep hs) hrun ht]

/-! ### The tick as its steps (R84) -/

section
variable {s t u : State}

theorem markStarted_of_started (h : s.phase = .started) : s.markStarted = s := by
  rw [State.markStarted, ← h]

theorem deliverInbox_phase (s : State) : (deliverInbox s).phase = s.phase := by rw [deliverInbox_eq]

theorem deliverInbox_subStepsDone (s : State) : (deliverInbox s).subStepsDone = s.subStepsDone := by
  rw [deliverInbox_eq]

theorem deliverInbox_safe (hs : s.Safe) : (deliverInbox s).Safe := fun h hh => hs h (deliverInbox_run s ▸ hh)

/-- One turn of Tick()'s loop: the sub-step, and after it the error, the end of the tick, or the next turn. -/
theorem tickLoop_succ_cases {n : Nat} (h : tickLoop (n + 1) s = .next t) : ∃ w, subStep s = .next w ∧
    ((∃ e, w.run = .halted e ∧ t = failTick e w) ∨
     (w.Safe ∧ n = 0 ∧ t = endTick (w.countSubStep s.stalls)) ∨
     (w.Safe ∧ n ≠ 0 ∧ tickLoop n (deliverInbox (w.countSubStep s.stalls)) = .next t)) := by
  rw [tickLoop] at h
  split at h
  · rename_i w hw
    refine ⟨w, hw, ?_⟩
    rcases safe_or_halted w with hsafe | ⟨e, he⟩
    · refine .inr ?_
      split at h
      · exact absurd (by assumption) (hsafe _)
      all_goals
        split at h
        · cases h
          exact .inl ⟨hsafe, by assumption, rfl⟩
        · exact .inr ⟨hsafe, by assumption, h⟩
    · rw [he] at h
      cases h
      exact .inl ⟨e, he, rfl⟩
  all_goals cases h

/-- A turn of Tick()'s loop, from the state at the boundary before it, is a step of the machine: the last one, or one
that leaves the rest of the loop to run. -/
theorem step_of_tickLoop {n : Nat} (hleft : s.subStepsDone + (n + 1) = s.cfg.speed) (hs : s.Safe)
    (h : tickLoop (n + 1) (deliverInbox s).markStarted = .next t) :
    (step s = .next t ∧ (t.Safe → n = 0)) ∨
    ∃ m u, n = m + 1 ∧ step s = .next u ∧ u.subStepsDone + (m + 1) = u.cfg.speed ∧ u.Safe ∧
      tickLoop (m + 1) (deliverInbox u).markStarted = .next t := by
  obtain ⟨w, hw, hnext⟩ := tickLoop_succ_cases h
  have hwork := subStep_untouched hw
  have hdone : w.subStepsDone = s.subStepsDone := hwork.subStepsDone.trans (deliverInbox_subStepsDone s)
  have hspeed : w.cfg.speed = s.cfg.speed := congrArg Params.speed (hwork.cfg.trans (deliverInbox_cfg s))
  have hstep : step s = .next (afterSubStep (deliverInbox s).stalls w) := by
    rw [step_eq_coreStep, coreStep_of_safe (deliverInbox_safe hs), deliverInbox_subStepsDone, deliverInbox_cfg,
      if_pos (by omega), hw, onNext_next]
  rw [hstep]
  rcases hnext with ⟨e, he, rfl⟩ | ⟨hsafe, rfl, rfl⟩ | ⟨hsafe, hn, hloop⟩
  · rw [afterSubStep_of_halted _ he]
    exact .inl ⟨rfl, fun hsafe => absurd he (hsafe e)⟩
  · rw [afterSubStep_of_safe _ hsafe, if_neg (by omega)]
    exact .inl ⟨rfl, fun _ => rfl⟩
  · obtain ⟨m, rfl⟩ := Nat.exists_eq_succ_of_ne_zero hn
    rw [afterSubStep_of_safe _ hsafe, if_pos (by omega)]
    refine .inr ⟨m, w.countSubStep (deliverInbox s).stalls, rfl, rfl, ?_, hsafe, ?_⟩
    · rw [State.countSubStep_subStepsDone, State.countSubStep_cfg]
      omega
    · have hphase : (deliverInbox (w.countSubStep (deliverInbox s).stalls)).phase = .started :=
        (deliverInbox_phase _).trans hwork.phase
      rw [markStarted_of_started hphase]
      exact hloop

theorem core_run_one (h : step s = .next t) : Sys2Proof.core.run 1 s = .next t :=
  core_run_succ 0 h

/-- Tick()'s loop, with the tick's remaining sub-steps to run, is as many steps, or as many as run until a halt. -/
theorem run_of_tickLoop {n : Nat} (hleft : s.subStepsDone + (n + 1) = s.cfg.speed) (hs : s.Safe)
    (h : tickLoop (n + 1) (deliverInbox s).markStarted = .next t) :
    ∃ k, 1 ≤ k ∧ k ≤ n + 1 ∧ Sys2Proof.core.run k s = .next t ∧ (t.Safe → k = n + 1) := by
  induction n generalizing s with
  | zero =>
    rcases step_of_tickLoop hleft hs h with ⟨hstep, -⟩ | ⟨m, u, hm, -⟩
    · exact ⟨1, le_refl 1, le_refl 1, core_run_one hstep, fun _ => rfl⟩
    · exact absurd hm (Nat.succ_ne_zero m).symm
  | succ n ih =>
    rcases step_of_tickLoop hleft hs h with ⟨hstep, hlast⟩ | ⟨m, u, hm, hstep, hleft', hu, hloop⟩
    · exact ⟨1, le_refl 1, by omega, core_run_one hstep, fun hsafe => by rw [hlast hsafe]⟩
    · obtain rfl : n = m := Nat.succ_injective hm
      obtain ⟨k, hk, hkn, hrun, hexact⟩ := ih hleft' hu hloop
      exact ⟨k + 1, by omega, by omega, (core_run_succ k hstep).trans hrun, fun hsafe => by rw [hexact hsafe]⟩

/-- Tick() of a halted engine repeats the error; of any other it is its loop (R84, R90). -/
theorem tick_of_halted {e : Halt} (hs : s.run = .halted e) : tick s = .next (failTick e (deliverInbox s)) := by
  unfold tick
  rw [deliverInbox_run, hs]

theorem tick_of_safe (hs : s.Safe) : tick s = tickLoop s.cfg.speed (deliverInbox s).markStarted := by
  unfold tick
  split
  · exact absurd (by assumption) (deliverInbox_safe hs _)
  · rfl
  · rfl

end

/-- Settles O47: a tick without a sub-step and the tick of a halted engine are one step, and any other is its loop,
turn by turn. -/
theorem tickIsItsSteps : Obligations.TickIsItsSteps := by
  unfold Obligations.TickIsItsSteps
  intro s t hdone _ ht
  rcases safe_or_halted s with hs | ⟨e, he⟩
  · rw [tick_of_safe hs] at ht
    cases hspeed : s.cfg.speed with
    | zero =>
      rw [hspeed] at ht
      refine ⟨1, le_refl 1, le_refl 1, core_run_one ?_, fun _ => rfl⟩
      rw [step_eq_coreStep, coreStep_of_safe (deliverInbox_safe hs), deliverInbox_cfg, if_neg (by omega)]
      exact ht
    | succ n =>
      rw [hspeed] at ht
      obtain ⟨k, hk, hkn, hrun, hexact⟩ := run_of_tickLoop (by omega) hs ht
      exact ⟨k, hk, by omega, hrun, fun hsafe => by rw [hexact hsafe]; omega⟩
  · rw [tick_of_halted he] at ht
    refine ⟨1, le_refl 1, Nat.le_max_left .., core_run_one ?_, fun hsafe => ?_⟩
    · rw [step_eq_coreStep, coreStep_of_halted ((deliverInbox_run s).trans he), ht]
    · cases ht
      exact absurd ((deliverInbox_run s).trans he) (hsafe e)

end Sys2Proof.Machine

/-! PROOF. Bits 15:12 of I, of pc and of the saved pcs cannot be observed (10_state.md R25, R27): every operation of
the machine keeps the relation of states that are equal but for those bits. -/

namespace Sys2Proof.Machine

/-! ### Values with the same low 12 bits -/

theorem sameLow12_iff_maskAddr_eq (a b : Word) : SameLow12 a b ↔ maskAddr a = maskAddr b :=
  BitVec.toNat_inj.symm

theorem SameLow12.refl (a : Word) : SameLow12 a a := rfl

/-- The low 12 bits of a sum depend only on those of the summands. -/
theorem SameLow12.add {a b : Word} (h : SameLow12 a b) (c : Word) : SameLow12 (a + c) (b + c) := by
  rw [sameLow12_iff_maskAddr_eq, maskAddr_eq, maskAddr_eq] at *
  rw [BitVec.toNat_add, BitVec.toNat_add]
  omega

/-! ### What the relation keeps and what a state shows -/

/-- The state with other values in I, in pc and on the stack. -/
def State.withPointers (s : State) (i pc : Word) (stack : List Word) : State :=
  { s with i := i, pc := pc, stack := stack }

namespace SameButHighBits

section
variable {s s' : State} (h : SameButHighBits s s')
include h

theorem eq_withPointers : s' = s.withPointers s'.i s'.pc s'.stack := h.rest

theorem cfg : s'.cfg = s.cfg := by rw [h.rest]

theorem reg (x : Nibble) : s'.reg x = s.reg x := by rw [h.rest]; rfl

theorem keyDown (k : Nibble) : s'.keyDown k = s.keyDown k := by rw [h.rest]; rfl

theorem run : s'.run = s.run := by rw [h.rest]

theorem kw : s'.kw = s.kw := by rw [h.rest]

theorem inbox : s'.inbox = s.inbox := by rw [h.rest]

theorem subStepsDone : s'.subStepsDone = s.subStepsDone := by rw [h.rest]

theorem stalledAll : s'.stalledAll = s.stalledAll := by rw [h.rest]

theorem dt : s'.dt = s.dt := by rw [h.rest]

theorem st : s'.st = s.st := by rw [h.rest]

theorem byteAt (a : Nat) : s'.byteAt a = s.byteAt a := by rw [h.rest]; rfl

/-- A read masks its address, so its bits 15:12 do not matter (R49). -/
theorem memRead {a b : Word} (hab : SameLow12 a b) : s'.memRead b = s.memRead a := by
  rw [State.memRead, State.memRead, h.byteAt, (sameLow12_iff_maskAddr_eq a b).1 hab]

theorem fetchWord : s'.fetchWord = s.fetchWord := by
  rw [State.fetchWord, State.fetchWord, h.memRead h.pc, h.memRead (h.pc.add 1)]

theorem spriteRows (n : Nibble) : s'.spriteRows n = s.spriteRows n :=
  List.map_congr_left fun r _ => h.memRead (h.i.add (BitVec.ofNat 16 r))

theorem drawn (x y n : Nibble) : s'.drawn x y n = s.drawn x y n := by
  have hdisp : s'.disp = s.disp := by rw [h.rest]
  rw [drawn_eq, drawn_eq, h.spriteRows, h.cfg, h.reg, h.reg, hdisp]

theorem shiftOperand (x y : Nibble) : s'.shiftOperand x y = s.shiftOperand x y := by
  rw [shiftOperand_eq_ite, shiftOperand_eq_ite, h.cfg, h.reg, h.reg]

theorem keyTest (v : Byte) : s'.keyTest v = s.keyTest v := by
  unfold State.keyTest
  rw [h.cfg, h.keyDown]

theorem stalls : s'.stalls = s.stalls := by
  unfold State.stalls
  rw [h.run, h.kw]

/-! ### The operations -/

/-- An operation that neither reads nor writes I, pc and the stack keeps the relation. -/
theorem map {f : State → State}
    (hf : ∀ s i pc stack, f (s.withPointers i pc stack) = (f s).withPointers i pc stack) :
    SameButHighBits (f s) (f s') := by
  have hs : f s = (f s).withPointers s.i s.pc s.stack := hf s s.i s.pc s.stack
  have hs' : f s' = (f s).withPointers s'.i s'.pc s'.stack := by
    rw [← hf, ← h.eq_withPointers]
  rw [hs', hs]
  exact ⟨h.i, h.pc, h.stack, rfl⟩

theorem setI {a b : Word} (hab : SameLow12 a b) : SameButHighBits (s.setI a) (s'.setI b) :=
  ⟨hab, h.pc, h.stack, by rw [h.rest]; rfl⟩

theorem setPc {a b : Word} (hab : SameLow12 a b) : SameButHighBits (s.setPc a) (s'.setPc b) :=
  ⟨h.i, hab, h.stack, by rw [h.rest]; rfl⟩

theorem setStack {l l' : List Word} (hl : List.Forall₂ SameLow12 l l') :
    SameButHighBits (s.setStack l) (s'.setStack l') :=
  ⟨h.i, h.pc, hl, by rw [h.rest]; rfl⟩

theorem advance : SameButHighBits s.advance s'.advance := h.setPc (h.pc.add 2)

theorem skipIf (c : Bool) : SameButHighBits (s.skipIf c) (s'.skipIf c) := by
  cases c
  · exact h
  · exact h.advance

theorem setReg (x : Nibble) (b : Byte) : SameButHighBits (s.setReg x b) (s'.setReg x b) :=
  h.map (f := (·.setReg x b)) fun _ _ _ _ => rfl

theorem setDisp (g : Display) : SameButHighBits (s.setDisp g) (s'.setDisp g) :=
  h.map (f := (·.setDisp g)) fun _ _ _ _ => rfl

theorem setRun (r : RunState) : SameButHighBits (s.setRun r) (s'.setRun r) :=
  h.map (f := (·.setRun r)) fun _ _ _ _ => rfl

theorem writeFlagged (x : Nibble) (r : Flagged) :
    SameButHighBits (s.writeFlagged x r) (s'.writeFlagged x r) := by
  unfold State.writeFlagged
  rw [h.cfg]
  split
  · exact (h.setReg x _).setReg 0xF _
  · exact (h.setReg 0xF _).setReg x _

theorem memWrite {a b : Word} (hab : SameLow12 a b) (c : Byte) :
    SameButHighBits (s.memWrite a c) (s'.memWrite b c) := by
  unfold State.memWrite
  rw [h.cfg, (sameLow12_iff_maskAddr_eq a b).1 hab]
  split
  · exact h
  · exact h.map (f := (·.poke (maskAddr b) c)) fun _ _ _ _ => rfl

theorem storeAtI (k : Nat) (c : Byte) : SameButHighBits (s.storeAtI k c) (s'.storeAtI k c) :=
  h.memWrite (h.i.add _) c

theorem storeReg (k : Nat) : SameButHighBits (s.storeReg k) (s'.storeReg k) := by
  unfold State.storeReg
  rw [h.reg]
  exact h.storeAtI k _

theorem loadReg (k : Nat) : SameButHighBits (s.loadReg k) (s'.loadReg k) := by
  unfold State.loadReg
  rw [h.memRead (h.i.add _)]
  exact h.setReg _ _

theorem foldl {α : Type} {f : State → α → State}
    (hf : ∀ {s s' : State} (a : α), SameButHighBits s s' → SameButHighBits (f s a) (f s' a)) (l : List α) :
    SameButHighBits (l.foldl f s) (l.foldl f s') := by
  induction l generalizing s s' with
  | nil => exact h
  | cons a l ih => exact ih (hf a h)

theorem deliverInbox : SameButHighBits (deliverInbox s) (deliverInbox s') := by
  unfold Machine.deliverInbox
  rw [h.inbox]
  split
  · exact h
  · rename_i evs rest _
    refine foldl (h.map (f := (·.setInbox rest)) fun _ _ _ _ => rfl) (fun e hs => ?_) evs
    cases e with
    | setDown k => exact hs.map (f := Machine.setDown k) fun _ _ _ _ => rfl
    | setUp k => exact hs.map (f := Machine.setUp k) fun _ _ _ _ => rfl

theorem setTimers (d t : Byte) : SameButHighBits (s.setTimers d t) (s'.setTimers d t) :=
  h.map (f := (·.setTimers d t)) fun _ _ _ _ => rfl

theorem leaveTick (r : TickResult) : SameButHighBits (s.leaveTick r) (s'.leaveTick r) :=
  h.map (f := (·.leaveTick r)) fun _ _ _ _ => rfl

theorem decayTimers : SameButHighBits (decayTimers s) (decayTimers s') := by
  unfold Machine.decayTimers
  rw [h.cfg, h.stalledAll, h.dt, h.st]
  split
  · exact h.setTimers _ _
  · exact h

theorem endTick : SameButHighBits (endTick s) (endTick s') := by
  unfold Machine.endTick
  rw [h.decayTimers.st]
  exact h.decayTimers.leaveTick _

theorem failTick (e : Halt) : SameButHighBits (failTick e s) (failTick e s') :=
  h.leaveTick (.err e)

theorem markStarted : SameButHighBits s.markStarted s'.markStarted :=
  h.map (f := State.markStarted) fun _ _ _ _ => rfl

theorem countSubStep (b : Bool) : SameButHighBits (s.countSubStep b) (s'.countSubStep b) :=
  h.map (f := (·.countSubStep b)) fun _ _ _ _ => rfl

theorem afterSubStep (b : Bool) : SameButHighBits (afterSubStep b s) (afterSubStep b s') := by
  unfold Machine.afterSubStep
  rw [h.run, h.subStepsDone, h.cfg]
  split
  · exact h.failTick _
  all_goals
    split
    · exact h.countSubStep b
    · exact (h.countSubStep b).endTick

end

end SameButHighBits

/-! ### The outcomes of instructions and steps -/

theorem OutcomesAgree.onNext {R : State → State → Prop} {f f' : State → State}
    {a b : Host.Outcome State Fault Refusal} (h : OutcomesAgree R a b) (hf : ∀ {s t}, R s t → R (f s) (f' t)) :
    OutcomesAgree R (onNext f a) (onNext f' b) := by
  cases a <;> cases b
  case next.next => exact hf h
  all_goals exact h

section
variable {s s' : State} (h : SameButHighBits s s')
include h

theorem exec_highBits (i : Instr) : OutcomesAgree SameButHighBits (exec i s) (exec i s') := by
  cases i with
  | sys nnn =>
    simp only [exec, execSys, h.cfg]
    split
    · exact h
    · exact h.setRun _
  | clear =>
    rw [exec_clear, exec_clear, h.cfg]
    exact h.setDisp _
  | ret =>
    have hstack := h.stack
    simp only [exec, execRet]
    generalize s.stack = l at hstack ⊢
    generalize s'.stack = l' at hstack ⊢
    cases hstack with
    | nil => exact h.setRun _
    | cons ha hrest => exact (h.setPc ha).setStack hrest
  | jump nnn => exact h.setPc (.refl _)
  | call nnn =>
    simp only [exec, execCall, h.cfg, ← h.stack.length_eq]
    split
    · exact h.setRun _
    · exact (h.setStack (.cons h.pc h.stack)).setPc (.refl _)
  | skipEqByte x kk => rw [exec_skipEqByte, exec_skipEqByte, h.reg]; exact h.skipIf _
  | skipNotEqByte x kk => rw [exec_skipNotEqByte, exec_skipNotEqByte, h.reg]; exact h.skipIf _
  | skipEqReg x y => rw [exec_skipEqReg, exec_skipEqReg, h.reg, h.reg]; exact h.skipIf _
  | skipNotEqReg x y => rw [exec_skipNotEqReg, exec_skipNotEqReg, h.reg, h.reg]; exact h.skipIf _
  | loadByte x kk => exact h.setReg x kk
  | addByte x kk => rw [exec_addByte, exec_addByte, h.reg]; exact h.setReg x _
  | loadReg x y => rw [exec_loadReg, exec_loadReg, h.reg]; exact h.setReg x _
  | or x y => rw [exec_or, exec_or, h.reg, h.reg]; exact h.setReg x _
  | and x y => rw [exec_and, exec_and, h.reg, h.reg]; exact h.setReg x _
  | xor x y => rw [exec_xor, exec_xor, h.reg, h.reg]; exact h.setReg x _
  | add x y => rw [exec_add, exec_add, h.reg, h.reg]; exact h.writeFlagged x _
  | sub x y => rw [exec_sub, exec_sub, h.reg, h.reg]; exact h.writeFlagged x _
  | shiftRight x y => rw [exec_shiftRight, exec_shiftRight, h.shiftOperand]; exact h.writeFlagged x _
  | subNeg x y => rw [exec_subNeg, exec_subNeg, h.reg, h.reg]; exact h.writeFlagged x _
  | shiftLeft x y => rw [exec_shiftLeft, exec_shiftLeft, h.shiftOperand]; exact h.writeFlagged x _
  | loadPointer nnn => exact h.setI (.refl _)
  | jumpOffset nnn => rw [exec_jumpOffset, exec_jumpOffset, h.reg]; exact h.setPc (.refl _)
  | random x kk =>
    exact h.map (f := fun s => (s.setReg x (Config.rand8 s.draws &&& kk)).countDraw) fun _ _ _ _ => rfl
  | draw x y n => rw [exec_draw, exec_draw, h.drawn]; exact (h.setDisp _).setReg 0xF _
  | skipPressed x =>
    simp only [exec, execSkipPressed, h.reg, h.keyTest]
    split
    · exact h.skipIf _
    · exact rfl
  | skipNotPressed x =>
    simp only [exec, execSkipNotPressed, h.reg, h.keyTest]
    split
    · exact h.skipIf _
    · exact rfl
  | loadFromDT x => exact h.map (f := fun s => s.setReg x s.dt) fun _ _ _ _ => rfl
  | loadKeyboard x =>
    exact h.map (f := fun s => s.registerWait.setRun (.awaitingKey x)) fun _ _ _ _ => rfl
  | loadIntoDT x => exact h.map (f := fun s => s.setDT (s.reg x)) fun _ _ _ _ => rfl
  | loadIntoST x => exact h.map (f := fun s => s.setST (s.reg x)) fun _ _ _ _ => rfl
  | addToPointer x => rw [exec_addToPointer, exec_addToPointer, h.reg]; exact h.setI (h.i.add _)
  | loadFont x => rw [exec_loadFont, exec_loadFont, h.reg]; exact h.setI (.refl _)
  | loadDigits x =>
    rw [exec_loadDigits, exec_loadDigits, h.reg]
    exact ((h.storeAtI 0 _).storeAtI 1 _).storeAtI 2 _
  | loadFromRegs x =>
    rw [exec_loadFromRegs, exec_loadFromRegs, h.cfg]
    exact h.foldl (fun k hs => hs.storeReg k) _
  | loadIntoRegs x =>
    rw [exec_loadIntoRegs, exec_loadIntoRegs, h.cfg]
    exact h.foldl (fun k hs => hs.loadReg k) _

theorem fetchExecute_highBits : OutcomesAgree SameButHighBits (fetchExecute s) (fetchExecute s') := by
  unfold fetchExecute
  rw [h.cfg, h.fetchWord]
  split
  · exact exec_highBits h.advance _
  · exact h.advance.setRun _

theorem subStep_highBits : OutcomesAgree SameButHighBits (subStep s) (subStep s') := by
  unfold subStep
  rw [h.run, h.kw]
  split
  · exact fetchExecute_highBits h
  · rename_i x k _ _
    exact fetchExecute_highBits (h.map (f := takeKey x k) fun _ _ _ _ => rfl)
  all_goals exact h

theorem coreStep_highBits : OutcomesAgree SameButHighBits (coreStep s) (coreStep s') := by
  unfold coreStep
  rw [h.run, h.subStepsDone, h.cfg, h.stalls]
  split
  · exact h.failTick _
  all_goals
    split
    · exact (subStep_highBits h.markStarted).onNext fun hw => hw.afterSubStep _
    · exact h.markStarted.endTick

end

/-- Settles O54: every operation of a step keeps the relation, as each address is masked to 12 bits before an access
and the other uses of I, pc and the stack only add to them or store them. -/
theorem highBitsAreUnobservable : Obligations.HighBitsAreUnobservable := by
  unfold Obligations.HighBitsAreUnobservable
  exact fun s s' h => coreStep_highBits h.deliverInbox

end Sys2Proof.Machine

/-! PROOF. The register access table (10_state.md R22): an instruction writes only the registers of its row, and a
register that it does not read can change nothing but itself. -/

namespace Sys2Proof.Machine

/-! ### What is written -/

theorem reg_congr {s t : State} (h : t.v = s.v) (r : Nibble) : t.reg r = s.reg r := by
  unfold State.reg
  simp only [h]

/-- A flagged write leaves every register but its own and VF. -/
theorem writeFlagged_reg_of_ne (s : State) {x r : Nibble} (f : Flagged) (h : ¬ (r = x ∨ r = 0xF)) :
    (s.writeFlagged x f).reg r = s.reg r :=
  (wroteFlagged_writeFlagged s x f).2.2 r (fun e => h (.inl e)) (fun e => h (.inr e))

section
variable {i : Instr} {s t : State} {r : Nibble}

theorem exec_reg_of_not_writes (h : exec i s = .next t) (hw : ¬ writesReg s.cfg i r) : t.reg r = s.reg r := by
  have hf := exec_frame h
  cases i
  case loadByte x _ | addByte x _ | loadReg x _ | or x _ | and x _ | xor x _ | random x _ | loadFromDT x =>
    cases h; exact reg_setReg_of_ne s _ hw
  case add x _ | sub x _ | subNeg x _ | shiftRight x _ | shiftLeft x _ =>
    cases h; exact writeFlagged_reg_of_ne s _ hw
  case draw x y n => cases h; exact reg_setReg_of_ne (s.setDisp _) _ hw
  case loadIntoRegs x =>
    cases h
    exact ((loadRegs_spec (blockCount_le _ x) s).2 r).trans (if_neg hw)
  all_goals exact reg_congr (congrArg State.v hf :) r

end

/-! ### What is read -/

/-- Two states that are equal but for V[r], and equal there too if `agree` holds. -/
structure SameButReg (r : Nibble) (agree : Prop) (s s' : State) : Prop where
  rest : s' = { s with v := s'.v }
  regs : ∀ q, (q = r → agree) → s'.reg q = s.reg q

/-- The state with other registers. -/
def State.withRegs (s : State) (v : Vector Byte 16) : State := { s with v := v }

theorem sameButReg_setReg (s : State) (r : Nibble) (b : Byte) : SameButReg r False s (s.setReg r b) :=
  ⟨rfl, fun _ hq => reg_setReg_of_ne s b hq⟩

namespace SameButReg

section
variable {r : Nibble} {agree : Prop} {s s' : State} (h : SameButReg r agree s s')
include h

theorem mono {agree' : Prop} (himp : agree' → agree) : SameButReg r agree' s s' :=
  ⟨h.rest, fun q hq => h.regs q fun e => himp (hq e)⟩

theorem reg {q : Nibble} (hq : r ≠ q) : s'.reg q = s.reg q := h.regs q fun e => absurd e.symm hq

theorem cfg : s'.cfg = s.cfg := by rw [h.rest]

theorem disp : s'.disp = s.disp := by rw [h.rest]

theorem stack : s'.stack = s.stack := by rw [h.rest]

theorem pc : s'.pc = s.pc := by rw [h.rest]

theorem i : s'.i = s.i := by rw [h.rest]

theorem dt : s'.dt = s.dt := by rw [h.rest]

theorem draws : s'.draws = s.draws := by rw [h.rest]

theorem byteAt (a : Nat) : s'.byteAt a = s.byteAt a := by rw [h.rest]; rfl

theorem shiftOperand {x y : Nibble} (hr : ¬ readsReg s.cfg (.shiftRight x y) r) :
    s'.shiftOperand x y = s.shiftOperand x y := by
  unfold readsReg at hr
  unfold State.shiftOperand
  rw [h.cfg]
  cases hsource : s.cfg.shiftSource <;> rw [hsource] at hr <;> exact h.reg hr

theorem spriteRows (n : Nibble) : s'.spriteRows n = s.spriteRows n := by rw [h.rest]; rfl

theorem keyTest (v : Byte) : s'.keyTest v = s.keyTest v := by rw [h.rest]; rfl

/-- An operation that neither reads nor writes a register keeps the relation. -/
theorem map {f : State → State} (hf : ∀ s v, f (s.withRegs v) = (f s).withRegs v) :
    SameButReg r agree (f s) (f s') := by
  have hs : f s = (f s).withRegs s.v := hf s s.v
  have hs' : f s' = (f s).withRegs s'.v := by
    rw [← hf]
    exact congrArg f h.rest
  rw [hs', hs]
  exact ⟨rfl, h.regs⟩

theorem setReg (x : Nibble) (b : Byte) : SameButReg r (agree ∨ r = x) (s.setReg x b) (s'.setReg x b) := by
  refine ⟨by rw [h.rest]; rfl, fun q hq => ?_⟩
  rw [reg_setReg, reg_setReg]
  split
  · rfl
  · rename_i hx
    exact h.regs q fun e => (hq e).resolve_right fun e' => hx (e.trans e')

theorem setPc (w : Word) : SameButReg r agree (s.setPc w) (s'.setPc w) := h.map (f := (·.setPc w)) fun _ _ => rfl

theorem setI (w : Word) : SameButReg r agree (s.setI w) (s'.setI w) := h.map (f := (·.setI w)) fun _ _ => rfl

theorem setStack (l : List Word) : SameButReg r agree (s.setStack l) (s'.setStack l) :=
  h.map (f := (·.setStack l)) fun _ _ => rfl

theorem setRun (e : RunState) : SameButReg r agree (s.setRun e) (s'.setRun e) :=
  h.map (f := (·.setRun e)) fun _ _ => rfl

theorem setDisp (g : Display) : SameButReg r agree (s.setDisp g) (s'.setDisp g) :=
  h.map (f := (·.setDisp g)) fun _ _ => rfl

theorem skipIf (c : Bool) : SameButReg r agree (s.skipIf c) (s'.skipIf c) := by
  cases c
  · exact h
  · exact h.map (f := State.advance) fun _ _ => rfl

theorem writeFlagged (x : Nibble) (f : Flagged) :
    SameButReg r (r = x ∨ r = 0xF) (s.writeFlagged x f) (s'.writeFlagged x f) := by
  unfold State.writeFlagged
  rw [h.cfg]
  split
  · exact ((h.setReg x _).setReg 0xF _).mono fun hw => hw.imp_left .inr
  · exact ((h.setReg 0xF _).setReg x _).mono fun hw => hw.symm.imp_left .inr

theorem storeAtI (k : Nat) (b : Byte) : SameButReg r agree (s.storeAtI k b) (s'.storeAtI k b) := by
  unfold State.storeAtI State.memWrite
  rw [h.i, h.cfg]
  split
  · exact h
  · exact h.map (f := (·.poke _ b)) fun _ _ => rfl

/-- The loop of LoadFromRegs reads the registers below its count only. -/
theorem storeRegs {n : Nat} (hn : n ≤ r.toNat) :
    SameButReg r agree ((List.range n).foldl State.storeReg s) ((List.range n).foldl State.storeReg s') := by
  induction n with
  | zero => exact h
  | succ n ih =>
    have hne : r ≠ BitVec.ofNat 4 n := by
      rintro rfl
      rw [toNat_regIndex (by have := (BitVec.ofNat 4 n).isLt; omega)] at hn
      omega
    have hstored := ih (by omega)
    rw [List.range_succ, List.foldl_append, List.foldl_append]
    simp only [List.foldl_cons, List.foldl_nil, State.storeReg, hstored.reg hne]
    exact hstored.storeAtI n _

/-- The loop of LoadIntoRegs leaves the same bytes in the registers below its count. -/
theorem loadRegs {n : Nat} (hn : n ≤ 16) :
    SameButReg r (r.toNat < n) ((List.range n).foldl State.loadReg s) ((List.range n).foldl State.loadReg s') := by
  obtain ⟨hframe, hregs⟩ := loadRegs_spec hn s
  obtain ⟨hframe', hregs'⟩ := loadRegs_spec hn s'
  refine ⟨?_, fun q hq => ?_⟩
  · rw [hframe', hframe, h.rest]
  · rw [hregs, hregs', h.i]
    split
    · exact h.byteAt _
    · rename_i hlt
      exact h.regs q fun e => absurd (e ▸ hq e) hlt

end

end SameButReg

section
variable {r : Nibble} {s s' : State} (h : SameButReg r False s s')
include h

/-- The outcome of an instruction does not depend on a register that it does not read. -/
theorem exec_of_not_reads {i : Instr} (hr : ¬ readsReg s.cfg i r) :
    OutcomesAgree (SameButReg r (writesReg s.cfg i r)) (exec i s) (exec i s') := by
  cases i with
  | sys nnn =>
    simp only [exec, execSys, h.cfg]
    split
    · exact h
    · exact h.setRun _
  | clear => rw [exec_clear, exec_clear, h.cfg]; exact h.setDisp _
  | ret =>
    simp only [exec, execRet, h.stack]
    split
    · exact h.setRun _
    · exact (h.setPc _).setStack _
  | jump nnn => exact h.setPc _
  | call nnn =>
    simp only [exec, execCall, h.cfg, h.stack, h.pc]
    split
    · exact h.setRun _
    · exact (h.setStack _).setPc _
  | skipEqByte x kk => rw [exec_skipEqByte, exec_skipEqByte, h.reg hr]; exact h.skipIf _
  | skipNotEqByte x kk => rw [exec_skipNotEqByte, exec_skipNotEqByte, h.reg hr]; exact h.skipIf _
  | skipEqReg x y =>
    obtain ⟨hx, hy⟩ := not_or.1 hr
    rw [exec_skipEqReg, exec_skipEqReg, h.reg hx, h.reg hy]; exact h.skipIf _
  | skipNotEqReg x y =>
    obtain ⟨hx, hy⟩ := not_or.1 hr
    rw [exec_skipNotEqReg, exec_skipNotEqReg, h.reg hx, h.reg hy]; exact h.skipIf _
  | loadByte x kk => exact (h.setReg x kk).mono .inr
  | addByte x kk => rw [exec_addByte, exec_addByte, h.reg hr]; exact (h.setReg x _).mono .inr
  | loadReg x y => rw [exec_loadReg, exec_loadReg, h.reg hr]; exact (h.setReg x _).mono .inr
  | or x y =>
    obtain ⟨hx, hy⟩ := not_or.1 hr
    rw [exec_or, exec_or, h.reg hx, h.reg hy]; exact (h.setReg x _).mono .inr
  | and x y =>
    obtain ⟨hx, hy⟩ := not_or.1 hr
    rw [exec_and, exec_and, h.reg hx, h.reg hy]; exact (h.setReg x _).mono .inr
  | xor x y =>
    obtain ⟨hx, hy⟩ := not_or.1 hr
    rw [exec_xor, exec_xor, h.reg hx, h.reg hy]; exact (h.setReg x _).mono .inr
  | add x y =>
    obtain ⟨hx, hy⟩ := not_or.1 hr
    rw [exec_add, exec_add, h.reg hx, h.reg hy]; exact h.writeFlagged x _
  | sub x y =>
    obtain ⟨hx, hy⟩ := not_or.1 hr
    rw [exec_sub, exec_sub, h.reg hx, h.reg hy]; exact h.writeFlagged x _
  | subNeg x y =>
    obtain ⟨hx, hy⟩ := not_or.1 hr
    rw [exec_subNeg, exec_subNeg, h.reg hx, h.reg hy]; exact h.writeFlagged x _
  | shiftRight x y => rw [exec_shiftRight, exec_shiftRight, h.shiftOperand hr]; exact h.writeFlagged x _
  | shiftLeft x y => rw [exec_shiftLeft, exec_shiftLeft, h.shiftOperand hr]; exact h.writeFlagged x _
  | loadPointer nnn => exact h.setI _
  | jumpOffset nnn => rw [exec_jumpOffset, exec_jumpOffset, h.reg hr]; exact h.setPc _
  | random x kk =>
    rw [exec_random, exec_random, h.draws]
    exact ((h.setReg x _).map (f := State.countDraw) fun _ _ => rfl).mono .inr
  | draw x y n =>
    obtain ⟨hx, hy⟩ := not_or.1 hr
    rw [exec_draw, exec_draw, drawn_eq, drawn_eq, h.cfg, h.reg hx, h.reg hy, h.spriteRows, h.disp]
    exact ((h.setDisp _).setReg 0xF _).mono .inr
  | skipPressed x =>
    simp only [exec, execSkipPressed, h.reg hr, h.keyTest]
    split
    · exact h.skipIf _
    · exact rfl
  | skipNotPressed x =>
    simp only [exec, execSkipNotPressed, h.reg hr, h.keyTest]
    split
    · exact h.skipIf _
    · exact rfl
  | loadFromDT x => rw [exec_loadFromDT, exec_loadFromDT, h.dt]; exact (h.setReg x _).mono .inr
  | loadKeyboard x => exact h.map (f := fun s => s.registerWait.setRun (.awaitingKey x)) fun _ _ => rfl
  | loadIntoDT x =>
    rw [exec_loadIntoDT, exec_loadIntoDT, h.reg hr]
    exact h.map (f := (·.setDT _)) fun _ _ => rfl
  | loadIntoST x =>
    rw [exec_loadIntoST, exec_loadIntoST, h.reg hr]
    exact h.map (f := (·.setST _)) fun _ _ => rfl
  | addToPointer x => rw [exec_addToPointer, exec_addToPointer, h.reg hr, h.i]; exact h.setI _
  | loadFont x => rw [exec_loadFont, exec_loadFont, h.reg hr]; exact h.setI _
  | loadDigits x =>
    rw [exec_loadDigits, exec_loadDigits, h.reg hr]
    exact ((h.storeAtI 0 _).storeAtI 1 _).storeAtI 2 _
  | loadFromRegs x =>
    rw [exec_loadFromRegs, exec_loadFromRegs, h.cfg]
    exact h.storeRegs (Nat.not_lt.1 hr)
  | loadIntoRegs x =>
    rw [exec_loadIntoRegs, exec_loadIntoRegs, h.cfg]
    exact h.loadRegs (blockCount_le _ x)

end

/-- Settles O52: by what each instruction writes, and by its outcomes from states equal but for one register. -/
theorem registerAccessTable : Obligations.RegisterAccessTable := by
  unfold Obligations.RegisterAccessTable
  refine fun i s t r h => ⟨exec_reg_of_not_writes h, fun hr b => ?_⟩
  have hagree := exec_of_not_reads (sameButReg_setReg s r b) hr
  rw [h] at hagree
  generalize exec i (s.setReg r b) = o at hagree
  cases o with
  | next t' =>
    exact ⟨t', rfl, hagree.rest, fun q hq => hagree.regs q fun e => absurd e hq,
      fun hw => hagree.regs r fun _ => hw⟩
  | fault e => exact hagree.elim
  | refused e => exact hagree.elim

end Sys2Proof.Machine
